-- ==== Sys2Proof/Word.lean ====
section
/-! DEFINITION. The widths of the block's values (00_scope.md R10; 10_state.md R23; 20_memory.md R56). -/

namespace Sys2Proof

/-- One byte. -/
abbrev Byte := BitVec 8

/-- One word of the command or response stream (20_memory.md R56). -/
abbrev Word := BitVec 32

/-- An unsigned 32-bit field (30_encoding.md R73). -/
abbrev U32 := BitVec 32

/-- An unsigned 64-bit field or counter (30_encoding.md R73; decision D11). -/
abbrev U64 := BitVec 64

/-- A 16-byte value X, held as the 128-bit integer int(X) of 00_scope.md R10: bit k of it is bit `k mod 8` of
byte `k / 8`, the coefficient of x^k. -/
abbrev Block := BitVec 128

end Sys2Proof
end

