-- ==== Sys2Proof/Machine/Flags.lean ====
section
/-! DEFINITION. The block has no flags held across commands (10_state.md R22): what a command reports is the status word
of its own response (30_encoding.md R72), with the error kinds and detail codes of 60_exceptions.md R200 and R201. -/

namespace Sys2Proof.Machine

/-- The error kinds (60_exceptions.md R200). -/
inductive ErrKind where
  | invalidArgument
  | outOfRange
  | invalidState
  | illegalCommand
deriving DecidableEq, Repr

/-- The failed checks, one per detail code (60_exceptions.md R201). -/
inductive Cause where
  | badOpc | rsvBits | badFlg
  | secszLt16 | outCap | unitLt16 | ctsStraddle
  | startBlk
  | disposed | wrongCtx | budget | ovf32 | ovf64 | owned
deriving DecidableEq, Repr

/-- The ERR code of a kind (60_exceptions.md R200). -/
def ErrKind.code : ErrKind → Byte
  | .invalidArgument => 1
  | .outOfRange => 2
  | .invalidState => 3
  | .illegalCommand => 4

/-- The kind a cause belongs to (60_exceptions.md R201, column ERR). -/
def Cause.kind : Cause → ErrKind
  | .badOpc | .rsvBits | .badFlg => .illegalCommand
  | .secszLt16 | .outCap | .unitLt16 | .ctsStraddle => .invalidArgument
  | .startBlk => .outOfRange
  | .disposed | .wrongCtx | .budget | .ovf32 | .ovf64 | .owned => .invalidState

/-- The DETAIL code of a cause (60_exceptions.md R201). -/
def Cause.detail : Cause → Byte
  | .badOpc => 0x01
  | .rsvBits => 0x02
  | .badFlg => 0x03
  | .secszLt16 => 0x10
  | .outCap => 0x11
  | .unitLt16 => 0x12
  | .ctsStraddle => 0x13
  | .startBlk => 0x20
  | .disposed => 0x30
  | .wrongCtx => 0x31
  | .budget => 0x32
  | .ovf32 => 0x33
  | .ovf64 => 0x34
  | .owned => 0x35

/-- The status word: ERR in S[7:0], DETAIL in S[15:8], the OPC echo in S[23:16], S[31:24] = 0 (30_encoding.md R72). -/
def statusWord (err detail opc : Byte) : Word :=
  BitVec.ofNat 32 (err.toNat + 2 ^ 8 * detail.toNat + 2 ^ 16 * opc.toNat)

/-- The status word of a command that succeeds: ERR = 0 and DETAIL = 0 (30_encoding.md R72). -/
def okStatus (opc : Byte) : Word := statusWord 0 0 opc

/-- The status word of a command that fails a check (30_encoding.md R72; 60_exceptions.md R200, R201). -/
def errStatus (c : Cause) (opc : Byte) : Word := statusWord c.kind.code c.detail opc

/-- The first check that fails, in the order given (60_exceptions.md R204). -/
def firstCause : List (Option Cause) → Option Cause
  | [] => none
  | some c :: _ => some c
  | none :: rest => firstCause rest

end Sys2Proof.Machine
end

