-- ==== Sys2Proof/Config.lean ====
section
/-! DEFINITION. What an implementation fixes: the implementation parameters of 00_scope.md R8. -/

namespace Sys2Proof

/-- A key of the AES primitive: 16 or 32 bytes (00_scope.md R3, R14), byte i in bits [8i+7 : 8i]. -/
inductive AesKey where
  /-- An AES-128 key. -/
  | k128 (k : BitVec 128)
  /-- An AES-256 key. -/
  | k256 (k : BitVec 256)
deriving DecidableEq, Repr

/-- The external AES-ECB primitive, a parameter with no body (00_scope.md R14; log entry 1). Under each key it is a
permutation of the 16-byte blocks. DEDUCED (safe): R14 allows the one law AES_D(K, AES_E(K, B)) = B, and on the finite
set of blocks that law says exactly that AES_E(K, ·) is a permutation whose inverse is AES_D(K, ·). -/
opaque Config.aes : AesKey → Equiv.Perm Block

/-- BLOCK_BYTES (00_scope.md R8). -/
@[simp] abbrev Config.blockBytes : Nat := 16

/-- The smallest sector size (00_scope.md R8: "16 to 2^64 − 1 bytes"). -/
@[simp] abbrev Config.minSectorSize : Nat := 16

/-- INT32_MAX (00_scope.md R8). -/
@[simp] abbrev Config.int32Max : Nat := 2 ^ 31 - 1

/-- INT64_MAX (00_scope.md R8; decision D15). -/
@[simp] abbrev Config.int64Max : Nat := 2 ^ 63 - 1

/-- The GF feedback constant (00_scope.md R8; 40_gf128.md R100). -/
@[simp] abbrev Config.gfFeedback : Block := 0x87

/-- α, the element with byte 0 = 0x02 and all other bytes 0 (00_scope.md R8). -/
@[simp] abbrev Config.alpha : Block := 0x02

end Sys2Proof
end

