-- ==== Sys2Proof/Syntax.lean ====
section
/-! DEFINITION. The commands: one constructor of `Instr` per row of spec/opcode_table.json (30_encoding.md R78, R80). -/

namespace Sys2Proof

/-- A key-size bit: KS1 or KS2 (30_encoding.md R81). -/
inductive KeySize where
  /-- 0: 16 bytes. -/
  | k128
  /-- 1: 32 bytes. -/
  | k256
deriving DecidableEq, Repr

/-- The DIR bit (30_encoding.md R81; 10_state.md R26). -/
inductive Dir where
  /-- 0: encrypt. -/
  | enc
  /-- 1: decrypt. -/
  | dec
deriving DecidableEq, Repr

/-- The MODE bit (30_encoding.md R81; 10_state.md R27). -/
inductive Mode where
  /-- 0: Continuous. -/
  | continuous
  /-- 1: Independent. -/
  | independent
deriving DecidableEq, Repr

/-- The W64 bit of the predict commands (30_encoding.md R81). -/
inductive PredictWidth where
  /-- 0: the 32-bit variant. -/
  | w32
  /-- 1: the 64-bit variant. -/
  | w64
deriving DecidableEq, Repr

/-- The names of the opcode map (30_encoding.md R80). -/
inductive Opcode where
  | gfDbl | gfMul | gfPow | gfMulpow
  | twkInit | twkReset | twkCur | twkPos | twkAdv | twkTake | twkComp | twkComp128
  | xtsInit | xtsProc | xtsFin | xtsPupd | xtsPfin | xtsReset | xtsDisp | info
deriving DecidableEq, Repr

/-- A command with its payload fields in the order of its format (30_encoding.md R78). A DATA field is the byte
string itself: its L is its length (R75), and pad bytes are no part of it (20_memory.md R57). -/
inductive Instr where
  /-- GF_DBL, format F_A (40_gf128.md R101). -/
  | gfDbl (a : Block)
  /-- GF_MUL, format F_AB (40_gf128.md R103). -/
  | gfMul (a b : Block)
  /-- GF_POW, format F_N (40_gf128.md R105). -/
  | gfPow (n : U64)
  /-- GF_MULPOW, format F_AN (40_gf128.md R107). -/
  | gfMulpow (a : Block) (n : U64)
  /-- TWK_INIT, format F_TINIT; the key carries its size KS2 (41_tweak.md R125). -/
  | twkInit (k2 : AesKey) (secsz sec blk : U64)
  /-- TWK_RESET, format F_RST (41_tweak.md R126). -/
  | twkReset (secsz sec blk : U64)
  /-- TWK_CUR, format F_NONE (41_tweak.md R128). -/
  | twkCur
  /-- TWK_POS, format F_NONE (41_tweak.md R129). -/
  | twkPos
  /-- TWK_ADV, format F_NONE (41_tweak.md R130). -/
  | twkAdv
  /-- TWK_TAKE, format F_NONE (41_tweak.md R131). -/
  | twkTake
  /-- TWK_COMP, format F_SJ (41_tweak.md R132). -/
  | twkComp (sec j : U64)
  /-- TWK_COMP128, format F_AN (41_tweak.md R133). -/
  | twkComp128 (a : Block) (n : U64)
  /-- XTS_INIT, format F_XINIT; the keys carry their sizes KS1 and KS2 (42_xts.md R150). -/
  | xtsInit (dir : Dir) (mode : Mode) (k1 k2 : AesKey) (secsz sec : U64)
  /-- XTS_PROC, format F_DATA (42_xts.md R163). -/
  | xtsProc (cap : U32) (data : List Byte)
  /-- XTS_FIN, format F_DATA (42_xts.md R170). -/
  | xtsFin (cap : U32) (data : List Byte)
  /-- XTS_PUPD, format F_N (42_xts.md R176). -/
  | xtsPupd (w : PredictWidth) (n : U64)
  /-- XTS_PFIN, format F_N (42_xts.md R177). -/
  | xtsPfin (w : PredictWidth) (n : U64)
  /-- XTS_RESET, format F_NONE (42_xts.md R180). -/
  | xtsReset
  /-- XTS_DISP, format F_NONE (42_xts.md R181). -/
  | xtsDisp
  /-- INFO, format F_NONE (42_xts.md R183). -/
  | info
deriving DecidableEq, Repr

end Sys2Proof
end

