-- ==== Sys2Proof/Machine/Operands.lean ====
section
/-! DEFINITION. The field types of payloads and results (30_encoding.md R73, R74) and the byte order they are packed in
(20_memory.md R56, R57). Every field is carried little-endian, so a field of several bytes or words is read and
written through the little-endian integer of its bytes or words. -/

namespace Sys2Proof.Machine

/-- The little-endian integer of a byte string: Σ X[i]·2^(8i) (00_scope.md R10). -/
def leNat : List Byte → Nat
  | [] => 0
  | b :: bs => b.toNat + 256 * leNat bs

/-- The `n` little-endian bytes of an integer, byte 0 first (00_scope.md R10, `bytes16`). -/
def leBytes : Nat → Nat → List Byte
  | 0, _ => []
  | n + 1, v => BitVec.ofNat 8 v :: leBytes n (v / 256)

/-- The little-endian integer of a word string: Σ w_k·2^(32k), low word first (30_encoding.md R73). -/
def leNatOfWords : List Word → Nat
  | [] => 0
  | w :: ws => w.toNat + 2 ^ 32 * leNatOfWords ws

/-- The `n` words of an integer, low word first (30_encoding.md R73). -/
def leWords : Nat → Nat → List Word
  | 0, _ => []
  | n + 1, v => BitVec.ofNat 32 v :: leWords n (v / 2 ^ 32)

/-- The 16 bytes of a block, byte 0 first (00_scope.md R10). -/
def blockBytes (x : Block) : List Byte := leBytes 16 x.toNat

/-- The block of 16 bytes, byte 0 first (00_scope.md R10). -/
def blockOfBytes (bs : List Byte) : Block := BitVec.ofNat 128 (leNat bs)

/-- The four bytes of a word in stream order (20_memory.md R56). -/
def wordBytes (w : Word) : List Byte := leBytes 4 w.toNat

/-- A word string seen as a byte stream (20_memory.md R56). -/
def bytesOfWords (ws : List Word) : List Byte := ws.flatMap wordBytes

/-- A byte string packed into ⌈L/4⌉ words, the pad bytes of the last word 0 (20_memory.md R56, R57). -/
def wordsOfBytes : List Byte → List Word
  | [] => []
  | b0 :: b1 :: b2 :: b3 :: rest => BitVec.ofNat 32 (leNat [b0, b1, b2, b3]) :: wordsOfBytes rest
  | short => [BitVec.ofNat 32 (leNat short)]

/-! ## Fields written (results, and the encoder's payloads) -/

/-- A U32 field (30_encoding.md R73). -/
def u32Field (v : U32) : List Word := [v]

/-- A U64 field, low word first (30_encoding.md R73). -/
def u64Field (v : U64) : List Word := leWords 2 v.toNat

/-- A BLK field (30_encoding.md R73). -/
def blkField (x : Block) : List Word := leWords 4 x.toNat

/-- A KEY(ks) field: 4 or 8 words (30_encoding.md R73). -/
def keyField : AesKey → List Word
  | .k128 k => leWords 4 k.toNat
  | .k256 k => leWords 8 k.toNat

/-- A DATA(L) or OUT(L) field (30_encoding.md R73). -/
def dataField (bs : List Byte) : List Word := wordsOfBytes bs

/-! ## Fields read from a payload, at a word offset -/

/-- The `n` words of a payload from word offset `k` on. -/
def wordsAt (p : List Word) (k n : Nat) : List Word := (p.drop k).take n

/-- The U32 field at word offset `k` (30_encoding.md R73). -/
def u32At (p : List Word) (k : Nat) : U32 := p.getD k 0

/-- The U64 field at word offset `k` (30_encoding.md R73). -/
def u64At (p : List Word) (k : Nat) : U64 := BitVec.ofNat 64 (leNatOfWords (wordsAt p k 2))

/-- The BLK field at word offset `k` (30_encoding.md R73). -/
def blkAt (p : List Word) (k : Nat) : Block := BitVec.ofNat 128 (leNatOfWords (wordsAt p k 4))

/-- The KEY(ks) field at word offset `k` (30_encoding.md R73). -/
def keyAt (ks : KeySize) (p : List Word) (k : Nat) : AesKey :=
  match ks with
  | .k128 => .k128 (BitVec.ofNat 128 (leNatOfWords (wordsAt p k 4)))
  | .k256 => .k256 (BitVec.ofNat 256 (leNatOfWords (wordsAt p k 8)))

/-- The number of words of a DATA(L) field: ⌈L/4⌉ (30_encoding.md R73). -/
def dataWords (l : Nat) : Nat := (l + 3) / 4

/-- The DATA(L) field at word offset `k`; its pad bytes are ignored (20_memory.md R57). -/
def dataAt (l : Nat) (p : List Word) (k : Nat) : List Byte := (bytesOfWords (wordsAt p k (dataWords l))).take l

/-- The number of words of a KEY(ks) field (30_encoding.md R73). -/
def keyWords : KeySize → Nat
  | .k128 => 4
  | .k256 => 8

/-! ## Key slots -/

/-- The size bit a KEY field sets (30_encoding.md R74). -/
def keySize : AesKey → KeySize
  | .k128 _ => .k128
  | .k256 _ => .k256

/-- The 256-bit slot a KEY field loads: a 16-byte key writes bytes 0..15 and zero to bytes 16..31 (30_encoding.md R74). -/
def keySlot : AesKey → BitVec 256
  | .k128 k => k.setWidth 256
  | .k256 k => k

/-- The key passed to AES from a slot: the first 16 bytes when the size bit is 0, all 32 when it is 1 (10_state.md R25). -/
def slotKey : KeySize → BitVec 256 → AesKey
  | .k128, k => .k128 (k.setWidth 128)
  | .k256, k => .k256 k

end Sys2Proof.Machine
end

