-- ==== Sys2Proof/WellFormed.lean ====
section
/-! DEFINITION. When a command term can be written as words: every operand but DATA is bounded by its type, and a DATA
field's length must fit the U32 field L (30_encoding.md R75, R78). -/

namespace Sys2Proof

/-- The length of a DATA field fits its U32 field L (30_encoding.md R73, R75). -/
def dataFits (data : List Byte) : Bool := decide (data.length < 2 ^ 32)

/-- A command whose fields the encoding can carry. -/
def Instr.wellFormed : Instr → Bool
  | .xtsProc _ data => dataFits data
  | .xtsFin _ data => dataFits data
  | .gfDbl _ | .gfMul _ _ | .gfPow _ | .gfMulpow _ _ => true
  | .twkInit _ _ _ _ | .twkReset _ _ _ | .twkCur | .twkPos | .twkAdv | .twkTake | .twkComp _ _ | .twkComp128 _ _ => true
  | .xtsInit _ _ _ _ _ _ | .xtsPupd _ _ | .xtsPfin _ _ | .xtsReset | .xtsDisp | .info => true

end Sys2Proof
end

