-- ==== Sys2Proof/Decode.lean ====
section
/-! DEFINITION. From words to commands and back (30_encoding.md R70 to R89). Decoding is total: a stream begins with a
whole command, or with an illegal header, or with a command whose words have not all arrived. -/

namespace Sys2Proof

open Machine

/-! ## The opcode map -/

/-- The OPC byte of each opcode (30_encoding.md R80). -/
def Opcode.code : Opcode → Byte
  | .gfDbl => 0x01
  | .gfMul => 0x02
  | .gfPow => 0x03
  | .gfMulpow => 0x04
  | .twkInit => 0x10
  | .twkReset => 0x11
  | .twkCur => 0x12
  | .twkPos => 0x13
  | .twkAdv => 0x14
  | .twkTake => 0x15
  | .twkComp => 0x16
  | .twkComp128 => 0x17
  | .xtsInit => 0x20
  | .xtsProc => 0x21
  | .xtsFin => 0x22
  | .xtsPupd => 0x23
  | .xtsPfin => 0x24
  | .xtsReset => 0x25
  | .xtsDisp => 0x26
  | .info => 0x30

/-- The opcode of an OPC byte; none for the reserved ones (30_encoding.md R80, R82). -/
def Opcode.ofByte (b : Byte) : Option Opcode :=
  match b.toNat with
  | 0x01 => some .gfDbl
  | 0x02 => some .gfMul
  | 0x03 => some .gfPow
  | 0x04 => some .gfMulpow
  | 0x10 => some .twkInit
  | 0x11 => some .twkReset
  | 0x12 => some .twkCur
  | 0x13 => some .twkPos
  | 0x14 => some .twkAdv
  | 0x15 => some .twkTake
  | 0x16 => some .twkComp
  | 0x17 => some .twkComp128
  | 0x20 => some .xtsInit
  | 0x21 => some .xtsProc
  | 0x22 => some .xtsFin
  | 0x23 => some .xtsPupd
  | 0x24 => some .xtsPfin
  | 0x25 => some .xtsReset
  | 0x26 => some .xtsDisp
  | 0x30 => some .info
  | _ => none

/-- The FLG bits an opcode defines (30_encoding.md R80, R81); every other FLG bit must be 0. -/
def Opcode.flags : Opcode → Byte
  | .twkInit => 0x01
  | .xtsInit => 0x0F
  | .xtsPupd => 0x01
  | .xtsPfin => 0x01
  | .gfDbl | .gfMul | .gfPow | .gfMulpow => 0
  | .twkReset | .twkCur | .twkPos | .twkAdv | .twkTake | .twkComp | .twkComp128 => 0
  | .xtsProc | .xtsFin | .xtsReset | .xtsDisp | .info => 0

/-! ## The header -/

/-- H[7:0] (30_encoding.md R71). -/
def headerOpc (h : Word) : Byte := h.extractLsb' 0 8

/-- H[15:8] (30_encoding.md R71). -/
def headerFlg (h : Word) : Byte := h.extractLsb' 8 8

/-- H[31:16] (30_encoding.md R71). -/
def headerRsv (h : Word) : BitVec 16 := h.extractLsb' 16 16

/-- What a header decodes to: its opcode, or the first failed check in the order BAD_OPC, RSV_BITS, BAD_FLG
(60_exceptions.md R204; 30_encoding.md R82, R83). -/
def decodeHeader (h : Word) : Except Cause Opcode :=
  match Opcode.ofByte (headerOpc h) with
  | none => .error .badOpc
  | some op =>
    if headerRsv h ≠ 0 then .error .rsvBits
    else if headerFlg h &&& ~~~ op.flags ≠ 0 then .error .badFlg
    else .ok op

/-! ## Flag bits as names (30_encoding.md R81) -/

/-- A key-size flag: 0 is 16 bytes, 1 is 32 bytes. -/
def keySizeOf (b : Bool) : KeySize := if b then .k256 else .k128

/-- The DIR flag: 0 is encrypt, 1 is decrypt. -/
def dirOf (b : Bool) : Dir := if b then .dec else .enc

/-- The MODE flag: 0 is Continuous, 1 is Independent. -/
def modeOf (b : Bool) : Mode := if b then .independent else .continuous

/-- The W64 flag: 0 is the 32-bit variant, 1 is the 64-bit variant. -/
def widthOf (b : Bool) : PredictWidth := if b then .w64 else .w32

/-- The bit of a key size. -/
def KeySize.bit : KeySize → Nat
  | .k128 => 0
  | .k256 => 1

/-- The bit of a direction. -/
def Dir.bit : Dir → Nat
  | .enc => 0
  | .dec => 1

/-- The bit of a mode. -/
def Mode.bit : Mode → Nat
  | .continuous => 0
  | .independent => 1

/-- The bit of a predict variant. -/
def PredictWidth.bit : PredictWidth → Nat
  | .w32 => 0
  | .w64 => 1

/-! ## Formats -/

/-- The words after the header that a command has (30_encoding.md R78, R79), read from its opcode, its flags and, in
F_DATA, from L, the payload's first word. -/
def payloadWords (op : Opcode) (flg : Byte) (p : List Word) : Nat :=
  match op with
  | .gfDbl => 4
  | .gfMul => 8
  | .gfPow => 2
  | .gfMulpow => 6
  | .twkInit => keyWords (keySizeOf (flg.getLsbD 0)) + 6
  | .twkReset => 6
  | .twkCur => 0
  | .twkPos => 0
  | .twkAdv => 0
  | .twkTake => 0
  | .twkComp => 4
  | .twkComp128 => 6
  | .xtsInit => keyWords (keySizeOf (flg.getLsbD 2)) + keyWords (keySizeOf (flg.getLsbD 3)) + 4
  | .xtsProc => 2 + dataWords (u32At p 0).toNat
  | .xtsFin => 2 + dataWords (u32At p 0).toNat
  | .xtsPupd => 2
  | .xtsPfin => 2
  | .xtsReset => 0
  | .xtsDisp => 0
  | .info => 0

/-- The command of an opcode, its flags and its payload words (30_encoding.md R78, R80, R81). -/
def assemble (op : Opcode) (flg : Byte) (p : List Word) : Instr :=
  match op with
  | .gfDbl => .gfDbl (blkAt p 0)
  | .gfMul => .gfMul (blkAt p 0) (blkAt p 4)
  | .gfPow => .gfPow (u64At p 0)
  | .gfMulpow => .gfMulpow (blkAt p 0) (u64At p 4)
  | .twkInit =>
    let ks := keySizeOf (flg.getLsbD 0)
    let k := keyWords ks
    .twkInit (keyAt ks p 0) (u64At p k) (u64At p (k + 2)) (u64At p (k + 4))
  | .twkReset => .twkReset (u64At p 0) (u64At p 2) (u64At p 4)
  | .twkCur => .twkCur
  | .twkPos => .twkPos
  | .twkAdv => .twkAdv
  | .twkTake => .twkTake
  | .twkComp => .twkComp (u64At p 0) (u64At p 2)
  | .twkComp128 => .twkComp128 (blkAt p 0) (u64At p 4)
  | .xtsInit =>
    let ks1 := keySizeOf (flg.getLsbD 2)
    let ks2 := keySizeOf (flg.getLsbD 3)
    let k1 := keyWords ks1
    let k := k1 + keyWords ks2
    .xtsInit (dirOf (flg.getLsbD 0)) (modeOf (flg.getLsbD 1)) (keyAt ks1 p 0) (keyAt ks2 p k1) (u64At p k) (u64At p (k + 2))
  | .xtsProc => .xtsProc (u32At p 1) (dataAt (u32At p 0).toNat p 2)
  | .xtsFin => .xtsFin (u32At p 1) (dataAt (u32At p 0).toNat p 2)
  | .xtsPupd => .xtsPupd (widthOf (flg.getLsbD 0)) (u64At p 0)
  | .xtsPfin => .xtsPfin (widthOf (flg.getLsbD 0)) (u64At p 0)
  | .xtsReset => .xtsReset
  | .xtsDisp => .xtsDisp
  | .info => .info

/-! ## Decoding a stream -/

/-- What a command stream begins with. -/
inductive Decoded where
  /-- A whole command of `len` words, its header among them. -/
  | command (i : Instr) (len : Nat)
  /-- An illegal header with this OPC byte (30_encoding.md R82 to R84). -/
  | illegal (c : Cause) (opc : Byte)
  /-- Nothing, or a command whose words have not all arrived (70_reset_and_hazards.md R235). -/
  | incomplete
deriving DecidableEq, Repr

/-- Decode the front of a command stream (30_encoding.md R79, R82 to R85). -/
def decode : List Word → Decoded
  | [] => .incomplete
  | h :: p =>
    match decodeHeader h with
    | .error c => .illegal c (headerOpc h)
    | .ok op =>
      let n := payloadWords op (headerFlg h) p
      if p.length < n then .incomplete else .command (assemble op (headerFlg h) p) (1 + n)

/-! ## Encoding -/

/-- The opcode of a command. -/
def Instr.opcode : Instr → Opcode
  | .gfDbl _ => .gfDbl
  | .gfMul _ _ => .gfMul
  | .gfPow _ => .gfPow
  | .gfMulpow _ _ => .gfMulpow
  | .twkInit _ _ _ _ => .twkInit
  | .twkReset _ _ _ => .twkReset
  | .twkCur => .twkCur
  | .twkPos => .twkPos
  | .twkAdv => .twkAdv
  | .twkTake => .twkTake
  | .twkComp _ _ => .twkComp
  | .twkComp128 _ _ => .twkComp128
  | .xtsInit _ _ _ _ _ _ => .xtsInit
  | .xtsProc _ _ => .xtsProc
  | .xtsFin _ _ => .xtsFin
  | .xtsPupd _ _ => .xtsPupd
  | .xtsPfin _ _ => .xtsPfin
  | .xtsReset => .xtsReset
  | .xtsDisp => .xtsDisp
  | .info => .info

/-- The FLG byte of a command (30_encoding.md R81). -/
def Instr.flg : Instr → Byte
  | .twkInit k2 _ _ _ => BitVec.ofNat 8 (keySize k2).bit
  | .xtsInit dir mode k1 k2 _ _ =>
    BitVec.ofNat 8 (dir.bit + 2 * mode.bit + 4 * (keySize k1).bit + 8 * (keySize k2).bit)
  | .xtsPupd w _ => BitVec.ofNat 8 w.bit
  | .xtsPfin w _ => BitVec.ofNat 8 w.bit
  | .gfDbl _ | .gfMul _ _ | .gfPow _ | .gfMulpow _ _ => 0
  | .twkReset _ _ _ | .twkCur | .twkPos | .twkAdv | .twkTake | .twkComp _ _ | .twkComp128 _ _ => 0
  | .xtsProc _ _ | .xtsFin _ _ | .xtsReset | .xtsDisp | .info => 0

/-- The header word (FLG << 8) | OPC (30_encoding.md R71, R89). -/
def Instr.header (i : Instr) : Word := BitVec.ofNat 32 (i.opcode.code.toNat + 2 ^ 8 * i.flg.toNat)

/-- The payload words of a command, in the order of its format (30_encoding.md R78). -/
def Instr.payload : Instr → List Word
  | .gfDbl a => blkField a
  | .gfMul a b => blkField a ++ blkField b
  | .gfPow n => u64Field n
  | .gfMulpow a n => blkField a ++ u64Field n
  | .twkInit k2 secsz sec blk => keyField k2 ++ u64Field secsz ++ u64Field sec ++ u64Field blk
  | .twkReset secsz sec blk => u64Field secsz ++ u64Field sec ++ u64Field blk
  | .twkCur => []
  | .twkPos => []
  | .twkAdv => []
  | .twkTake => []
  | .twkComp sec j => u64Field sec ++ u64Field j
  | .twkComp128 a n => blkField a ++ u64Field n
  | .xtsInit _ _ k1 k2 secsz sec => keyField k1 ++ keyField k2 ++ u64Field secsz ++ u64Field sec
  | .xtsProc cap data => u32Field (BitVec.ofNat 32 data.length) ++ u32Field cap ++ dataField data
  | .xtsFin cap data => u32Field (BitVec.ofNat 32 data.length) ++ u32Field cap ++ dataField data
  | .xtsPupd _ n => u64Field n
  | .xtsPfin _ n => u64Field n
  | .xtsReset => []
  | .xtsDisp => []
  | .info => []

/-- The words of a command, its header first (30_encoding.md R70, R78). -/
def encode (i : Instr) : List Word := i.header :: i.payload

/-! ## The words of an opcode-table row -/

/-- The length in words of what a stream begins with: a whole command's length by R79 even where its words have not all
arrived, one word for an illegal header (30_encoding.md R79, R84). -/
def commandLength : List Word → Nat
  | [] => 1
  | h :: p =>
    match decodeHeader h with
    | .error _ => 1
    | .ok op => 1 + payloadWords op (headerFlg h) p

/-- The words of an instruction given as bits: bit 0 is the least significant bit of the first word and a later word's
bits count on from it; bits from `nbits` on are 0, up to the instruction's own length. -/
def tableWords (nbits w : Nat) : List Word :=
  let given := leWords ((nbits + 31) / 32) (w % 2 ^ nbits)
  let n := commandLength given
  (given ++ List.replicate (n - given.length) 0).take n

/-- The instruction the decoder reads from an instruction whose bits are `w`; none where it refuses. -/
def decodeTableWord (nbits w : Nat) : Option Instr :=
  match decode (tableWords nbits w) with
  | .command i _ => some i
  | .illegal _ _ => none
  | .incomplete => none

end Sys2Proof
end

