-- ==== Sys2Proof/Machine/State.lean ====
section
/-! DEFINITION. The architectural state (10_state.md R23, R37) and the state after hardware reset
(70_reset_and_hazards.md R230). -/

namespace Sys2Proof.Machine

/-- The CTX register (10_state.md R23, R24). -/
inductive Ctx where
  /-- 0, NONE: no object is constructed. -/
  | none
  /-- 1, ITER: a standalone tweak iterator. -/
  | iter
  /-- 2, CIPHER: a buffered cipher, which owns the iterator. -/
  | cipher
  /-- 3, DISPOSED: the last object was disposed. -/
  | disposed
deriving DecidableEq, Repr

/-- The state registers: exactly the table of 10_state.md R23. -/
structure Regs where
  /-- CTX, the context. -/
  ctx : Ctx
  /-- KS1, the size of K1. -/
  ks1 : KeySize
  /-- K1, the data key. -/
  k1 : BitVec 256
  /-- KS2, the size of K2. -/
  ks2 : KeySize
  /-- K2, the tweak key. -/
  k2 : BitVec 256
  /-- DIR, the direction. -/
  dir : Dir
  /-- MODE, the cipher mode. -/
  mode : Mode
  /-- SECSZ, the sector size in bytes. -/
  secsz : U64
  /-- START_SEC, the configured start sector. -/
  startSec : U64
  /-- SEC, the current sector. -/
  sec : U64
  /-- BLK, the current block in the sector. -/
  blk : U64
  /-- TWK, the current tweak. -/
  twk : Block
  /-- PEND, the pending bytes. -/
  pend : Vector Byte 31
  /-- PLEN, how many bytes are pending. -/
  plen : BitVec 5
  /-- SBYTES, the bytes of the current sector (Independent mode). -/
  sbytes : U64
deriving DecidableEq, Repr

/-- Every register at 0, CTX at NONE (70_reset_and_hazards.md R230). -/
def Regs.zero : Regs where
  ctx := .none
  ks1 := .k128
  k1 := 0
  ks2 := .k128
  k2 := 0
  dir := .enc
  mode := .continuous
  secsz := 0
  startSec := 0
  sec := 0
  blk := 0
  twk := 0
  pend := Vector.replicate 31 0
  plen := 0
  sbytes := 0

/-- The machine: the block's registers, and beside them the host interface (10_state.md R37; 30_encoding.md R70). -/
structure State where
  /-- The state registers (10_state.md R23). -/
  regs : Regs
  /-- The command stream: words written by the host and not yet consumed, first word first (30_encoding.md R70). -/
  cmdIn : List Word
  /-- The response stream: words written by the block and not yet collected, first word first (30_encoding.md R70). -/
  respOut : List Word
  /-- The reset input (70_reset_and_hazards.md R230). -/
  rst : Bool
  /-- The host has no room for a response (70_reset_and_hazards.md R236). -/
  respFull : Bool
deriving DecidableEq, Repr

/-- The reasons a step can stop with a fault: none. Every header decodes or is rejected with a response, and every payload
value has a result or an error response (30_encoding.md R85), so the machine never stops; an error is a response. -/
inductive Fault where
deriving DecidableEq, Repr

/-- The reasons a step can refuse. -/
inductive Refusal where
  /-- Raised by an arm of `exec` whose instruction has no meaning yet; no arm of this model does. Safe. -/
  | notModelled (mnemonic : String)
deriving DecidableEq, Repr

/-- The machine right after hardware reset (70_reset_and_hazards.md R230): every register 0, both streams empty. The two
host inputs at false are a DESIGN CHOICE (log entries 4 and 6). -/
def State.reset : State where
  regs := Regs.zero
  cmdIn := []
  respOut := []
  rst := false
  respFull := false

end Sys2Proof.Machine
end

