-- ==== Sys2Proof/Machine/Ops.lean ====
section
/-! DEFINITION. The shared operations: GF(2^128) arithmetic (40_gf128.md), the tweak iterator (41_tweak.md), the buffered
datapath (42_xts.md), the checks (60_exceptions.md R204), responding and failing (60_exceptions.md R203), and the host's
side of the two streams (70_reset_and_hazards.md). -/

namespace Sys2Proof.Machine

/-! ## GF(2^128) -/

/-- Multiply-by-α (40_gf128.md R100): shift left by one, and XOR 0x87 into byte 0 when bit 127 was set. -/
def dbl (x : Block) : Block := (x <<< 1) ^^^ (if x.msb then Config.gfFeedback else 0)

/-- The schoolbook loop of 40_gf128.md R102: `b` holds the bits not yet read, `r` the result and `w` the working copy. -/
def gmulLoop : Nat → Nat → Block → Block → Block
  | 0, _, r, _ => r
  | k + 1, b, r, w => gmulLoop k (b / 2) (if b % 2 = 1 then r ^^^ w else r) (dbl w)

/-- The general product (40_gf128.md R102). -/
def gmul (a b : Block) : Block := gmulLoop 128 b.toNat 0 a

/-- The square-and-multiply loop of 40_gf128.md R104; the last pass does not square. -/
def alphaPowLoop : Nat → Nat → Block → Block → Block
  | 0, _, r, _ => r
  | k + 1, n, r, bs => alphaPowLoop k (n / 2) (if n % 2 = 1 then gmul r bs else r) (if k = 0 then bs else gmul bs bs)

/-- α^n (40_gf128.md R104). -/
def alphaPow (n : U64) : Block := alphaPowLoop 64 n.toNat 1 Config.alpha

/-- Fast tweak advance: X·α^n (40_gf128.md R106). -/
def mulpow (x : Block) (n : U64) : Block := gmul x (alphaPow n)

/-- X·α^n as an implementation with POW_THRESHOLD = `threshold` computes it (00_scope.md R9; 40_gf128.md R106). The
meanings use `mulpow`; that the two agree for every threshold is a statement, not an assumption. -/
def mulpowAt (threshold : Nat) (x : Block) (n : U64) : Block :=
  if n.toNat ≤ threshold then dbl^[n.toNat] x else gmul x (alphaPow n)

/-! ## The external AES (00_scope.md R14) -/

/-- AES_E. -/
def aesE (k : AesKey) (b : Block) : Block := Config.aes k b

/-- AES_D. -/
def aesD (k : AesKey) (b : Block) : Block := (Config.aes k).symm b

/-- The data key as AES is given it (10_state.md R25). -/
def Regs.dataKey (r : Regs) : AesKey := slotKey r.ks1 r.k1

/-- The tweak key as AES is given it (10_state.md R25). -/
def Regs.tweakKey (r : Regs) : AesKey := slotKey r.ks2 r.k2

/-! ## The tweak iterator -/

/-- LE16(s): a 64-bit sector index as 16 little-endian bytes (00_scope.md R11; 20_memory.md R54). -/
def le16 (s : U64) : Block := s.setWidth 128

/-- The sector-start tweak of a raw 128-bit sector index (41_tweak.md R120, `T0_128`). -/
def tweakStart128 (k : AesKey) (s : Block) : Block := aesE k s

/-- The sector-start tweak of a 64-bit sector index (41_tweak.md R120, `T0`). -/
def tweakStart (k : AesKey) (s : U64) : Block := tweakStart128 k (le16 s)

/-- The tweak of block j of sector s (41_tweak.md R121, `T`). -/
def tweakAt (k : AesKey) (s j : U64) : Block := mulpow (tweakStart k s) j

/-- ⌈secsz / 16⌉ (10_state.md R28). -/
def blocksPerSector (secsz : U64) : Nat := (secsz.toNat + 15) / Config.blockBytes

/-- BPS, read from SECSZ (10_state.md R28). -/
def Regs.bps (r : Regs) : Nat := blocksPerSector r.secsz

/-- One advance of the iterator (41_tweak.md R122): on a rollover the doubled value is discarded. -/
def iterAdvance (r : Regs) : Regs :=
  if r.blk.toNat + 1 = r.bps then
    { r with twk := tweakStart r.tweakKey (r.sec + 1), blk := 0, sec := r.sec + 1 }
  else
    { r with twk := dbl r.twk, blk := r.blk + 1 }

/-- The SECSZ check (41_tweak.md R123; 42_xts.md R150). -/
def secszCheck (secsz : U64) : Option Cause :=
  if secsz.toNat < Config.minSectorSize then some .secszLt16 else none

/-- The start-block check (41_tweak.md R123). -/
def startBlkCheck (secsz blk : U64) : Option Cause :=
  if blocksPerSector secsz ≤ blk.toNat then some .startBlk else none

/-- `iter_check` (41_tweak.md R123). -/
def iterCheck (secsz blk : U64) : Option Cause := firstCause [secszCheck secsz, startBlkCheck secsz blk]

/-- `iter_load` (41_tweak.md R123), under the K2 the registers hold. -/
def iterLoad (secsz sec blk : U64) (r : Regs) : Regs :=
  { r with secsz := secsz, sec := sec, blk := blk, twk := tweakAt r.tweakKey sec blk }

/-! ## Context checks -/

/-- The check of TWK_RESET, TWK_ADV and TWK_TAKE (41_tweak.md R127). -/
def iterWriteCheck (r : Regs) : Option Cause :=
  match r.ctx with
  | .none => some .wrongCtx
  | .iter => none
  | .cipher => some .owned
  | .disposed => some .disposed

/-- The check of TWK_CUR, TWK_POS, TWK_COMP and TWK_COMP128 (41_tweak.md R127). -/
def iterReadCheck (r : Regs) : Option Cause :=
  match r.ctx with
  | .none => some .wrongCtx
  | .iter => none
  | .cipher => none
  | .disposed => some .disposed

/-- `cipher_ctx_check` (42_xts.md R151). -/
def cipherCheck (r : Regs) : Option Cause :=
  match r.ctx with
  | .none => some .wrongCtx
  | .iter => some .wrongCtx
  | .cipher => none
  | .disposed => some .disposed

/-! ## The pending buffer and the size checks -/

/-- PEND[0..PLEN) (10_state.md R32). -/
def Regs.pending (r : Regs) : List Byte := r.pend.toList.take r.plen.toNat

/-- 31 bytes: the first 31 of `bs`, zeros above them (10_state.md R32). -/
def padTo31 (bs : List Byte) : Vector Byte 31 :=
  ⟨((bs ++ List.replicate 31 0).take 31).toArray, by simp⟩

/-- Rewrite the pending buffer with at most 31 bytes, the rest zero (42_xts.md R163; 10_state.md R32). -/
def setPending (bs : List Byte) (r : Regs) : Regs :=
  { r with pend := padTo31 bs, plen := BitVec.ofNat 5 bs.length }

/-- The bytes XTS_PROC emits for a total of `t` (42_xts.md R162): max(0, t/16 − 1)·16. -/
def nproc (t : Nat) : Nat := (t / Config.blockBytes - 1) * Config.blockBytes

/-- `ovf_check` (42_xts.md R178), exact. -/
def ovfCheck (w : PredictWidth) (t : Nat) : Option Cause :=
  match w with
  | .w32 => if Config.int32Max < t then some .ovf32 else none
  | .w64 => if Config.int64Max < t then some .ovf64 else none

/-- `budget_check` (42_xts.md R174), exact. -/
def budgetCheck (r : Regs) (n : Nat) : Option Cause :=
  match r.mode with
  | .continuous => none
  | .independent => if r.secsz.toNat < r.sbytes.toNat + n then some .budget else none

/-- `budget_commit` (42_xts.md R174). -/
def budgetCommit (n : Nat) (r : Regs) : Regs :=
  match r.mode with
  | .continuous => r
  | .independent => { r with sbytes := BitVec.ofNat 64 (r.sbytes.toNat + n) }

/-- The data-unit check of XTS_FIN (42_xts.md R171). -/
def unitCheck (t : Nat) : Option Cause :=
  if 0 < t ∧ t < Config.blockBytes then some .unitLt16 else none

/-- The blocks before a CTS pair, or all the blocks of an aligned unit (42_xts.md R170, `f`). -/
def finBlocks (t : Nat) : Nat := if t % Config.blockBytes = 0 then t / Config.blockBytes else t / Config.blockBytes - 1

/-- `cts_straddle_check` with the conditions it runs under (42_xts.md R170, R172). -/
def straddleCheck (r : Regs) (t : Nat) : Option Cause :=
  match r.mode with
  | .independent => none
  | .continuous =>
    if t % Config.blockBytes ≠ 0 ∧ (r.blk.toNat + finBlocks t) % r.bps = r.bps - 1 then some .ctsStraddle else none

/-- The output-capacity check (42_xts.md R179). -/
def capCheck (emitted : Nat) (cap : U32) : Option Cause :=
  if cap.toNat < emitted then some .outCap else none

/-- The checks of XTS_PROC for `n` input bytes, in order (42_xts.md R163; 60_exceptions.md R204). -/
def procCheck (r : Regs) (n : Nat) (cap : U32) : Option Cause :=
  firstCause [cipherCheck r, ovfCheck .w32 (r.plen.toNat + n), budgetCheck r n, capCheck (nproc (r.plen.toNat + n)) cap]

/-- The checks of XTS_FIN for `n` input bytes, in order (42_xts.md R170; 60_exceptions.md R204). -/
def finCheck (r : Regs) (n : Nat) (cap : U32) : Option Cause :=
  firstCause [cipherCheck r, ovfCheck .w32 (r.plen.toNat + n), budgetCheck r n, unitCheck (r.plen.toNat + n),
    straddleCheck r (r.plen.toNat + n), capCheck (r.plen.toNat + n) cap]

/-- The checks of XTS_PUPD and XTS_PFIN, in order (42_xts.md R176, R177; 60_exceptions.md R204). -/
def predictCheck (r : Regs) (w : PredictWidth) (n : Nat) : Option Cause :=
  firstCause [cipherCheck r, ovfCheck w (r.plen.toNat + n), budgetCheck r n]

/-! ## The block transform and ciphertext stealing -/

/-- AES under K1 between two XORs with the tweak `t` (42_xts.md R160): AES_E for DIR = 0, AES_D for DIR = 1. -/
def xexCrypt (r : Regs) (t b : Block) : Block :=
  match r.dir with
  | .enc => aesE r.dataKey (b ^^^ t) ^^^ t
  | .dec => aesD r.dataKey (b ^^^ t) ^^^ t

/-- `xts_block` (42_xts.md R160): transform one block under the current tweak, then advance. -/
def xtsBlock (b : Block) (r : Regs) : Regs × Block := (iterAdvance r, xexCrypt r r.twk b)

/-- `xts_block` on the first `n` 16-byte blocks of `s`, in stream order; the output bytes in order (42_xts.md R163, R170). -/
def xtsBlocks : Nat → List Byte → Regs → Regs × List Byte
  | 0, _, r => (r, [])
  | n + 1, s, r =>
    let (r1, y) := xtsBlock (blockOfBytes (s.take 16)) r
    let (r2, ys) := xtsBlocks n (s.drop 16) r1
    (r2, blockBytes y ++ ys)

/-- `cts_enc` (42_xts.md R173): `a` is P_{n−1}, `pn` the m bytes of P_n. -/
def ctsEnc (a : Block) (pn : List Byte) (r : Regs) : Regs × List Byte :=
  let tn1 := r.twk
  let r1 := iterAdvance r
  let tn := r1.twk
  let cc := aesE r.dataKey (a ^^^ tn1) ^^^ tn1
  let cn := (blockBytes cc).take pn.length
  let p2 := blockOfBytes (pn ++ (blockBytes cc).drop pn.length)
  let cn1 := aesE r.dataKey (p2 ^^^ tn) ^^^ tn
  (iterAdvance r1, blockBytes cn1 ++ cn)

/-- `cts_dec` (42_xts.md R175): `a` is C_{n−1}, `cn` the m bytes of C_n; T_n is used first. -/
def ctsDec (a : Block) (cn : List Byte) (r : Regs) : Regs × List Byte :=
  let tn1 := r.twk
  let r1 := iterAdvance r
  let tn := r1.twk
  let pp := aesD r.dataKey (a ^^^ tn) ^^^ tn
  let pn := (blockBytes pp).take cn.length
  let cc2 := blockOfBytes (cn ++ (blockBytes pp).drop cn.length)
  let pn1 := aesD r.dataKey (cc2 ^^^ tn1) ^^^ tn1
  (iterAdvance r1, blockBytes pn1 ++ pn)

/-- Ciphertext stealing in the cipher's direction (42_xts.md R170). -/
def ctsPair (a : Block) (tail : List Byte) (r : Regs) : Regs × List Byte :=
  match r.dir with
  | .enc => ctsEnc a tail r
  | .dec => ctsDec a tail r

/-- The transform of XTS_FIN on a whole stream `s` (42_xts.md R170): the leading blocks, then a CTS pair where the length
is no multiple of 16. -/
def finalTransform (s : List Byte) (r : Regs) : Regs × List Byte :=
  let f := finBlocks s.length
  let (r1, out) := xtsBlocks f s r
  if s.length % Config.blockBytes = 0 then (r1, out)
  else
    let (r2, tail) := ctsPair (blockOfBytes ((s.drop (16 * f)).take 16)) (s.drop (16 * f + 16)) r1
    (r2, out ++ tail)

/-- `auto_reset` (42_xts.md R182). -/
def autoReset (r : Regs) : Regs :=
  iterLoad r.secsz r.startSec 0 { r with pend := padTo31 [], plen := 0, sbytes := 0 }

/-- What an accepted XTS_PROC does to the registers, and the bytes it emits (42_xts.md R163). -/
def procEffect (data : List Byte) (r : Regs) : Regs × List Byte :=
  let s := r.pending ++ data
  let e := nproc s.length
  let (r1, out) := xtsBlocks (e / Config.blockBytes) s (budgetCommit data.length r)
  (setPending (s.drop e) r1, out)

/-- What an accepted XTS_FIN does to the registers, and the bytes it emits (42_xts.md R170). -/
def finEffect (data : List Byte) (r : Regs) : Regs × List Byte :=
  let (r1, out) := finalTransform (r.pending ++ data) (budgetCommit data.length r)
  (autoReset r1, out)

/-- The registers a successful TWK_INIT leaves (41_tweak.md R125): the old context zeroized, then the new one loaded. -/
def initIter (k2 : AesKey) (secsz sec blk : U64) : Regs :=
  { iterLoad secsz sec blk { Regs.zero with k2 := keySlot k2, ks2 := keySize k2 } with ctx := .iter }

/-- The registers a successful XTS_INIT leaves (42_xts.md R150). -/
def initCipher (dir : Dir) (mode : Mode) (k1 k2 : AesKey) (secsz sec : U64) : Regs :=
  { iterLoad secsz sec 0
      { Regs.zero with
        k1 := keySlot k1, ks1 := keySize k1, k2 := keySlot k2, ks2 := keySize k2, dir := dir, mode := mode, startSec := sec }
    with ctx := .cipher }

/-- The registers XTS_DISP leaves (42_xts.md R181): zeroized when an object exists, otherwise as they were. -/
def disposeRegs (r : Regs) : Regs :=
  match r.ctx with
  | .none => r
  | .iter => { Regs.zero with ctx := .disposed }
  | .cipher => { Regs.zero with ctx := .disposed }
  | .disposed => r

/-! ## Responding and failing -/

/-- Append words to the response stream (30_encoding.md R70; 70_reset_and_hazards.md R236). -/
def State.emit (s : State) (ws : List Word) : State := { s with respOut := s.respOut ++ ws }

/-- A success response: the status word, then the result fields in order (30_encoding.md R76). -/
def State.respond (s : State) (op : Opcode) (fields : List Word) : State := s.emit (okStatus op.code :: fields)

/-- Raising an error, the block's one exception mechanism (60_exceptions.md R203; 30_encoding.md R76): the response is the
status word alone and no register changes. Nothing is saved and no vector is taken, so there is no return (R205). -/
def State.raise (s : State) (c : Cause) (opc : Byte) : State := s.emit [errStatus c opc]

/-- The shape of every command (20_memory.md R59): if a check fails, raise its cause; otherwise write the registers and
respond, all in one step. -/
def State.reply (s : State) (op : Opcode) (check : Option Cause) (r : Regs) (fields : List Word) : State :=
  match check with
  | some c => s.raise c op.code
  | none => { s with regs := r }.respond op fields

/-- The result fields CNT:U32, OUT(CNT) of XTS_PROC and XTS_FIN (30_encoding.md R75, R80). -/
def outFields (out : List Byte) : List Word := u32Field (BitVec.ofNat 32 out.length) ++ dataField out

/-! ## The two streams and the host's side of them -/

/-- Consume `n` words of the command stream (30_encoding.md R79). -/
def State.consume (s : State) (n : Nat) : State := { s with cmdIn := s.cmdIn.drop n }

/-- Rejecting an illegal header (30_encoding.md R84): its one word is consumed, and the response is one error word. -/
def State.rejectHeader (s : State) (c : Cause) (opc : Byte) : State := (s.consume 1).raise c opc

/-- The words of a stream that belong to whole commands and illegal headers, at most `k` of these; the words of a command
that has not all arrived, at the end of the stream, are not among them (30_encoding.md R79, R84). -/
def wholeCommands : Nat → List Word → List Word
  | 0, _ => []
  | k + 1, ws =>
    match decode ws with
    | .incomplete => []
    | .command _ n => ws.take n ++ wholeCommands k (ws.drop n)
    | .illegal _ _ => ws.take 1 ++ wholeCommands k (ws.drop 1)

/-- The command stream a hardware reset leaves: any partly received command is discarded, wherever in the stream it begins,
so that the host's next word begins a command (70_reset_and_hazards.md R230). Each command has at least one word, so the
stream holds at most as many as it has words. DESIGN CHOICE (unsafe, log entry 5): what stands whole in the stream stays. -/
def resetStream (ws : List Word) : List Word := wholeCommands ws.length ws

/-- Hardware reset (70_reset_and_hazards.md R230): every register takes its reset value and undelivered responses are
discarded. The reset input is sampled once, as a pulse (log entry 4). -/
def State.hardwareReset (s : State) : State :=
  { s with regs := Regs.zero, cmdIn := resetStream s.cmdIn, respOut := [], rst := false }

/-- The host writes words to the command stream (30_encoding.md R70). -/
def State.hostWrite (s : State) (ws : List Word) : State := { s with cmdIn := s.cmdIn ++ ws }

/-- The host collects the first `n` response words; no register changes (20_memory.md R60). -/
def State.hostCollect (s : State) (n : Nat) : State := { s with respOut := s.respOut.drop n }

/-- The host asserts the reset input (70_reset_and_hazards.md R230). -/
def State.hostReset (s : State) : State := { s with rst := true }

/-- The host says whether it has room for a response (70_reset_and_hazards.md R236). -/
def State.hostRoom (s : State) (room : Bool) : State := { s with respFull := !room }

end Sys2Proof.Machine
end

