-- ==== Sys2Proof/Machine/Gf.lean ====
section
/-! DEFINITION. The GF commands (40_gf128.md): they run in every context, read and write no register, and have no error. -/

namespace Sys2Proof.Machine

/-- GF_DBL (40_gf128.md R101). -/
def execGfDbl (a : Block) (s : State) : Host.Outcome State Fault Refusal :=
  .next (s.respond .gfDbl (blkField (dbl a)))

/-- GF_MUL (40_gf128.md R103). -/
def execGfMul (a b : Block) (s : State) : Host.Outcome State Fault Refusal :=
  .next (s.respond .gfMul (blkField (gmul a b)))

/-- GF_POW (40_gf128.md R105). -/
def execGfPow (n : U64) (s : State) : Host.Outcome State Fault Refusal :=
  .next (s.respond .gfPow (blkField (alphaPow n)))

/-- GF_MULPOW (40_gf128.md R107). -/
def execGfMulpow (a : Block) (n : U64) (s : State) : Host.Outcome State Fault Refusal :=
  .next (s.respond .gfMulpow (blkField (mulpow a n)))

end Sys2Proof.Machine
end

