-- ==== Sys2Proof/Machine/Tweak.lean ====
section
/-! DEFINITION. The tweak commands (41_tweak.md). -/

namespace Sys2Proof.Machine

/-- TWK_INIT (41_tweak.md R125): no context check; a failed check leaves the old context whole (decision D35). -/
def execTwkInit (k2 : AesKey) (secsz sec blk : U64) (s : State) : Host.Outcome State Fault Refusal :=
  .next (s.reply .twkInit (iterCheck secsz blk) (initIter k2 secsz sec blk) [])

/-- TWK_RESET (41_tweak.md R126). -/
def execTwkReset (secsz sec blk : U64) (s : State) : Host.Outcome State Fault Refusal :=
  .next (s.reply .twkReset (firstCause [iterWriteCheck s.regs, iterCheck secsz blk]) (iterLoad secsz sec blk s.regs) [])

/-- TWK_CUR (41_tweak.md R128). -/
def execTwkCur (s : State) : Host.Outcome State Fault Refusal :=
  .next (s.reply .twkCur (iterReadCheck s.regs) s.regs (blkField s.regs.twk))

/-- TWK_POS (41_tweak.md R129): SEC, then BLK. -/
def execTwkPos (s : State) : Host.Outcome State Fault Refusal :=
  .next (s.reply .twkPos (iterReadCheck s.regs) s.regs (u64Field s.regs.sec ++ u64Field s.regs.blk))

/-- TWK_ADV (41_tweak.md R130). -/
def execTwkAdv (s : State) : Host.Outcome State Fault Refusal :=
  .next (s.reply .twkAdv (iterWriteCheck s.regs) (iterAdvance s.regs) [])

/-- TWK_TAKE (41_tweak.md R131): the tweak before the advance. -/
def execTwkTake (s : State) : Host.Outcome State Fault Refusal :=
  .next (s.reply .twkTake (iterWriteCheck s.regs) (iterAdvance s.regs) (blkField s.regs.twk))

/-- TWK_COMP (41_tweak.md R132): J is not checked against BPS (decision D29). -/
def execTwkComp (sec j : U64) (s : State) : Host.Outcome State Fault Refusal :=
  .next (s.reply .twkComp (iterReadCheck s.regs) s.regs (blkField (mulpow (tweakStart s.regs.tweakKey sec) j)))

/-- TWK_COMP128 (41_tweak.md R133). -/
def execTwkComp128 (a : Block) (n : U64) (s : State) : Host.Outcome State Fault Refusal :=
  .next (s.reply .twkComp128 (iterReadCheck s.regs) s.regs (blkField (mulpow (tweakStart128 s.regs.tweakKey a) n)))

end Sys2Proof.Machine
end

