-- ==== Sys2Proof/Machine/Xts.lean ====
section
/-! DEFINITION. The cipher commands and INFO (42_xts.md). -/

namespace Sys2Proof.Machine

/-- XTS_INIT (42_xts.md R150): it runs in every context; a failed check leaves the old context whole (decision D35). -/
def execXtsInit (dir : Dir) (mode : Mode) (k1 k2 : AesKey) (secsz sec : U64) (s : State) :
    Host.Outcome State Fault Refusal :=
  .next (s.reply .xtsInit (secszCheck secsz) (initCipher dir mode k1 k2 secsz sec) [])

/-- XTS_PROC (42_xts.md R163). -/
def execXtsProc (cap : U32) (data : List Byte) (s : State) : Host.Outcome State Fault Refusal :=
  .next (s.reply .xtsProc (procCheck s.regs data.length cap) (procEffect data s.regs).1 (outFields (procEffect data s.regs).2))

/-- XTS_FIN (42_xts.md R170). -/
def execXtsFin (cap : U32) (data : List Byte) (s : State) : Host.Outcome State Fault Refusal :=
  .next (s.reply .xtsFin (finCheck s.regs data.length cap) (finEffect data s.regs).1 (outFields (finEffect data s.regs).2))

/-- XTS_PUPD (42_xts.md R176). -/
def execXtsPupd (w : PredictWidth) (n : U64) (s : State) : Host.Outcome State Fault Refusal :=
  .next (s.reply .xtsPupd (predictCheck s.regs w n.toNat) s.regs
    (u64Field (BitVec.ofNat 64 (nproc (s.regs.plen.toNat + n.toNat)))))

/-- XTS_PFIN (42_xts.md R177). -/
def execXtsPfin (w : PredictWidth) (n : U64) (s : State) : Host.Outcome State Fault Refusal :=
  .next (s.reply .xtsPfin (predictCheck s.regs w n.toNat) s.regs
    (u64Field (BitVec.ofNat 64 (s.regs.plen.toNat + n.toNat))))

/-- XTS_RESET (42_xts.md R180): exactly `auto_reset` (R182). -/
def execXtsReset (s : State) : Host.Outcome State Fault Refusal :=
  .next (s.reply .xtsReset (cipherCheck s.regs) (autoReset s.regs) [])

/-- XTS_DISP (42_xts.md R181): no error, and idempotent (decision D23). -/
def execXtsDisp (s : State) : Host.Outcome State Fault Refusal :=
  .next (s.reply .xtsDisp none (disposeRegs s.regs) [])

/-- INFO (42_xts.md R183): BLKSZ = 16, in every context. -/
def execInfo (s : State) : Host.Outcome State Fault Refusal :=
  .next (s.respond .info (u32Field (BitVec.ofNat 32 Config.blockBytes)))

end Sys2Proof.Machine
end

