-- ==== Sys2Proof/Machine/Dispatch.lean ====
section
/-! DEFINITION. One arm per constructor of `Instr`, in the order of spec/opcode_table.json. -/

namespace Sys2Proof.Machine

def exec (i : Instr) (s : State) : Host.Outcome State Fault Refusal :=
  match i with
  | .gfDbl a => Sys2Proof.Machine.execGfDbl a s
  | .gfMul a b => Sys2Proof.Machine.execGfMul a b s
  | .gfPow n => Sys2Proof.Machine.execGfPow n s
  | .gfMulpow a n => Sys2Proof.Machine.execGfMulpow a n s
  | .twkInit k2 secsz sec blk => Sys2Proof.Machine.execTwkInit k2 secsz sec blk s
  | .twkReset secsz sec blk => Sys2Proof.Machine.execTwkReset secsz sec blk s
  | .twkCur => Sys2Proof.Machine.execTwkCur s
  | .twkPos => Sys2Proof.Machine.execTwkPos s
  | .twkAdv => Sys2Proof.Machine.execTwkAdv s
  | .twkTake => Sys2Proof.Machine.execTwkTake s
  | .twkComp sec j => Sys2Proof.Machine.execTwkComp sec j s
  | .twkComp128 a n => Sys2Proof.Machine.execTwkComp128 a n s
  | .xtsInit dir mode k1 k2 secsz sec => Sys2Proof.Machine.execXtsInit dir mode k1 k2 secsz sec s
  | .xtsProc cap data => Sys2Proof.Machine.execXtsProc cap data s
  | .xtsFin cap data => Sys2Proof.Machine.execXtsFin cap data s
  | .xtsPupd w n => Sys2Proof.Machine.execXtsPupd w n s
  | .xtsPfin w n => Sys2Proof.Machine.execXtsPfin w n s
  | .xtsReset => Sys2Proof.Machine.execXtsReset s
  | .xtsDisp => Sys2Proof.Machine.execXtsDisp s
  | .info => Sys2Proof.Machine.execInfo s

end Sys2Proof.Machine
end

