-- ==== Sys2Proof/Machine/Step.lean ====
section
/-! DEFINITION. One step of the machine: one whole command (20_memory.md R59; 70_reset_and_hazards.md R238). -/

namespace Sys2Proof.Machine

/-- One step. The reset input comes first (70_reset_and_hazards.md R230). A command is held while the host has no room for
its response (R236) and while its words have not all arrived (R235): the state stays as it is. An illegal header is
answered and skipped (30_encoding.md R84). Otherwise the command's words are consumed and it executes (R79). -/
def step (s : State) : Host.Outcome State Fault Refusal :=
  if s.rst then .next s.hardwareReset
  else if s.respFull then .next s
  else
    match decode s.cmdIn with
    | .incomplete => .next s
    | .illegal c opc => .next (s.rejectHeader c opc)
    | .command i n => exec i (s.consume n)

/-- The state with an instruction's words put at the front of the command stream, the inputs at rest, so that the next
step runs that instruction. -/
def State.withFetchWord (s : State) (nbits w : Nat) : State :=
  { s with cmdIn := tableWords nbits w ++ s.cmdIn, rst := false, respFull := false }

end Sys2Proof.Machine
end

