-- ==== Sys2Proof/Safety.lean ====
section
/-! DEFINITION. What counts as a safe state and a safe run, in the terms the statements use. The invariants are those the
spec states (10_state.md R31, R32, R34, R38; 42_xts.md R165); the responses are written in the spec's numbers, so that a
statement does not rest on the model's own code tables. -/

namespace Sys2Proof.Machine

/-! ## Responses in numbers -/

/-- A status word from its ERR, DETAIL and OPC numbers (30_encoding.md R72). -/
def statusNumber (err detail opc : Nat) : Word := BitVec.ofNat 32 (err + 256 * detail + 65536 * opc)

/-- `s` after a command of opcode number `opc` that succeeded: registers `r`, one response with these result fields, and
nothing else changed (30_encoding.md R76). -/
def State.answered (s : State) (opc : Nat) (r : Regs) (fields : List Word) : State :=
  { s with regs := r, respOut := s.respOut ++ statusNumber 0 0 opc :: fields }

/-- `s` after a command of opcode number `opc` that failed: one status word and nothing else changed
(60_exceptions.md R203). -/
def State.failed (s : State) (opc err detail : Nat) : State :=
  { s with respOut := s.respOut ++ [statusNumber err detail opc] }

/-- The ERR and DETAIL of the first check that applies, the checks in order (60_exceptions.md R204). -/
def firstReported : List (Bool × Nat × Nat) → Option (Nat × Nat)
  | [] => none
  | (true, e) :: _ => some e
  | (false, _) :: rest => firstReported rest

/-- The command reports the first of these checks that applies, and succeeds where none does. -/
def ReportsFirst (i : Instr) (s : State) (opc : Nat) (checks : List (Bool × Nat × Nat)) : Prop :=
  match firstReported checks with
  | some (err, detail) => exec i s = .next (s.failed opc err detail)
  | none => ∃ r fields, exec i s = .next (s.answered opc r fields)

/-- The (ERR, DETAIL) pairs the block can write: success, and the table of 60_exceptions.md R201. -/
def statusPairs : List (Nat × Nat) :=
  [(0, 0), (4, 0x01), (4, 0x02), (4, 0x03), (1, 0x10), (1, 0x11), (1, 0x12), (1, 0x13), (2, 0x20),
    (3, 0x30), (3, 0x31), (3, 0x32), (3, 0x33), (3, 0x34), (3, 0x35)]

/-! ## The opcode table -/

/-- The rows of spec/opcode_table.json: opcode, match and mask of the header word. -/
def opcodeRows : List (Opcode × Word × Word) :=
  [(.gfDbl, 0x00000001, 0xFFFFFFFF), (.gfMul, 0x00000002, 0xFFFFFFFF), (.gfPow, 0x00000003, 0xFFFFFFFF),
    (.gfMulpow, 0x00000004, 0xFFFFFFFF), (.twkInit, 0x00000010, 0xFFFFFEFF), (.twkReset, 0x00000011, 0xFFFFFFFF),
    (.twkCur, 0x00000012, 0xFFFFFFFF), (.twkPos, 0x00000013, 0xFFFFFFFF), (.twkAdv, 0x00000014, 0xFFFFFFFF),
    (.twkTake, 0x00000015, 0xFFFFFFFF), (.twkComp, 0x00000016, 0xFFFFFFFF), (.twkComp128, 0x00000017, 0xFFFFFFFF),
    (.xtsInit, 0x00000020, 0xFFFFF0FF), (.xtsProc, 0x00000021, 0xFFFFFFFF), (.xtsFin, 0x00000022, 0xFFFFFFFF),
    (.xtsPupd, 0x00000023, 0xFFFFFEFF), (.xtsPfin, 0x00000024, 0xFFFFFEFF), (.xtsReset, 0x00000025, 0xFFFFFFFF),
    (.xtsDisp, 0x00000026, 0xFFFFFFFF), (.info, 0x00000030, 0xFFFFFFFF)]

/-- The bytes of a command's words that carry meaning: all of them, but for the pad bytes of a DATA field
(20_memory.md R57). -/
def meaningfulBytes : Instr → Nat
  | .xtsProc _ data => 12 + data.length
  | .xtsFin _ data => 12 + data.length
  | i => 4 * (encode i).length

/-- A stream that ends where a command ends: it is whole commands and illegal headers one after the other, so that a word
written behind it is read as a header (30_encoding.md R79, R84; 70_reset_and_hazards.md R230). -/
inductive Framed : List Word → Prop
  /-- Nothing has arrived. -/
  | nil : Framed []
  /-- A whole command, and then such a stream. -/
  | command (ws : List Word) (i : Instr) (n : Nat) : decode ws = .command i n → Framed (ws.drop n) → Framed ws
  /-- An illegal header, and then such a stream. -/
  | illegal (ws : List Word) (c : Cause) (o : Byte) : decode ws = .illegal c o → Framed (ws.drop 1) → Framed ws

/-! ## The register invariants -/

/-- A register that is not valid in the current context is zero (10_state.md R38). -/
def Regs.InvalidZero (r : Regs) : Prop :=
  match r.ctx with
  | .none => r = Regs.zero
  | .iter =>
    r.k1 = 0 ∧ r.ks1 = .k128 ∧ r.dir = .enc ∧ r.mode = .continuous ∧ r.startSec = 0 ∧ r.pend = Vector.replicate 31 0 ∧
      r.plen = 0 ∧ r.sbytes = 0
  | .cipher => True
  | .disposed => r = { Regs.zero with ctx := .disposed }

/-- The contexts that hold an iterator. -/
def Regs.HasIterator (r : Regs) : Prop := r.ctx = .iter ∨ r.ctx = .cipher

/-- The invariants the spec states of the registers between commands. -/
structure Regs.Inv (r : Regs) : Prop where
  /-- 10_state.md R38. -/
  invalidZero : r.InvalidZero
  /-- 10_state.md R28: 16 ≤ SECSZ in ITER and CIPHER. -/
  sectorSize : r.HasIterator → 16 ≤ r.secsz.toNat
  /-- 10_state.md R31: BLK < BPS. -/
  blockRange : r.HasIterator → r.blk.toNat < (r.secsz.toNat + 15) / 16
  /-- 10_state.md R31: TWK = dbl^BLK(T0(SEC)) under the current K2. -/
  tweak : r.HasIterator → r.twk = dbl^[r.blk.toNat] (aesE r.tweakKey (r.sec.setWidth 128))
  /-- 10_state.md R32: every byte PEND[i] with i ≥ PLEN is 0. -/
  pendTail : ∀ i : Fin 31, r.plen.toNat ≤ i.val → r.pend[i] = 0
  /-- 10_state.md R34: in Independent mode SBYTES ≤ SECSZ. -/
  budget : r.ctx = .cipher → r.mode = .independent → r.sbytes.toNat ≤ r.secsz.toNat
  /-- 10_state.md R34: in Continuous mode SBYTES stays 0. -/
  noBudget : r.mode = .continuous → r.sbytes = 0
  /-- 10_state.md R23: when KS1 = 0, bytes 16..31 of K1 are 0. -/
  dataKeyTop : r.ks1 = .k128 → r.k1.toNat < 2 ^ 128
  /-- 10_state.md R23: K2 is laid out like K1. -/
  tweakKeyTop : r.ks2 = .k128 → r.k2.toNat < 2 ^ 128

/-- The layout of a data unit in Independent mode (42_xts.md R165): every block so far lies in sector START_SEC, and SBYTES
counts the blocks emitted and the bytes pending, the last 16 to 31 of them held back (10_state.md R33). -/
def Regs.IndependentLayout (r : Regs) : Prop :=
  r.ctx = .cipher → r.mode = .independent →
    r.sec = r.startSec ∧ 16 * r.blk.toNat + r.plen.toNat = r.sbytes.toNat ∧
      (r.sbytes.toNat ≤ 31 → r.blk = 0) ∧ (31 < r.sbytes.toNat → 16 ≤ r.plen.toNat)

/-! ## The block transform over a stream -/

/-- The first `n` blocks of a stream, the i-th transformed with the tweak the iterator holds after `i` advances from `r`:
C = E_K1(B ⊕ T) ⊕ T, or P = D_K1(C ⊕ T) ⊕ T (42_xts.md R160, R161). -/
def transformedBlocks (r : Regs) (n : Nat) (stream : List Byte) : List Byte :=
  (List.range n).flatMap fun i =>
    let t := (iterAdvance^[i] r).twk
    let b := blockOfBytes ((stream.drop (16 * i)).take 16)
    blockBytes (if r.dir = .enc then aesE r.dataKey (b ^^^ t) ^^^ t else aesD r.dataKey (b ^^^ t) ^^^ t)

/-- The registers an existing cipher has at its configured start (42_xts.md R180, R182): nothing pending, and the iterator
at (START_SEC, 0) with TWK = T0(START_SEC). -/
def Regs.atStart (r : Regs) : Regs :=
  { r with
    pend := Vector.replicate 31 0, plen := 0, sbytes := 0, sec := r.startSec, blk := 0,
    twk := aesE r.tweakKey (r.startSec.setWidth 128) }

/-- The bytes XTS_PROC and XTS_FIN take as accepted: the total with the pending bytes fits 31 bits (42_xts.md R178) and, in
Independent mode, the sector (42_xts.md R174). -/
def Regs.accepts (r : Regs) (n : Nat) : Prop :=
  r.ctx = .cipher ∧ r.plen.toNat + n ≤ 2 ^ 31 - 1 ∧ (r.mode = .independent → r.sbytes.toNat + n ≤ r.secsz.toNat)

/-! ## Runs of commands -/

/-- Execute commands in order, stopping at a fault or a refusal (20_memory.md R61). -/
def runCommands : List Instr → State → Host.Outcome State Fault Refusal
  | [], s => .next s
  | i :: is, s =>
    match exec i s with
    | .next s' => runCommands is s'
    | .fault f => .fault f
    | .refused q => .refused q

/-- A data command of opcode number `opc` succeeds from `s`, emits `out` and leaves `s'` (30_encoding.md R75, R80). -/
def Emits (i : Instr) (opc : Nat) (s : State) (out : List Byte) (s' : State) : Prop :=
  ∃ r, exec i s = .next s' ∧ s' = s.answered opc r (BitVec.ofNat 32 out.length :: dataField out)

/-- XTS_PROC commands with these CAPs and DATA fields all succeed in order from `s`, emit `out` together and leave `s'`. -/
def ProcRun : List (U32 × List Byte) → State → List Byte → State → Prop
  | [], s, out, s' => out = [] ∧ s' = s
  | (cap, data) :: rest, s, out, s' =>
    ∃ out1 s1 out2, Emits (.xtsProc cap data) 0x21 s out1 s1 ∧ ProcRun rest s1 out2 s' ∧ out = out1 ++ out2

/-- All the input of such a run, in stream order. -/
def inputOf (chunks : List (U32 × List Byte)) : List Byte := chunks.flatMap (·.2)

end Sys2Proof.Machine
end

