-- ==== Sys2Proof/Certificates/Slice0/Obligations.lean ====
section
/-! DEFINITION. The statements for the provers. Each docstring names the rule of spec/ the statement formalises. -/

open Sys2Proof Sys2Proof.Machine

/-! ## Encoding -/

/-- Decoding the words of a well-formed command gives the command back and consumes exactly its words, whatever follows
(30_encoding.md R78, R79). -/
def Obligations.DecodeOfEncode : Prop :=
  ∀ (i : Instr) (rest : List Word), i.wellFormed = true → decode (encode i ++ rest) = .command i (encode i).length

/-- A decoded command is well-formed, and its encoding is the words it was decoded from but for pad bytes
(20_memory.md R57; 30_encoding.md R71 to R79). -/
def Obligations.EncodeOfDecode : Prop :=
  ∀ (ws : List Word) (i : Instr) (n : Nat), decode ws = .command i n →
    i.wellFormed = true ∧ n ≤ ws.length ∧ (encode i).length = n ∧
      (bytesOfWords (encode i)).take (meaningfulBytes i) = (bytesOfWords ws).take (meaningfulBytes i)

/-- What a stream begins with depends only on the words of that command, or on the one word of an illegal header
(30_encoding.md R79, R84). -/
def Obligations.DecodeReadsOnlyItsOwnWords : Prop :=
  (∀ (ws ws' : List Word) (i : Instr) (n : Nat), decode ws = .command i n → ws'.take n = ws.take n →
    decode ws' = .command i n) ∧
  (∀ (h : Word) (p p' : List Word) (c : Cause) (o : Byte), decode (h :: p) = .illegal c o →
    decode (h :: p') = .illegal c o)

/-- The five field types, byte by byte and bit by bit (30_encoding.md R73): as read from a payload, and as written. -/
def Obligations.FieldsAreLittleEndian : Prop :=
  (∀ (p : List Word) (k : Nat),
    (k + 1 ≤ p.length → p[k]? = some (u32At p k)) ∧
    (k + 2 ≤ p.length → (u64At p k).toNat = (p.getD k 0).toNat + 2 ^ 32 * (p.getD (k + 1) 0).toNat) ∧
    (k + 4 ≤ p.length → ∀ j < 4, ∀ i < 4,
      (blkAt p k).extractLsb' (8 * (4 * j + i)) 8 = (p.getD (k + j) 0).extractLsb' (8 * i) 8) ∧
    (k + 4 ≤ p.length → keyAt .k128 p k = .k128 (blkAt p k)) ∧
    (k + 8 ≤ p.length → ∃ key : BitVec 256, keyAt .k256 p k = .k256 key ∧ ∀ j < 8, ∀ i < 4,
      key.extractLsb' (8 * (4 * j + i)) 8 = (p.getD (k + j) 0).extractLsb' (8 * i) 8) ∧
    (∀ l : Nat, k + (l + 3) / 4 ≤ p.length → (dataAt l p k).length = l ∧ ∀ j < l,
      (dataAt l p k).getD j 0 = (p.getD (k + j / 4) 0).extractLsb' (8 * (j % 4)) 8)) ∧
  (∀ v : U32, u32Field v = [v]) ∧
  (∀ v : U64, u64Field v = [v.extractLsb' 0 32, v.extractLsb' 32 32]) ∧
  (∀ x : Block, (blkField x).length = 4 ∧ ∀ j < 4, (blkField x).getD j 0 = x.extractLsb' (32 * j) 32) ∧
  (∀ k : BitVec 128, (keyField (.k128 k)).length = 4 ∧
    ∀ j < 4, (keyField (.k128 k)).getD j 0 = k.extractLsb' (32 * j) 32) ∧
  (∀ k : BitVec 256, (keyField (.k256 k)).length = 8 ∧
    ∀ j < 8, (keyField (.k256 k)).getD j 0 = k.extractLsb' (32 * j) 32) ∧
  (∀ bs : List Byte, (dataField bs).length = (bs.length + 3) / 4 ∧ ∀ j < bs.length,
    ((dataField bs).getD (j / 4) 0).extractLsb' (8 * (j % 4)) 8 = bs.getD j 0)

/-- Pad bytes of a DATA field are ignored, and pad bytes of an OUT field are 0 (20_memory.md R57). -/
def Obligations.PadBytesIgnoredAndZero : Prop :=
  (∀ (h l cap : Word) (p q : List Word), h = 0x21 ∨ h = 0x22 → p.length = q.length →
    (bytesOfWords p).take l.toNat = (bytesOfWords q).take l.toNat →
    decode (h :: l :: cap :: p) = decode (h :: l :: cap :: q)) ∧
  (∀ out : List Byte, ∃ pad < 4, bytesOfWords (dataField out) = out ++ List.replicate pad 0)

/-- A header decodes to an opcode exactly when it matches that opcode's row of spec/opcode_table.json. -/
def Obligations.HeaderDecodesByOpcodeTable : Prop :=
  ∀ (h : Word) (op : Opcode),
    decodeHeader h = .ok op ↔ ∃ row ∈ opcodeRows, row.1 = op ∧ h &&& row.2.2 = row.2.1

/-- How many words each command has after its header, and that a command whose words have not all arrived waits: it is
consumed and executed by no step (30_encoding.md R79). -/
def Obligations.CommandLengths : Prop :=
  (∀ (h : Word) (n : Nat) (p : List Word),
    (h, n) ∈ [((0x01 : Word), 4), (0x02, 8), (0x03, 2), (0x04, 6), (0x10, 10), (0x110, 14), (0x11, 6), (0x12, 0), (0x13, 0),
      (0x14, 0), (0x15, 0), (0x16, 4), (0x17, 6), (0x23, 2), (0x123, 2), (0x24, 2), (0x124, 2), (0x25, 0), (0x26, 0),
      (0x30, 0)] →
    (p.length < n → decode (h :: p) = .incomplete) ∧ (n ≤ p.length → ∃ i, decode (h :: p) = .command i (1 + n))) ∧
  (∀ (dirMode ks1 ks2 : Nat) (p : List Word), dirMode < 4 → ks1 < 2 → ks2 < 2 →
    let h : Word := BitVec.ofNat 32 (0x20 + 256 * (dirMode + 4 * ks1 + 8 * ks2))
    let n := 12 + 4 * ks1 + 4 * ks2
    (p.length < n → decode (h :: p) = .incomplete) ∧ (n ≤ p.length → ∃ i, decode (h :: p) = .command i (1 + n))) ∧
  (∀ (h l cap : Word) (d : List Word), h = 0x21 ∨ h = 0x22 →
    decode [h] = .incomplete ∧ decode [h, l] = .incomplete ∧
    (d.length < (l.toNat + 3) / 4 → decode (h :: l :: cap :: d) = .incomplete) ∧
    ((l.toNat + 3) / 4 ≤ d.length → ∃ i, decode (h :: l :: cap :: d) = .command i (3 + (l.toNat + 3) / 4))) ∧
  (∀ s : State, s.rst = false → decode s.cmdIn = .incomplete → step s = .next s)

/-- An illegal header: a reserved OPC, then a nonzero RSV, then an undefined FLG bit. One word is consumed, one error word is
written, and nothing else changes (30_encoding.md R82, R83, R84). -/
def Obligations.IllegalHeadersRejected : Prop :=
  ∀ (s : State) (h : Word) (rest : List Word) (err detail : Nat),
    s.rst = false → s.respFull = false → s.cmdIn = h :: rest →
    let opc := h.toNat % 256
    let flg := h.toNat / 256 % 256
    let definedFlags := if opc = 0x10 ∨ opc = 0x23 ∨ opc = 0x24 then 1 else if opc = 0x20 then 15 else 0
    firstReported
      [(decide (opc = 0 ∨ (0x05 ≤ opc ∧ opc ≤ 0x0F) ∨ (0x18 ≤ opc ∧ opc ≤ 0x1F) ∨ (0x27 ≤ opc ∧ opc ≤ 0x2F) ∨ 0x31 ≤ opc),
          4, 0x01),
        (decide (h.toNat / 65536 ≠ 0), 4, 0x02),
        (decide (definedFlags < flg), 4, 0x03)] = some (err, detail) →
    step s = .next (State.failed { s with cmdIn := rest } opc err detail)

/-- A few words written out from 30_encoding.md R89 and 95_test_vectors.md decode to the commands they stand for. -/
def Obligations.SampleWordsDecode : Prop :=
  decode [0x00000021, 0x00000001, 0xFFFFFFFF, 0x00000041] = .command (.xtsProc 0xFFFFFFFF [0x41]) 4 ∧
  decode [0x00000123, 0x80000000, 0x00000000] = .command (.xtsPupd .w64 0x80000000) 3 ∧
  decode [0x00000014] = .command .twkAdv 1 ∧
  decode [0x00000001, 0, 0, 0, 0x80000000] = .command (.gfDbl (0x80 <<< 120)) 5

/-! ## Steps -/

/-- When the stream begins with a whole command and the inputs are at rest, the step consumes the command's words and is
that command's execution (30_encoding.md R79; 20_memory.md R59). -/
def Obligations.StepRunsDecodedCommand : Prop :=
  ∀ (s : State) (i : Instr) (n : Nat), s.rst = false → s.respFull = false → decode s.cmdIn = .command i n →
    step s = exec i { s with cmdIn := s.cmdIn.drop n }

/-- Every state has a next state: no header and no payload value is left without a rule (30_encoding.md R85). -/
def Obligations.StepAlwaysAnswersNext : Prop :=
  (∀ s : State, ∃ s', step s = .next s') ∧ (∀ (i : Instr) (s : State), ∃ s', exec i s = .next s')

/-- Hardware reset (70_reset_and_hazards.md R230): CTX is NONE, every other register is zero, undelivered responses are
discarded, and so is any partly received command: the stream ends where a command ends, and the words the host writes next
are framed as they are by themselves, their first word read as a header. -/
def Obligations.HardwareResetClears : Prop :=
  ∀ s : State, s.rst = true → ∃ s', step s = .next s' ∧
    s'.regs.ctx = .none ∧ s'.regs.ks1 = .k128 ∧ s'.regs.k1 = 0 ∧ s'.regs.ks2 = .k128 ∧ s'.regs.k2 = 0 ∧
    s'.regs.dir = .enc ∧ s'.regs.mode = .continuous ∧ s'.regs.secsz = 0 ∧ s'.regs.startSec = 0 ∧ s'.regs.sec = 0 ∧
    s'.regs.blk = 0 ∧ s'.regs.twk = 0 ∧ s'.regs.pend = Vector.replicate 31 0 ∧ s'.regs.plen = 0 ∧ s'.regs.sbytes = 0 ∧
    s'.respOut = [] ∧ Framed s'.cmdIn ∧ (decode s.cmdIn = .incomplete → s'.cmdIn = []) ∧
    ∀ more : List Word, Framed (s'.cmdIn ++ more) ↔ Framed more

/-- The model's choice (log entry 5, from 70_reset_and_hazards.md section 1): a hardware reset discards from the command stream
exactly the command that has not all arrived, and keeps the whole commands and illegal headers before it. -/
def Obligations.HardwareResetKeepsWholeCommands : Prop :=
  ∀ s : State, s.rst = true → ∃ s' tail, step s = .next s' ∧
    s.cmdIn = s'.cmdIn ++ tail ∧ Framed s'.cmdIn ∧ decode tail = .incomplete

/-- The model's choice (log entry 6, from 70_reset_and_hazards.md section 3): while the host has no room for a response the
step holds the command, whatever the stream holds. -/
def Obligations.BackPressureHoldsTheCommand : Prop :=
  ∀ s : State, s.rst = false → s.respFull = true → step s = .next s

/-- The status word (30_encoding.md R72): one response per command, ERR and DETAIL a pair of the tables, H[7:0] echoed, the
top byte 0, and no result fields where ERR ≠ 0. -/
def Obligations.OneResponsePerCommand : Prop :=
  ∀ s s' : State, s.rst = false → s.respFull = false → decode s.cmdIn ≠ .incomplete → step s = .next s' →
    ∃ (h : Word) (p : List Word) (n : Nat) (status : Word) (fields : List Word),
      s.cmdIn = h :: p ∧ 1 ≤ n ∧ n ≤ s.cmdIn.length ∧ s'.cmdIn = s.cmdIn.drop n ∧
      s'.respOut = s.respOut ++ status :: fields ∧
      ((status.extractLsb' 0 8).toNat, (status.extractLsb' 8 8).toNat) ∈ statusPairs ∧
      status.extractLsb' 16 8 = h.extractLsb' 0 8 ∧ status.extractLsb' 24 8 = 0 ∧
      (status.extractLsb' 0 8 ≠ 0 → fields = [])

/-- A command that raises an error changes no register and answers its status word alone (60_exceptions.md R203;
30_encoding.md R77). -/
def Obligations.FailedCommandsChangeNothing : Prop :=
  (∀ (i : Instr) (s s' : State) (status : Word) (fields : List Word), exec i s = .next s' →
    s'.respOut = s.respOut ++ status :: fields → status.extractLsb' 0 8 ≠ 0 →
    fields = [] ∧ s' = { s with respOut := s.respOut ++ [status] }) ∧
  (∀ (s s' : State) (c : Cause) (o : Byte), s.rst = false → s.respFull = false → decode s.cmdIn = .illegal c o →
    step s = .next s' → s'.regs = s.regs ∧ ∃ status, s'.respOut = s.respOut ++ [status] ∧ status.extractLsb' 0 8 ≠ 0)

/-- A command touches nothing of the host interface but the end of the response stream (10_state.md R21, R37;
20_memory.md R61). -/
def Obligations.CommandsOnlyAppendResponses : Prop :=
  ∀ (i : Instr) (s s' : State), exec i s = .next s' →
    s'.cmdIn = s.cmdIn ∧ s'.rst = s.rst ∧ s'.respFull = s.respFull ∧
      ∃ status fields, s'.respOut = s.respOut ++ status :: fields

/-- Which error is reported when several apply (60_exceptions.md R204), the context checks of 41_tweak.md R127 and
42_xts.md R151 among them: each command reports the first check of its list that applies, and succeeds where none does. -/
def Obligations.ErrorPrecedence : Prop :=
  ∀ s : State,
    let r := s.regs
    let disposed := (decide (r.ctx = .disposed), 3, 0x30)
    let noObject := (decide (r.ctx = .none), 3, 0x31)
    let owned := (decide (r.ctx = .cipher), 3, 0x35)
    let noCipher := (decide (r.ctx = .none ∨ r.ctx = .iter), 3, 0x31)
    let ovf32 := fun n : Nat => (decide (2 ^ 31 - 1 < r.plen.toNat + n), 3, 0x33)
    let ovf64 := fun n : Nat => (decide (2 ^ 63 - 1 < r.plen.toNat + n), 3, 0x34)
    let budget := fun n : Nat => (decide (r.mode = .independent ∧ r.secsz.toNat < r.sbytes.toNat + n), 3, 0x32)
    let secszLt16 := fun z : U64 => (decide (z.toNat < 16), 1, 0x10)
    let startBlk := fun z b : U64 => (decide ((z.toNat + 15) / 16 ≤ b.toNat), 2, 0x20)
    (∀ (h : Word) (rest : List Word) (err detail : Nat), s.rst = false → s.respFull = false → s.cmdIn = h :: rest →
      firstReported
        [(decide (h.toNat % 256 ∉ [0x01, 0x02, 0x03, 0x04, 0x10, 0x11, 0x12, 0x13, 0x14, 0x15, 0x16, 0x17, 0x20, 0x21, 0x22,
            0x23, 0x24, 0x25, 0x26, 0x30]), 4, 0x01),
          (decide (h.toNat / 65536 ≠ 0), 4, 0x02),
          (decide (h.toNat / 256 % 256 >
            (match h.toNat % 256 with | 0x10 => 1 | 0x20 => 15 | 0x23 => 1 | 0x24 => 1 | _ => 0)), 4, 0x03)]
        = some (err, detail) →
      step s = .next (State.failed { s with cmdIn := rest } (h.toNat % 256) err detail)) ∧
    (∀ k2 z sec b, ReportsFirst (.twkInit k2 z sec b) s 0x10 [secszLt16 z, startBlk z b]) ∧
    (∀ z sec b, ReportsFirst (.twkReset z sec b) s 0x11 [disposed, noObject, owned, secszLt16 z, startBlk z b]) ∧
    ReportsFirst .twkCur s 0x12 [disposed, noObject] ∧
    ReportsFirst .twkPos s 0x13 [disposed, noObject] ∧
    ReportsFirst .twkAdv s 0x14 [disposed, noObject, owned] ∧
    ReportsFirst .twkTake s 0x15 [disposed, noObject, owned] ∧
    (∀ sec j, ReportsFirst (.twkComp sec j) s 0x16 [disposed, noObject]) ∧
    (∀ a n, ReportsFirst (.twkComp128 a n) s 0x17 [disposed, noObject]) ∧
    (∀ dir mode k1 k2 z sec, ReportsFirst (.xtsInit dir mode k1 k2 z sec) s 0x20 [secszLt16 z]) ∧
    (∀ (cap : U32) (data : List Byte),
      let n := data.length
      let t := r.plen.toNat + n
      ReportsFirst (.xtsProc cap data) s 0x21
        [disposed, noCipher, ovf32 n, budget n, (decide (cap.toNat < (t / 16 - 1) * 16), 1, 0x11)] ∧
      ReportsFirst (.xtsFin cap data) s 0x22
        [disposed, noCipher, ovf32 n, budget n, (decide (0 < t ∧ t < 16), 1, 0x12),
          (decide (r.mode = .continuous ∧ t % 16 ≠ 0 ∧
            (r.blk.toNat + (t / 16 - 1)) % ((r.secsz.toNat + 15) / 16) = (r.secsz.toNat + 15) / 16 - 1), 1, 0x13),
          (decide (cap.toNat < t), 1, 0x11)]) ∧
    (∀ n : U64,
      ReportsFirst (.xtsPupd .w32 n) s 0x23 [disposed, noCipher, ovf32 n.toNat, budget n.toNat] ∧
      ReportsFirst (.xtsPupd .w64 n) s 0x23 [disposed, noCipher, ovf64 n.toNat, budget n.toNat] ∧
      ReportsFirst (.xtsPfin .w32 n) s 0x24 [disposed, noCipher, ovf32 n.toNat, budget n.toNat] ∧
      ReportsFirst (.xtsPfin .w64 n) s 0x24 [disposed, noCipher, ovf64 n.toNat, budget n.toNat]) ∧
    ReportsFirst .xtsReset s 0x25 [disposed, noCipher]

/-! ## GF(2^128) -/

/-- Multiply-by-α as bytes and as an integer (40_gf128.md R100). -/
def Obligations.GfDoubleBytes : Prop :=
  ∀ x : Block,
    (∀ i < 15, (dbl x).extractLsb' (8 * (i + 1)) 8 =
      (x.extractLsb' (8 * (i + 1)) 8 <<< 1) ||| (x.extractLsb' (8 * i) 8 >>> 7)) ∧
    (dbl x).extractLsb' 0 8 =
      (x.extractLsb' 0 8 <<< 1) ^^^ (if (x.extractLsb' 120 8).getLsbD 7 then 0x87 else 0) ∧
    (dbl x).toNat = (2 * x.toNat % 2 ^ 128) ^^^ (if x.getLsbD 127 then 0x87 else 0)

/-- The general product is the XOR over the set bits k of B of dbl^k(A), and 1 is the identity (40_gf128.md R102). -/
def Obligations.GfProductIsSumOfDoublings : Prop :=
  ∀ a b : Block,
    gmul a b = (List.range 128).foldl (fun acc k => if b.getLsbD k then acc ^^^ dbl^[k] a else acc) 0 ∧ gmul a 1 = a

/-- Fast and iterative paths agree: multiplying by α^n is n doublings (40_gf128.md R108). -/
def Obligations.GfPowerIsIteratedDoubling : Prop :=
  ∀ (x : Block) (n : U64), gmul x (alphaPow n) = dbl^[n.toNat] x

/-- The fast tweak advance is n doublings, and the choice of POW_THRESHOLD cannot change it (40_gf128.md R106). -/
def Obligations.PowThresholdChangesNoValue : Prop :=
  ∀ (threshold : Nat) (x : Block) (n : U64),
    mulpow x n = gmul x (alphaPow n) ∧ mulpow x n = dbl^[n.toNat] x ∧ mulpowAt threshold x n = mulpow x n

/-- Laws of the field (40_gf128.md section 3): the product is commutative and associative and distributes over XOR, 1 is the
identity, 0 absorbs, and multiplying by α is doubling. -/
def Obligations.GfFieldLaws : Prop :=
  ∀ a b c : Block,
    gmul a b = gmul b a ∧ gmul (gmul a b) c = gmul a (gmul b c) ∧ gmul a (b ^^^ c) = gmul a b ^^^ gmul a c ∧
      gmul a 1 = a ∧ gmul a 0 = 0 ∧ gmul a 2 = dbl a

/-- The GF commands answer in every state, read and write no register, and return the element by its doublings
(40_gf128.md section 2). -/
def Obligations.GfCommandsAnswer : Prop :=
  ∀ (s : State) (a b : Block) (n : U64),
    exec (.gfDbl a) s = .next (s.answered 0x01 s.regs (blkField (dbl a))) ∧
    exec (.gfMul a b) s = .next (s.answered 0x02 s.regs
      (blkField ((List.range 128).foldl (fun acc k => if b.getLsbD k then acc ^^^ dbl^[k] a else acc) 0))) ∧
    exec (.gfPow n) s = .next (s.answered 0x03 s.regs (blkField (dbl^[n.toNat] 1))) ∧
    exec (.gfMulpow a n) s = .next (s.answered 0x04 s.regs (blkField (dbl^[n.toNat] a)))

/-! ## The tweak unit -/

/-- A 64-bit sector index as AES input bytes, and a raw 128-bit index with the same value gives the same tweak
(20_memory.md R54). -/
def Obligations.SectorIndexBytes : Prop :=
  (∀ (sec : U64) (i : Nat), i < 16 →
    (le16 sec).extractLsb' (8 * i) 8 = if i < 8 then (sec >>> (8 * i)).setWidth 8 &&& 0xFF else 0) ∧
  (∀ (k : AesKey) (sec : U64), tweakStart k sec = aesE k (le16 sec) ∧ tweakStart128 k (le16 sec) = tweakStart k sec) ∧
  (∀ (k : AesKey) (raw : Block), tweakStart128 k raw = aesE k raw) ∧
  (∀ (k : AesKey) (raw : Block) (sec : U64), raw.toNat = sec.toNat → tweakStart128 k raw = tweakStart k sec)

/-- TWK_COMP and TWK_COMP128 answer in ITER and CIPHER with dbl^J of the sector-start tweak, for every J, and change nothing
(41_tweak.md section 2). -/
def Obligations.StatelessTweakCommandsAnswer : Prop :=
  ∀ (s : State) (sec j : U64) (a : Block), s.regs.HasIterator →
    exec (.twkComp sec j) s = .next (s.answered 0x16 s.regs
      (blkField (dbl^[j.toNat] (aesE s.regs.tweakKey (sec.setWidth 128))))) ∧
    exec (.twkComp128 a j) s = .next (s.answered 0x17 s.regs (blkField (dbl^[j.toNat] (aesE s.regs.tweakKey a))))

/-- TWK_CUR and TWK_POS answer in ITER and CIPHER and change nothing (41_tweak.md section 2). -/
def Obligations.TweakReadsAnswer : Prop :=
  ∀ s : State, s.regs.HasIterator →
    exec .twkCur s = .next (s.answered 0x12 s.regs (blkField s.regs.twk)) ∧
    exec .twkPos s = .next (s.answered 0x13 s.regs (u64Field s.regs.sec ++ u64Field s.regs.blk))

/-- TWK_ADV and TWK_TAKE answer in ITER: they write TWK and BLK, and SEC on a rollover, and TWK_TAKE returns the tweak before
the advance (41_tweak.md section 2). -/
def Obligations.TweakAdvanceAnswers : Prop :=
  ∀ s : State, s.regs.ctx = .iter →
    let r := s.regs
    let r' : Regs :=
      if r.blk.toNat + 1 = (r.secsz.toNat + 15) / 16 then
        { r with blk := 0, sec := r.sec + 1, twk := aesE r.tweakKey ((r.sec + 1).setWidth 128) }
      else { r with blk := r.blk + 1, twk := dbl r.twk }
    exec .twkAdv s = .next (s.answered 0x14 r' []) ∧ exec .twkTake s = .next (s.answered 0x15 r' (blkField r.twk))

/-- The sector rolls over on the advance that follows the block with index BPS − 1 and on no other (41_tweak.md R124). -/
def Obligations.RolloverTieBreak : Prop :=
  ∀ r : Regs, r.blk.toNat < (r.secsz.toNat + 15) / 16 →
    ((iterAdvance r).sec ≠ r.sec ↔ r.blk.toNat = (r.secsz.toNat + 15) / 16 - 1) ∧
    (r.blk.toNat = (r.secsz.toNat + 15) / 16 - 1 → (iterAdvance r).sec = r.sec + 1 ∧ (iterAdvance r).blk = 0) ∧
    (r.blk.toNat ≠ (r.secsz.toNat + 15) / 16 - 1 → (iterAdvance r).blk.toNat = r.blk.toNat + 1)

/-- k advances reach the position fixed by b + k and BPS, with its tweak, and write nothing else (41_tweak.md R135). -/
def Obligations.IteratorWalk : Prop :=
  ∀ (r : Regs) (k : Nat), r.Inv → r.HasIterator →
    let bps := (r.secsz.toNat + 15) / 16
    let sec' := r.sec + BitVec.ofNat 64 ((r.blk.toNat + k) / bps)
    let blk' := (r.blk.toNat + k) % bps
    iterAdvance^[k] r =
      { r with sec := sec', blk := BitVec.ofNat 64 blk', twk := dbl^[blk'] (aesE r.tweakKey (sec'.setWidth 128)) } ∧
    (iterAdvance^[k] r).sec.toNat = (r.sec.toNat + (r.blk.toNat + k) / bps) % 2 ^ 64 ∧
    (iterAdvance^[k] r).blk.toNat = (r.blk.toNat + k) % bps

/-- TWK_CUR and TWK_COMP at the iterator's coordinates return the same 16 bytes (41_tweak.md R134). -/
def Obligations.StatefulEqualsStateless : Prop :=
  ∀ s : State, s.regs.Inv → s.regs.HasIterator → ∃ t : Block,
    exec .twkCur s = .next (s.answered 0x12 s.regs (blkField t)) ∧
    exec (.twkComp s.regs.sec s.regs.blk) s = .next (s.answered 0x16 s.regs (blkField t))

/-- TWK_INIT builds an iterator in every context, zeroizing whatever was there (41_tweak.md section 2). -/
def Obligations.TwkInitBuildsIterator : Prop :=
  ∀ (s : State) (k2 : AesKey) (secsz sec blk : U64), 16 ≤ secsz.toNat → blk.toNat < (secsz.toNat + 15) / 16 →
    exec (.twkInit k2 secsz sec blk) s = .next (s.answered 0x10
      { Regs.zero with
        ctx := .iter, k2 := keySlot k2, ks2 := keySize k2, secsz := secsz, sec := sec, blk := blk,
        twk := dbl^[blk.toNat] (aesE k2 (sec.setWidth 128)) } [])

/-- TWK_RESET reloads the coordinates of a standalone iterator and keeps K2 (41_tweak.md section 2). -/
def Obligations.TwkResetReloadsIterator : Prop :=
  ∀ (s : State) (secsz sec blk : U64), s.regs.ctx = .iter → 16 ≤ secsz.toNat → blk.toNat < (secsz.toNat + 15) / 16 →
    exec (.twkReset secsz sec blk) s = .next (s.answered 0x11
      { s.regs with
        secsz := secsz, sec := sec, blk := blk, twk := dbl^[blk.toNat] (aesE s.regs.tweakKey (sec.setWidth 128)) } [])

/-! ## The XTS datapath -/

/-- XTS_INIT builds a cipher in every context, zeroizing whatever was there, at block 0 of its start sector
(42_xts.md section 1). -/
def Obligations.XtsInitBuildsCipher : Prop :=
  ∀ (s : State) (dir : Dir) (mode : Mode) (k1 k2 : AesKey) (secsz sec : U64), 16 ≤ secsz.toNat →
    exec (.xtsInit dir mode k1 k2 secsz sec) s = .next (s.answered 0x20
      { Regs.zero with
        ctx := .cipher, k1 := keySlot k1, ks1 := keySize k1, k2 := keySlot k2, ks2 := keySize k2, dir := dir, mode := mode,
        secsz := secsz, startSec := sec, sec := sec, twk := aesE k2 (sec.setWidth 128) } [])

/-- XTS_PROC emits the transform of all but the last 16 to 31 bytes of pending ‖ input, keeps the rest, counts its input in
Independent mode, and advances the iterator once per emitted block (42_xts.md section 2). -/
def Obligations.XtsProcTransformsBlocks : Prop :=
  ∀ (s : State) (cap : U32) (data : List Byte), s.regs.accepts data.length →
    let r := s.regs
    let stream := r.pend.toList.take r.plen.toNat ++ data
    let t := r.plen.toNat + data.length
    let n := t / 16 - 1
    16 * n ≤ cap.toNat →
    ∃ pend : Vector Byte 31, pend.toList = stream.drop (16 * n) ++ List.replicate (31 - (t - 16 * n)) 0 ∧
      exec (.xtsProc cap data) s = .next (s.answered 0x21
        { iterAdvance^[n] r with
          pend := pend, plen := BitVec.ofNat 5 (t - 16 * n),
          sbytes := if r.mode = .independent then r.sbytes + BitVec.ofNat 64 data.length else r.sbytes }
        (BitVec.ofNat 32 (16 * n) :: dataField (transformedBlocks r n stream)))

/-- XTS_FIN on a whole number of blocks (nothing at all among them) transforms every block and returns the cipher to its
start (42_xts.md section 3). -/
def Obligations.XtsFinTransformsAlignedUnit : Prop :=
  ∀ (s : State) (cap : U32) (data : List Byte), s.regs.accepts data.length →
    let r := s.regs
    let stream := r.pend.toList.take r.plen.toNat ++ data
    let t := r.plen.toNat + data.length
    t % 16 = 0 → t ≤ cap.toNat →
    exec (.xtsFin cap data) s = .next (s.answered 0x22 r.atStart
      (BitVec.ofNat 32 t :: dataField (transformedBlocks r (t / 16) stream)))

/-- XTS_FIN on an unaligned unit, encrypting: the leading blocks, then C_{n−1} and C_n by ciphertext stealing
(42_xts.md section 3). -/
def Obligations.XtsFinStealsEncrypting : Prop :=
  ∀ (s : State) (cap : U32) (data : List Byte), s.regs.accepts data.length → s.regs.dir = .enc →
    let r := s.regs
    let stream := r.pend.toList.take r.plen.toNat ++ data
    let t := r.plen.toNat + data.length
    let m := t % 16
    let f := t / 16 - 1
    let bps := (r.secsz.toNat + 15) / 16
    m ≠ 0 → 16 ≤ t → t ≤ cap.toNat → (r.mode = .continuous → (r.blk.toNat + f) % bps ≠ bps - 1) →
    let tn1 := (iterAdvance^[f] r).twk
    let tn := (iterAdvance^[f + 1] r).twk
    let pn1 := blockOfBytes ((stream.drop (16 * f)).take 16)
    let pn := stream.drop (16 * f + 16)
    let cc := blockBytes (aesE r.dataKey (pn1 ^^^ tn1) ^^^ tn1)
    let stolen := blockOfBytes (pn ++ cc.drop m)
    exec (.xtsFin cap data) s = .next (s.answered 0x22 r.atStart
      (BitVec.ofNat 32 t :: dataField
        (transformedBlocks r f stream ++ blockBytes (aesE r.dataKey (stolen ^^^ tn) ^^^ tn) ++ cc.take m)))

/-- XTS_FIN on an unaligned unit, decrypting: the leading blocks, then P_{n−1} and P_n, with T_n used first
(42_xts.md section 3). -/
def Obligations.XtsFinStealsDecrypting : Prop :=
  ∀ (s : State) (cap : U32) (data : List Byte), s.regs.accepts data.length → s.regs.dir = .dec →
    let r := s.regs
    let stream := r.pend.toList.take r.plen.toNat ++ data
    let t := r.plen.toNat + data.length
    let m := t % 16
    let f := t / 16 - 1
    let bps := (r.secsz.toNat + 15) / 16
    m ≠ 0 → 16 ≤ t → t ≤ cap.toNat → (r.mode = .continuous → (r.blk.toNat + f) % bps ≠ bps - 1) →
    let tn1 := (iterAdvance^[f] r).twk
    let tn := (iterAdvance^[f + 1] r).twk
    let cn1 := blockOfBytes ((stream.drop (16 * f)).take 16)
    let cn := stream.drop (16 * f + 16)
    let pp := blockBytes (aesD r.dataKey (cn1 ^^^ tn) ^^^ tn)
    let rebuilt := blockOfBytes (cn ++ pp.drop m)
    exec (.xtsFin cap data) s = .next (s.answered 0x22 r.atStart
      (BitVec.ofNat 32 t :: dataField
        (transformedBlocks r f stream ++ blockBytes (aesD r.dataKey (rebuilt ^^^ tn1) ^^^ tn1) ++ pp.take m)))

/-- The emission count, exact over the integers (42_xts.md R162). -/
def Obligations.EmissionCount : Prop :=
  ∀ t : Nat, (nproc t : Int) = max 0 ((t : Int) / 16 - 1) * 16 ∧ (t ≤ 31 → nproc t = 0) ∧
    (32 ≤ t → t - nproc t = 16 + t % 16 ∧ 16 ≤ t - nproc t ∧ t - nproc t ≤ 31)

/-- XTS_PUPD and XTS_PFIN answer the predicted size and change nothing (42_xts.md section 4). -/
def Obligations.PredictCommandsAnswer : Prop :=
  ∀ (s : State) (w : PredictWidth) (n : U64), s.regs.ctx = .cipher →
    let t := s.regs.plen.toNat + n.toNat
    t ≤ (match w with | .w32 => 2 ^ 31 - 1 | .w64 => 2 ^ 63 - 1) →
    (s.regs.mode = .independent → s.regs.sbytes.toNat + n.toNat ≤ s.regs.secsz.toNat) →
    exec (.xtsPupd w n) s = .next (s.answered 0x23 s.regs (u64Field (BitVec.ofNat 64 ((t / 16 - 1) * 16)))) ∧
    exec (.xtsPfin w n) s = .next (s.answered 0x24 s.regs (u64Field (BitVec.ofNat 64 t)))

/-- Predict consistency (42_xts.md R186): a prediction equals what the command emits, the 64-bit variants agree with the
32-bit ones up to 2^31 − 1 and may succeed beyond, and where the prediction fails the command fails the same way. -/
def Obligations.PredictConsistency : Prop :=
  (∀ (s s' : State) (cap : U32) (data out : List Byte) (size : U64), data.length < 2 ^ 32 →
    let n := BitVec.ofNat 64 data.length
    (exec (.xtsPupd .w32 n) s = .next (s.answered 0x23 s.regs (u64Field size)) →
      Emits (.xtsProc cap data) 0x21 s out s' → out.length = size.toNat) ∧
    (exec (.xtsPfin .w32 n) s = .next (s.answered 0x24 s.regs (u64Field size)) →
      Emits (.xtsFin cap data) 0x22 s out s' → out.length = size.toNat)) ∧
  (∀ (s : State) (n : U64), s.regs.plen.toNat + n.toNat ≤ 2 ^ 31 - 1 →
    exec (.xtsPupd .w64 n) s = exec (.xtsPupd .w32 n) s ∧ exec (.xtsPfin .w64 n) s = exec (.xtsPfin .w32 n) s) ∧
  (∀ (s : State) (n : U64), s.regs.ctx = .cipher → 2 ^ 31 - 1 < s.regs.plen.toNat + n.toNat →
    exec (.xtsPupd .w32 n) s = .next (s.failed 0x23 3 0x33) ∧ exec (.xtsPfin .w32 n) s = .next (s.failed 0x24 3 0x33) ∧
    (s.regs.plen.toNat + n.toNat ≤ 2 ^ 63 - 1 →
      (s.regs.mode = .independent → s.regs.sbytes.toNat + n.toNat ≤ s.regs.secsz.toNat) → ∃ f g,
      exec (.xtsPupd .w64 n) s = .next (s.answered 0x23 s.regs f) ∧
      exec (.xtsPfin .w64 n) s = .next (s.answered 0x24 s.regs g))) ∧
  (∀ (s : State) (cap : U32) (data : List Byte) (err detail : Nat), data.length < 2 ^ 32 →
    let n := BitVec.ofNat 64 data.length
    (exec (.xtsPupd .w32 n) s = .next (s.failed 0x23 err detail) →
      exec (.xtsProc cap data) s = .next (s.failed 0x21 err detail)) ∧
    (exec (.xtsPfin .w32 n) s = .next (s.failed 0x24 err detail) →
      exec (.xtsFin cap data) s = .next (s.failed 0x22 err detail)))

/-- The CTS sector-boundary check, in both directions (42_xts.md R172): a unit is rejected exactly when it is unaligned, in
Continuous mode, and P_{n−1} would take the last block position of a sector; and then P_n would belong to a new sector. -/
def Obligations.CtsStraddleRejected : Prop :=
  ∀ (s : State) (cap : U32) (data : List Byte), s.regs.Inv → s.regs.accepts data.length →
    let r := s.regs
    let t := r.plen.toNat + data.length
    let f := t / 16 - 1
    let bps := (r.secsz.toNat + 15) / 16
    16 ≤ t →
    (exec (.xtsFin cap data) s = .next (s.failed 0x22 1 0x13) ↔
      r.mode = .continuous ∧ t % 16 ≠ 0 ∧ (r.blk.toNat + f) % bps = bps - 1) ∧
    ((r.blk.toNat + f) % bps = bps - 1 → (iterAdvance^[f + 1] r).sec ≠ (iterAdvance^[f] r).sec)

/-- The Independent-mode budget (42_xts.md R174): it is checked on input bytes, exactly, by all four commands, committed by an
accepted XTS_PROC, overtaken by the auto-reset of XTS_FIN, and never committed by a prediction. -/
def Obligations.IndependentBudget : Prop :=
  ∀ (s : State) (cap : U32) (data : List Byte), s.regs.ctx = .cipher →
    let n := data.length
    let excess := fun k : Nat => s.regs.mode = .independent ∧ s.regs.secsz.toNat < s.regs.sbytes.toNat + k
    (s.regs.plen.toNat + n ≤ 2 ^ 31 - 1 →
      (exec (.xtsProc cap data) s = .next (s.failed 0x21 3 0x32) ↔ excess n) ∧
      (exec (.xtsFin cap data) s = .next (s.failed 0x22 3 0x32) ↔ excess n)) ∧
    (∀ (w : PredictWidth) (k : U64),
      s.regs.plen.toNat + k.toNat ≤ (match w with | .w32 => 2 ^ 31 - 1 | .w64 => 2 ^ 63 - 1) →
      (exec (.xtsPupd w k) s = .next (s.failed 0x23 3 0x32) ↔ excess k.toNat) ∧
      (exec (.xtsPfin w k) s = .next (s.failed 0x24 3 0x32) ↔ excess k.toNat)) ∧
    (∀ out s', Emits (.xtsProc cap data) 0x21 s out s' →
      s'.regs.sbytes.toNat = if s.regs.mode = .independent then s.regs.sbytes.toNat + n else s.regs.sbytes.toNat) ∧
    (∀ out s', Emits (.xtsFin cap data) 0x22 s out s' → s'.regs.sbytes = 0) ∧
    (∀ (w : PredictWidth) (k : U64) (s' : State),
      exec (.xtsPupd w k) s = .next s' ∨ exec (.xtsPfin w k) s = .next s' → s'.regs = s.regs)

/-- XTS_RESET returns an existing cipher to its configured start, discarding what is pending, and answers OK
(42_xts.md section 5). -/
def Obligations.XtsResetReturnsToStart : Prop :=
  ∀ s : State, s.regs.ctx = .cipher → exec .xtsReset s = .next (s.answered 0x25 s.regs.atStart [])

/-- The auto-reset (42_xts.md R182): a successful XTS_FIN leaves the registers XTS_RESET would, keys, DIR, MODE and
configuration kept, so that the next final size of no input is 0. -/
def Obligations.FinalizeAutoResets : Prop :=
  ∀ (s s' : State) (cap : U32) (data out : List Byte), Emits (.xtsFin cap data) 0x22 s out s' →
    s'.regs = s.regs.atStart ∧ exec .xtsReset s = .next (s.answered 0x25 s'.regs []) ∧
      exec (.xtsPfin .w32 0) s' = .next (s'.answered 0x24 s'.regs (u64Field 0))

/-- XTS_DISP succeeds in every context: it zeroizes an existing object, changes nothing where there is none, and afterwards
every command that needs an object fails with DISPOSED (42_xts.md section 5). -/
def Obligations.DisposeZeroizes : Prop :=
  ∀ s : State,
    (s.regs.HasIterator → exec .xtsDisp s = .next (s.answered 0x26 { Regs.zero with ctx := .disposed } [])) ∧
    (s.regs.ctx = .none ∨ s.regs.ctx = .disposed → exec .xtsDisp s = .next (s.answered 0x26 s.regs [])) ∧
    (s.regs.ctx = .disposed → ∀ i : Instr,
      i.opcode ∈ [Opcode.twkReset, .twkCur, .twkPos, .twkAdv, .twkTake, .twkComp, .twkComp128, .xtsProc, .xtsFin, .xtsPupd,
        .xtsPfin, .xtsReset] →
      exec i s = .next (s.failed i.opcode.code.toNat 3 0x30))

/-- INFO answers the block size 16 in every context (42_xts.md section 5). -/
def Obligations.InfoAnswersBlockSize : Prop :=
  ∀ s : State, exec .info s = .next { s with respOut := s.respOut ++ [0x00300000, 0x00000010] }

/-- Only TWK_INIT, XTS_INIT and XTS_DISP write CTX, the key slots, DIR, MODE or START_SEC, and besides them only TWK_RESET
changes SECSZ (10_state.md section 2). -/
def Obligations.OnlyConstructorsWriteConfiguration : Prop :=
  ∀ (i : Instr) (s s' : State), exec i s = .next s' → i.opcode ∉ [Opcode.twkInit, .xtsInit, .xtsDisp] →
    s'.regs.ctx = s.regs.ctx ∧ s'.regs.ks1 = s.regs.ks1 ∧ s'.regs.k1 = s.regs.k1 ∧ s'.regs.ks2 = s.regs.ks2 ∧
    s'.regs.k2 = s.regs.k2 ∧ s'.regs.dir = s.regs.dir ∧ s'.regs.mode = s.regs.mode ∧
    s'.regs.startSec = s.regs.startSec ∧ (i.opcode ≠ .twkReset → s'.regs.secsz = s.regs.secsz)

/-! ## Streams -/

/-- Length preservation over one data unit (42_xts.md R185). -/
def Obligations.LengthPreservation : Prop :=
  ∀ (s s1 s2 : State) (chunks : List (U32 × List Byte)) (cap : U32) (last out1 out2 : List Byte),
    s.regs.plen = 0 → ProcRun chunks s out1 s1 → Emits (.xtsFin cap last) 0x22 s1 out2 s2 →
    out1.length + out2.length = (inputOf chunks ++ last).length

/-- The stream ordering guarantee (20_memory.md R62): what a run of XTS_PROC emits is a prefix of what one XTS_FIN on the whole
input emits, and after the closing XTS_FIN it is all of it. -/
def Obligations.StreamOrdering : Prop :=
  ∀ (s s1 s3 : State) (chunks : List (U32 × List Byte)) (cap3 : U32) (last out1 out3 : List Byte),
    ProcRun chunks s out1 s1 → Emits (.xtsFin cap3 (inputOf chunks ++ last)) 0x22 s out3 s3 →
    out1 <+: out3 ∧
    ∀ (cap : U32) (out2 : List Byte) (s2 : State), Emits (.xtsFin cap last) 0x22 s1 out2 s2 →
      out1 ++ out2 = out3 ∧ s2.regs = s3.regs

/-- Round trip (42_xts.md R184): a decrypting cipher of the same keys, SECSZ, SEC and MODE that is given what an encrypting one
emitted emits the plaintext, in whatever fragments it is given, and one XTS_FIN is enough where the length allows it. -/
def Obligations.RoundTrip : Prop :=
  ∀ (s0 d0 s d s1 s2 : State) (mode : Mode) (k1 k2 : AesKey) (secsz sec : U64) (chunks : List (U32 × List Byte)) (cap : U32)
    (last out1 out2 : List Byte),
    16 ≤ secsz.toNat →
    exec (.xtsInit .enc mode k1 k2 secsz sec) s0 = .next s → exec (.xtsInit .dec mode k1 k2 secsz sec) d0 = .next d →
    ProcRun chunks s out1 s1 → Emits (.xtsFin cap last) 0x22 s1 out2 s2 →
    let plain := inputOf chunks ++ last
    let cipher := out1 ++ out2
    (∀ (pieces : List (U32 × List Byte)) (cap' : U32) (tail o1 o2 : List Byte) (d1 d2 : State),
      ProcRun pieces d o1 d1 → Emits (.xtsFin cap' tail) 0x22 d1 o2 d2 → inputOf pieces ++ tail = cipher →
      o1 ++ o2 = plain) ∧
    (plain.length ≤ 2 ^ 31 - 1 → ∀ cap' : U32, plain.length ≤ cap'.toNat →
      ∃ d', Emits (.xtsFin cap' cipher) 0x22 d plain d')

/-- The pending-buffer invariant (10_state.md R33), for the N bytes a run of XTS_PROC accepts from a reset point. -/
def Obligations.PendingHeldBack : Prop :=
  ∀ (s s1 : State) (chunks : List (U32 × List Byte)) (out : List Byte),
    s.regs.ctx = .cipher → s.regs.plen = 0 → ProcRun chunks s out s1 →
    let n := (inputOf chunks).length
    let p := s1.regs.plen.toNat
    (n ≤ 31 → p = n) ∧ (31 < n → 16 ≤ p ∧ p ≤ 31 ∧ p % 16 = n % 16) ∧ out.length + p = n ∧
      s1.regs.pend.toList.take p = (inputOf chunks).drop (n - p) ∧ (out ≠ [] → out.length < n)

/-- Commands execute in stream order (20_memory.md R61): as many steps as commands run a stream of their encodings as the
commands' sequential composition, each response after the earlier ones. -/
def Obligations.EncodedCommandsRunInOrder : Prop :=
  ∀ (commands : List Instr) (s : State) (rest : List Word), (∀ i ∈ commands, i.wellFormed = true) →
    s.rst = false → s.respFull = false →
    Host.Core.run Sys2Proof.core commands.length ({ s with cmdIn := commands.flatMap encode ++ rest } : State) =
      runCommands commands { s with cmdIn := rest }

/-! ## Invariants -/

/-- The registers after hardware reset satisfy the spec's invariants. -/
def Obligations.RegsInvAtReset : Prop := State.reset.regs.Inv ∧ State.reset.regs.IndependentLayout

/-- Every step keeps the spec's register invariants (10_state.md R31, R38 among them). -/
def Obligations.StepKeepsRegsInv : Prop :=
  ∀ s s' : State, s.regs.Inv → step s = .next s' → s'.regs.Inv

/-- Every step keeps the layout of a data unit in Independent mode: its blocks all lie in sector START_SEC
(42_xts.md section 2). -/
def Obligations.StepKeepsIndependentLayout : Prop :=
  ∀ s s' : State, s.regs.Inv → s.regs.IndependentLayout → step s = .next s' → s'.regs.IndependentLayout
end

