-- ==== Sys2Proof/Laws/Operands.lean ====
section
/-! SUPPORT. The little-endian integers of byte and word strings and their inverses (00_scope.md R10; 30_encoding.md R73). -/

namespace Sys2Proof.Machine

@[simp] theorem leBytes_length (n v : Nat) : (leBytes n v).length = n := by
  induction n generalizing v with
  | zero => rfl
  | succ n ih => simp [leBytes, ih]

@[simp] theorem leWords_length (n v : Nat) : (leWords n v).length = n := by
  induction n generalizing v with
  | zero => rfl
  | succ n ih => simp [leWords, ih]

theorem leNat_lt (bs : List Byte) : leNat bs < 256 ^ bs.length := by
  induction bs with
  | nil => simp [leNat]
  | cons b bs ih =>
    have hb := b.isLt
    simp only [leNat, List.length_cons, Nat.pow_succ]
    omega

theorem leNatOfWords_lt (ws : List Word) : leNatOfWords ws < (2 ^ 32) ^ ws.length := by
  induction ws with
  | nil => simp [leNatOfWords]
  | cons w ws ih =>
    have hw := w.isLt
    have e := pow_succ (2 ^ 32) ws.length
    simp only [leNatOfWords, List.length_cons]
    omega

theorem leNat_leBytes (n v : Nat) : leNat (leBytes n v) = v % 256 ^ n := by
  induction n generalizing v with
  | zero => simp [leBytes, leNat, Nat.mod_one]
  | succ n ih =>
    simp only [leBytes, leNat, ih, BitVec.toNat_ofNat]
    rw [pow_succ 256 n, Nat.mul_comm (256 ^ n), Nat.mod_mul]

theorem leNatOfWords_leWords (n v : Nat) : leNatOfWords (leWords n v) = v % (2 ^ 32) ^ n := by
  induction n generalizing v with
  | zero => simp [leWords, leNatOfWords, Nat.mod_one]
  | succ n ih =>
    simp only [leWords, leNatOfWords, ih, BitVec.toNat_ofNat]
    rw [pow_succ (2 ^ 32) n, Nat.mul_comm ((2 ^ 32) ^ n), Nat.mod_mul]

theorem leBytes_leNat (bs : List Byte) : leBytes bs.length (leNat bs) = bs := by
  induction bs with
  | nil => rfl
  | cons b bs ih =>
    have hb := b.isLt
    have hd : (b.toNat + 256 * leNat bs) / 256 = leNat bs := by omega
    simp only [List.length_cons, leBytes, leNat, hd, ih, List.cons.injEq, and_true]
    apply BitVec.eq_of_toNat_eq
    simp only [BitVec.toNat_ofNat]
    omega

theorem leWords_leNatOfWords (ws : List Word) : leWords ws.length (leNatOfWords ws) = ws := by
  induction ws with
  | nil => rfl
  | cons w ws ih =>
    have hw := w.isLt
    have hd : (w.toNat + 2 ^ 32 * leNatOfWords ws) / 2 ^ 32 = leNatOfWords ws := by omega
    simp only [List.length_cons, leWords, leNatOfWords, hd, ih, List.cons.injEq, and_true]
    apply BitVec.eq_of_toNat_eq
    simp only [BitVec.toNat_ofNat]
    omega

/-! ## Blocks as 16 bytes -/

@[simp] theorem blockBytes_length (x : Block) : (blockBytes x).length = 16 := leBytes_length 16 _

@[simp] theorem blockOfBytes_blockBytes (x : Block) : blockOfBytes (blockBytes x) = x := by
  apply BitVec.eq_of_toNat_eq
  have hx := x.isLt
  simp only [blockOfBytes, blockBytes, leNat_leBytes, BitVec.toNat_ofNat]
  omega

theorem blockBytes_blockOfBytes (bs : List Byte) (h : bs.length = 16) : blockBytes (blockOfBytes bs) = bs := by
  have hl := leNat_lt bs
  rw [h] at hl
  have ht : (BitVec.ofNat 128 (leNat bs)).toNat = leNat bs := by
    simp only [BitVec.toNat_ofNat]; exact Nat.mod_eq_of_lt (by simpa using hl)
  rw [blockBytes, blockOfBytes, ht, ← h, leBytes_leNat]

/-! ## Word strings as byte strings -/

@[simp] theorem wordBytes_length (w : Word) : (wordBytes w).length = 4 := leBytes_length 4 _

theorem bytesOfWords_cons (w : Word) (ws : List Word) : bytesOfWords (w :: ws) = wordBytes w ++ bytesOfWords ws := rfl

theorem bytesOfWords_append (us vs : List Word) : bytesOfWords (us ++ vs) = bytesOfWords us ++ bytesOfWords vs := by
  simp [bytesOfWords]

@[simp] theorem bytesOfWords_length (ws : List Word) : (bytesOfWords ws).length = 4 * ws.length := by
  induction ws with
  | nil => rfl
  | cons w ws ih => rw [bytesOfWords_cons, List.length_append, ih, wordBytes_length, List.length_cons]; omega

theorem wordBytes_ofNat (b0 b1 b2 b3 : Byte) :
    wordBytes (BitVec.ofNat 32 (leNat [b0, b1, b2, b3])) = [b0, b1, b2, b3] := by
  have hl := leNat_lt [b0, b1, b2, b3]
  have ht : (BitVec.ofNat 32 (leNat [b0, b1, b2, b3])).toNat = leNat [b0, b1, b2, b3] := by
    simp only [BitVec.toNat_ofNat]; exact Nat.mod_eq_of_lt (by simpa using hl)
  rw [wordBytes, ht]
  exact leBytes_leNat [b0, b1, b2, b3]

/-- What packing does, once: ⌈L/4⌉ words, whose bytes are the string's and then zeros (20_memory.md R56, R57). -/
theorem wordsOfBytes_spec (bs : List Byte) :
    (wordsOfBytes bs).length = dataWords bs.length ∧
      bytesOfWords (wordsOfBytes bs) = bs ++ List.replicate (4 * dataWords bs.length - bs.length) 0 := by
  fun_induction wordsOfBytes bs with
  | case1 => exact ⟨rfl, rfl⟩
  | case2 b0 b1 b2 b3 rest ih =>
    have e : dataWords (b0 :: b1 :: b2 :: b3 :: rest).length = dataWords rest.length + 1 := by
      simp only [dataWords, List.length_cons]; omega
    refine ⟨by rw [List.length_cons, ih.1, e], ?_⟩
    have e2 : 4 * (dataWords rest.length + 1) - (b0 :: b1 :: b2 :: b3 :: rest).length =
        4 * dataWords rest.length - rest.length := by
      simp only [List.length_cons]; omega
    rw [bytesOfWords_cons, ih.2, e, e2, wordBytes_ofNat]
    rfl
  | case3 bs h1 h2 =>
    match bs, h1, h2 with
    | [b0], _, _ => exact ⟨by simp [dataWords], by simpa [bytesOfWords, leNat, dataWords] using wordBytes_ofNat b0 0 0 0⟩
    | [b0, b1], _, _ => exact ⟨by simp [dataWords], by simpa [bytesOfWords, leNat, dataWords] using wordBytes_ofNat b0 b1 0 0⟩
    | [b0, b1, b2], _, _ => exact ⟨by simp [dataWords], by simpa [bytesOfWords, leNat, dataWords] using wordBytes_ofNat b0 b1 b2 0⟩
    | [], h, _ => exact absurd rfl h
    | b0 :: b1 :: b2 :: b3 :: rest, _, h => exact absurd rfl (h b0 b1 b2 b3 rest)

@[simp] theorem dataField_length (bs : List Byte) : (dataField bs).length = dataWords bs.length := (wordsOfBytes_spec bs).1

/-- A byte string survives packing and unpacking. -/
theorem bytesOfWords_dataField_take (bs : List Byte) : (bytesOfWords (dataField bs)).take bs.length = bs := by
  rw [dataField, (wordsOfBytes_spec bs).2]; simp

/-! ## Key slots -/

/-- The key a KEY field loads is the key AES is given (30_encoding.md R74; 10_state.md R25). -/
@[simp] theorem slotKey_keySlot (k : AesKey) : slotKey (keySize k) (keySlot k) = k := by
  cases k with
  | k128 k =>
    simp only [keySize, keySlot, slotKey, AesKey.k128.injEq]
    apply BitVec.eq_of_toNat_eq
    have := k.isLt
    simp only [BitVec.toNat_setWidth]
    omega
  | k256 k => rfl

end Sys2Proof.Machine
end

