-- ==== Sys2Proof/Laws/State.lean ====
section
/-! SUPPORT. One lemma per field per update of the state and of the registers, so that no later proof unfolds a record update. -/

namespace Sys2Proof.Machine

/-! ### `State.emit` -/

@[simp] theorem State.emit_regs (s : State) (ws : List Word) : (s.emit ws).regs = s.regs := rfl
@[simp] theorem State.emit_cmdIn (s : State) (ws : List Word) : (s.emit ws).cmdIn = s.cmdIn := rfl
@[simp] theorem State.emit_respOut (s : State) (ws : List Word) : (s.emit ws).respOut = s.respOut ++ ws := rfl
@[simp] theorem State.emit_rst (s : State) (ws : List Word) : (s.emit ws).rst = s.rst := rfl
@[simp] theorem State.emit_respFull (s : State) (ws : List Word) : (s.emit ws).respFull = s.respFull := rfl

/-! ### `State.respond` -/

@[simp] theorem State.respond_regs (s : State) (op : Opcode) (fields : List Word) : (s.respond op fields).regs = s.regs := rfl
@[simp] theorem State.respond_cmdIn (s : State) (op : Opcode) (fields : List Word) : (s.respond op fields).cmdIn = s.cmdIn := rfl
@[simp] theorem State.respond_respOut (s : State) (op : Opcode) (fields : List Word) : (s.respond op fields).respOut = s.respOut ++ okStatus op.code :: fields := rfl
@[simp] theorem State.respond_rst (s : State) (op : Opcode) (fields : List Word) : (s.respond op fields).rst = s.rst := rfl
@[simp] theorem State.respond_respFull (s : State) (op : Opcode) (fields : List Word) : (s.respond op fields).respFull = s.respFull := rfl

/-! ### `State.raise` -/

@[simp] theorem State.raise_regs (s : State) (c : Cause) (opc : Byte) : (s.raise c opc).regs = s.regs := rfl
@[simp] theorem State.raise_cmdIn (s : State) (c : Cause) (opc : Byte) : (s.raise c opc).cmdIn = s.cmdIn := rfl
@[simp] theorem State.raise_respOut (s : State) (c : Cause) (opc : Byte) : (s.raise c opc).respOut = s.respOut ++ [errStatus c opc] := rfl
@[simp] theorem State.raise_rst (s : State) (c : Cause) (opc : Byte) : (s.raise c opc).rst = s.rst := rfl
@[simp] theorem State.raise_respFull (s : State) (c : Cause) (opc : Byte) : (s.raise c opc).respFull = s.respFull := rfl

/-! ### `State.consume` -/

@[simp] theorem State.consume_regs (s : State) (n : Nat) : (s.consume n).regs = s.regs := rfl
@[simp] theorem State.consume_cmdIn (s : State) (n : Nat) : (s.consume n).cmdIn = s.cmdIn.drop n := rfl
@[simp] theorem State.consume_respOut (s : State) (n : Nat) : (s.consume n).respOut = s.respOut := rfl
@[simp] theorem State.consume_rst (s : State) (n : Nat) : (s.consume n).rst = s.rst := rfl
@[simp] theorem State.consume_respFull (s : State) (n : Nat) : (s.consume n).respFull = s.respFull := rfl

/-! ### `State.rejectHeader` -/

@[simp] theorem State.rejectHeader_regs (s : State) (c : Cause) (opc : Byte) : (s.rejectHeader c opc).regs = s.regs := rfl
@[simp] theorem State.rejectHeader_cmdIn (s : State) (c : Cause) (opc : Byte) : (s.rejectHeader c opc).cmdIn = s.cmdIn.drop 1 := rfl
@[simp] theorem State.rejectHeader_respOut (s : State) (c : Cause) (opc : Byte) : (s.rejectHeader c opc).respOut = s.respOut ++ [errStatus c opc] := rfl
@[simp] theorem State.rejectHeader_rst (s : State) (c : Cause) (opc : Byte) : (s.rejectHeader c opc).rst = s.rst := rfl
@[simp] theorem State.rejectHeader_respFull (s : State) (c : Cause) (opc : Byte) : (s.rejectHeader c opc).respFull = s.respFull := rfl

/-! ### `State.hardwareReset` -/

@[simp] theorem State.hardwareReset_regs (s : State) : (s.hardwareReset).regs = Regs.zero := rfl
@[simp] theorem State.hardwareReset_cmdIn (s : State) : (s.hardwareReset).cmdIn = resetStream s.cmdIn := rfl
@[simp] theorem State.hardwareReset_respOut (s : State) : (s.hardwareReset).respOut = [] := rfl
@[simp] theorem State.hardwareReset_rst (s : State) : (s.hardwareReset).rst = false := rfl
@[simp] theorem State.hardwareReset_respFull (s : State) : (s.hardwareReset).respFull = s.respFull := rfl

/-! ### `State.hostWrite` -/

@[simp] theorem State.hostWrite_regs (s : State) (ws : List Word) : (s.hostWrite ws).regs = s.regs := rfl
@[simp] theorem State.hostWrite_cmdIn (s : State) (ws : List Word) : (s.hostWrite ws).cmdIn = s.cmdIn ++ ws := rfl
@[simp] theorem State.hostWrite_respOut (s : State) (ws : List Word) : (s.hostWrite ws).respOut = s.respOut := rfl
@[simp] theorem State.hostWrite_rst (s : State) (ws : List Word) : (s.hostWrite ws).rst = s.rst := rfl
@[simp] theorem State.hostWrite_respFull (s : State) (ws : List Word) : (s.hostWrite ws).respFull = s.respFull := rfl

/-! ### `State.hostCollect` -/

@[simp] theorem State.hostCollect_regs (s : State) (n : Nat) : (s.hostCollect n).regs = s.regs := rfl
@[simp] theorem State.hostCollect_cmdIn (s : State) (n : Nat) : (s.hostCollect n).cmdIn = s.cmdIn := rfl
@[simp] theorem State.hostCollect_respOut (s : State) (n : Nat) : (s.hostCollect n).respOut = s.respOut.drop n := rfl
@[simp] theorem State.hostCollect_rst (s : State) (n : Nat) : (s.hostCollect n).rst = s.rst := rfl
@[simp] theorem State.hostCollect_respFull (s : State) (n : Nat) : (s.hostCollect n).respFull = s.respFull := rfl

/-! ### `State.hostReset` -/

@[simp] theorem State.hostReset_regs (s : State) : (s.hostReset).regs = s.regs := rfl
@[simp] theorem State.hostReset_cmdIn (s : State) : (s.hostReset).cmdIn = s.cmdIn := rfl
@[simp] theorem State.hostReset_respOut (s : State) : (s.hostReset).respOut = s.respOut := rfl
@[simp] theorem State.hostReset_rst (s : State) : (s.hostReset).rst = true := rfl
@[simp] theorem State.hostReset_respFull (s : State) : (s.hostReset).respFull = s.respFull := rfl

/-! ### `State.hostRoom` -/

@[simp] theorem State.hostRoom_regs (s : State) (room : Bool) : (s.hostRoom room).regs = s.regs := rfl
@[simp] theorem State.hostRoom_cmdIn (s : State) (room : Bool) : (s.hostRoom room).cmdIn = s.cmdIn := rfl
@[simp] theorem State.hostRoom_respOut (s : State) (room : Bool) : (s.hostRoom room).respOut = s.respOut := rfl
@[simp] theorem State.hostRoom_rst (s : State) (room : Bool) : (s.hostRoom room).rst = s.rst := rfl
@[simp] theorem State.hostRoom_respFull (s : State) (room : Bool) : (s.hostRoom room).respFull = !room := rfl

/-! ### `iterLoad` -/

@[simp] theorem iterLoad_ctx (secsz sec blk : U64) (r : Regs) : (iterLoad secsz sec blk r).ctx = r.ctx := rfl
@[simp] theorem iterLoad_ks1 (secsz sec blk : U64) (r : Regs) : (iterLoad secsz sec blk r).ks1 = r.ks1 := rfl
@[simp] theorem iterLoad_k1 (secsz sec blk : U64) (r : Regs) : (iterLoad secsz sec blk r).k1 = r.k1 := rfl
@[simp] theorem iterLoad_ks2 (secsz sec blk : U64) (r : Regs) : (iterLoad secsz sec blk r).ks2 = r.ks2 := rfl
@[simp] theorem iterLoad_k2 (secsz sec blk : U64) (r : Regs) : (iterLoad secsz sec blk r).k2 = r.k2 := rfl
@[simp] theorem iterLoad_dir (secsz sec blk : U64) (r : Regs) : (iterLoad secsz sec blk r).dir = r.dir := rfl
@[simp] theorem iterLoad_mode (secsz sec blk : U64) (r : Regs) : (iterLoad secsz sec blk r).mode = r.mode := rfl
@[simp] theorem iterLoad_secsz (secsz sec blk : U64) (r : Regs) : (iterLoad secsz sec blk r).secsz = secsz := rfl
@[simp] theorem iterLoad_startSec (secsz sec blk : U64) (r : Regs) : (iterLoad secsz sec blk r).startSec = r.startSec := rfl
@[simp] theorem iterLoad_sec (secsz sec blk : U64) (r : Regs) : (iterLoad secsz sec blk r).sec = sec := rfl
@[simp] theorem iterLoad_blk (secsz sec blk : U64) (r : Regs) : (iterLoad secsz sec blk r).blk = blk := rfl
@[simp] theorem iterLoad_twk (secsz sec blk : U64) (r : Regs) : (iterLoad secsz sec blk r).twk = tweakAt r.tweakKey sec blk := by
  rw [iterLoad]
@[simp] theorem iterLoad_pend (secsz sec blk : U64) (r : Regs) : (iterLoad secsz sec blk r).pend = r.pend := rfl
@[simp] theorem iterLoad_plen (secsz sec blk : U64) (r : Regs) : (iterLoad secsz sec blk r).plen = r.plen := rfl
@[simp] theorem iterLoad_sbytes (secsz sec blk : U64) (r : Regs) : (iterLoad secsz sec blk r).sbytes = r.sbytes := rfl

/-! ### `setPending` -/

@[simp] theorem setPending_ctx (bs : List Byte) (r : Regs) : (setPending bs r).ctx = r.ctx := rfl
@[simp] theorem setPending_ks1 (bs : List Byte) (r : Regs) : (setPending bs r).ks1 = r.ks1 := rfl
@[simp] theorem setPending_k1 (bs : List Byte) (r : Regs) : (setPending bs r).k1 = r.k1 := rfl
@[simp] theorem setPending_ks2 (bs : List Byte) (r : Regs) : (setPending bs r).ks2 = r.ks2 := rfl
@[simp] theorem setPending_k2 (bs : List Byte) (r : Regs) : (setPending bs r).k2 = r.k2 := rfl
@[simp] theorem setPending_dir (bs : List Byte) (r : Regs) : (setPending bs r).dir = r.dir := rfl
@[simp] theorem setPending_mode (bs : List Byte) (r : Regs) : (setPending bs r).mode = r.mode := rfl
@[simp] theorem setPending_secsz (bs : List Byte) (r : Regs) : (setPending bs r).secsz = r.secsz := rfl
@[simp] theorem setPending_startSec (bs : List Byte) (r : Regs) : (setPending bs r).startSec = r.startSec := rfl
@[simp] theorem setPending_sec (bs : List Byte) (r : Regs) : (setPending bs r).sec = r.sec := rfl
@[simp] theorem setPending_blk (bs : List Byte) (r : Regs) : (setPending bs r).blk = r.blk := rfl
@[simp] theorem setPending_twk (bs : List Byte) (r : Regs) : (setPending bs r).twk = r.twk := rfl
@[simp] theorem setPending_pend (bs : List Byte) (r : Regs) : (setPending bs r).pend = padTo31 bs := rfl
@[simp] theorem setPending_plen (bs : List Byte) (r : Regs) : (setPending bs r).plen = BitVec.ofNat 5 bs.length := rfl
@[simp] theorem setPending_sbytes (bs : List Byte) (r : Regs) : (setPending bs r).sbytes = r.sbytes := rfl

/-! ### `autoReset` -/

@[simp] theorem autoReset_ctx (r : Regs) : (autoReset r).ctx = r.ctx := rfl
@[simp] theorem autoReset_ks1 (r : Regs) : (autoReset r).ks1 = r.ks1 := rfl
@[simp] theorem autoReset_k1 (r : Regs) : (autoReset r).k1 = r.k1 := rfl
@[simp] theorem autoReset_ks2 (r : Regs) : (autoReset r).ks2 = r.ks2 := rfl
@[simp] theorem autoReset_k2 (r : Regs) : (autoReset r).k2 = r.k2 := rfl
@[simp] theorem autoReset_dir (r : Regs) : (autoReset r).dir = r.dir := rfl
@[simp] theorem autoReset_mode (r : Regs) : (autoReset r).mode = r.mode := rfl
@[simp] theorem autoReset_secsz (r : Regs) : (autoReset r).secsz = r.secsz := rfl
@[simp] theorem autoReset_startSec (r : Regs) : (autoReset r).startSec = r.startSec := rfl
@[simp] theorem autoReset_sec (r : Regs) : (autoReset r).sec = r.startSec := rfl
@[simp] theorem autoReset_blk (r : Regs) : (autoReset r).blk = 0 := rfl
@[simp] theorem autoReset_twk (r : Regs) : (autoReset r).twk = tweakAt r.tweakKey r.startSec 0 := by
  rw [autoReset, iterLoad_twk]
  exact congrArg (tweakAt · r.startSec 0) rfl
@[simp] theorem autoReset_pend (r : Regs) : (autoReset r).pend = padTo31 [] := rfl
@[simp] theorem autoReset_plen (r : Regs) : (autoReset r).plen = 0 := rfl
@[simp] theorem autoReset_sbytes (r : Regs) : (autoReset r).sbytes = 0 := rfl

/-! ### `budgetCommit` -/

@[simp] theorem budgetCommit_ctx (n : Nat) (r : Regs) : (budgetCommit n r).ctx = r.ctx := by
  unfold budgetCommit; split <;> rfl
@[simp] theorem budgetCommit_ks1 (n : Nat) (r : Regs) : (budgetCommit n r).ks1 = r.ks1 := by
  unfold budgetCommit; split <;> rfl
@[simp] theorem budgetCommit_k1 (n : Nat) (r : Regs) : (budgetCommit n r).k1 = r.k1 := by
  unfold budgetCommit; split <;> rfl
@[simp] theorem budgetCommit_ks2 (n : Nat) (r : Regs) : (budgetCommit n r).ks2 = r.ks2 := by
  unfold budgetCommit; split <;> rfl
@[simp] theorem budgetCommit_k2 (n : Nat) (r : Regs) : (budgetCommit n r).k2 = r.k2 := by
  unfold budgetCommit; split <;> rfl
@[simp] theorem budgetCommit_dir (n : Nat) (r : Regs) : (budgetCommit n r).dir = r.dir := by
  unfold budgetCommit; split <;> rfl
@[simp] theorem budgetCommit_mode (n : Nat) (r : Regs) : (budgetCommit n r).mode = r.mode := by
  unfold budgetCommit; split <;> rfl
@[simp] theorem budgetCommit_secsz (n : Nat) (r : Regs) : (budgetCommit n r).secsz = r.secsz := by
  unfold budgetCommit; split <;> rfl
@[simp] theorem budgetCommit_startSec (n : Nat) (r : Regs) : (budgetCommit n r).startSec = r.startSec := by
  unfold budgetCommit; split <;> rfl
@[simp] theorem budgetCommit_sec (n : Nat) (r : Regs) : (budgetCommit n r).sec = r.sec := by
  unfold budgetCommit; split <;> rfl
@[simp] theorem budgetCommit_blk (n : Nat) (r : Regs) : (budgetCommit n r).blk = r.blk := by
  unfold budgetCommit; split <;> rfl
@[simp] theorem budgetCommit_twk (n : Nat) (r : Regs) : (budgetCommit n r).twk = r.twk := by
  unfold budgetCommit; split <;> rfl
@[simp] theorem budgetCommit_pend (n : Nat) (r : Regs) : (budgetCommit n r).pend = r.pend := by
  unfold budgetCommit; split <;> rfl
@[simp] theorem budgetCommit_plen (n : Nat) (r : Regs) : (budgetCommit n r).plen = r.plen := by
  unfold budgetCommit; split <;> rfl

/-! ### `iterAdvance` -/

@[simp] theorem iterAdvance_ctx (r : Regs) : (iterAdvance r).ctx = r.ctx := by
  unfold iterAdvance; split <;> rfl
@[simp] theorem iterAdvance_ks1 (r : Regs) : (iterAdvance r).ks1 = r.ks1 := by
  unfold iterAdvance; split <;> rfl
@[simp] theorem iterAdvance_k1 (r : Regs) : (iterAdvance r).k1 = r.k1 := by
  unfold iterAdvance; split <;> rfl
@[simp] theorem iterAdvance_ks2 (r : Regs) : (iterAdvance r).ks2 = r.ks2 := by
  unfold iterAdvance; split <;> rfl
@[simp] theorem iterAdvance_k2 (r : Regs) : (iterAdvance r).k2 = r.k2 := by
  unfold iterAdvance; split <;> rfl
@[simp] theorem iterAdvance_dir (r : Regs) : (iterAdvance r).dir = r.dir := by
  unfold iterAdvance; split <;> rfl
@[simp] theorem iterAdvance_mode (r : Regs) : (iterAdvance r).mode = r.mode := by
  unfold iterAdvance; split <;> rfl
@[simp] theorem iterAdvance_secsz (r : Regs) : (iterAdvance r).secsz = r.secsz := by
  unfold iterAdvance; split <;> rfl
@[simp] theorem iterAdvance_startSec (r : Regs) : (iterAdvance r).startSec = r.startSec := by
  unfold iterAdvance; split <;> rfl
@[simp] theorem iterAdvance_pend (r : Regs) : (iterAdvance r).pend = r.pend := by
  unfold iterAdvance; split <;> rfl
@[simp] theorem iterAdvance_plen (r : Regs) : (iterAdvance r).plen = r.plen := by
  unfold iterAdvance; split <;> rfl
@[simp] theorem iterAdvance_sbytes (r : Regs) : (iterAdvance r).sbytes = r.sbytes := by
  unfold iterAdvance; split <;> rfl

@[simp] theorem iterAdvance_tweakKey (r : Regs) : (iterAdvance r).tweakKey = r.tweakKey := by
  simp [Regs.tweakKey]

@[simp] theorem iterAdvance_dataKey (r : Regs) : (iterAdvance r).dataKey = r.dataKey := by
  simp [Regs.dataKey]

@[simp] theorem iterAdvance_bps (r : Regs) : (iterAdvance r).bps = r.bps := by
  simp [Regs.bps]

/-- What an advance does, once: it rolls over at the last block of the sector, and otherwise doubles (41_tweak.md R122). -/
theorem iterAdvance_cases (r : Regs) :
    (r.blk.toNat + 1 = r.bps ∧
      iterAdvance r = { r with twk := tweakStart r.tweakKey (r.sec + 1), blk := 0, sec := r.sec + 1 }) ∨
    (r.blk.toNat + 1 ≠ r.bps ∧ iterAdvance r = { r with twk := dbl r.twk, blk := r.blk + 1 }) := by
  by_cases h : r.blk.toNat + 1 = r.bps
  · exact .inl ⟨h, if_pos h⟩
  · exact .inr ⟨h, if_neg h⟩

/-- What a commit does, once (42_xts.md R174). -/
theorem budgetCommit_sbytes (n : Nat) (r : Regs) :
    (budgetCommit n r).sbytes =
      if r.mode = .independent then BitVec.ofNat 64 (r.sbytes.toNat + n) else r.sbytes := by
  unfold budgetCommit; split <;> simp_all

end Sys2Proof.Machine
end

