-- ==== Sys2Proof/Laws/Ops.lean ====
section
/-! SUPPORT. One lemma per shared operation, saying once what it does. -/

namespace Sys2Proof.Machine

/-! ## Checks -/

@[simp] theorem firstCause_nil : firstCause [] = none := rfl
@[simp] theorem firstCause_some (c : Cause) (l : List (Option Cause)) : firstCause (some c :: l) = some c := rfl
@[simp] theorem firstCause_none (l : List (Option Cause)) : firstCause (none :: l) = firstCause l := rfl

/-- No check fails exactly when none of the list does. -/
theorem firstCause_eq_none (l : List (Option Cause)) : firstCause l = none ↔ ∀ c ∈ l, c = none := by
  induction l with
  | nil => simp
  | cons c l ih => cases c <;> simp [ih]

@[simp] theorem secszCheck_eq_none (z : U64) : secszCheck z = none ↔ 16 ≤ z.toNat := by
  simp [secszCheck]

@[simp] theorem startBlkCheck_eq_none (z b : U64) : startBlkCheck z b = none ↔ b.toNat < blocksPerSector z := by
  simp [startBlkCheck]

theorem iterCheck_eq_none (z b : U64) : iterCheck z b = none ↔ 16 ≤ z.toNat ∧ b.toNat < blocksPerSector z := by
  simp [iterCheck, firstCause_eq_none]

theorem cipherCheck_eq_none (r : Regs) : cipherCheck r = none ↔ r.ctx = .cipher := by
  unfold cipherCheck; split <;> simp_all

theorem iterWriteCheck_eq_none (r : Regs) : iterWriteCheck r = none ↔ r.ctx = .iter := by
  unfold iterWriteCheck; split <;> simp_all

theorem iterReadCheck_eq_none (r : Regs) : iterReadCheck r = none ↔ r.ctx = .iter ∨ r.ctx = .cipher := by
  unfold iterReadCheck; split <;> simp_all

theorem ovfCheck_w32_eq_none (t : Nat) : ovfCheck .w32 t = none ↔ t ≤ 2 ^ 31 - 1 := by
  simp [ovfCheck]

theorem ovfCheck_w64_eq_none (t : Nat) : ovfCheck .w64 t = none ↔ t ≤ 2 ^ 63 - 1 := by
  simp [ovfCheck]

theorem budgetCheck_eq_none (r : Regs) (n : Nat) :
    budgetCheck r n = none ↔ (r.mode = .independent → r.sbytes.toNat + n ≤ r.secsz.toNat) := by
  unfold budgetCheck; split <;> simp_all

theorem capCheck_eq_none (e : Nat) (cap : U32) : capCheck e cap = none ↔ e ≤ cap.toNat := by
  simp [capCheck]

theorem unitCheck_eq_none (t : Nat) : unitCheck t = none ↔ t = 0 ∨ 16 ≤ t := by
  simp [unitCheck]; omega

theorem straddleCheck_eq_none (r : Regs) (t : Nat) :
    straddleCheck r t = none ↔
      (r.mode = .continuous → t % 16 ≠ 0 → (r.blk.toNat + finBlocks t) % r.bps ≠ r.bps - 1) := by
  unfold straddleCheck; split <;> simp_all

theorem procCheck_eq_none (r : Regs) (n : Nat) (cap : U32) :
    procCheck r n cap = none ↔ r.ctx = .cipher ∧ r.plen.toNat + n ≤ 2 ^ 31 - 1 ∧
      (r.mode = .independent → r.sbytes.toNat + n ≤ r.secsz.toNat) ∧ nproc (r.plen.toNat + n) ≤ cap.toNat := by
  simp only [procCheck, firstCause_eq_none, List.forall_mem_cons, cipherCheck_eq_none, ovfCheck_w32_eq_none,
    budgetCheck_eq_none, capCheck_eq_none, List.not_mem_nil, false_implies, implies_true, and_true]

theorem finCheck_eq_none (r : Regs) (n : Nat) (cap : U32) :
    finCheck r n cap = none ↔ r.ctx = .cipher ∧ r.plen.toNat + n ≤ 2 ^ 31 - 1 ∧
      (r.mode = .independent → r.sbytes.toNat + n ≤ r.secsz.toNat) ∧
      (r.plen.toNat + n = 0 ∨ 16 ≤ r.plen.toNat + n) ∧
      (r.mode = .continuous → (r.plen.toNat + n) % 16 ≠ 0 →
        (r.blk.toNat + finBlocks (r.plen.toNat + n)) % r.bps ≠ r.bps - 1) ∧
      r.plen.toNat + n ≤ cap.toNat := by
  simp only [finCheck, firstCause_eq_none, List.forall_mem_cons, cipherCheck_eq_none, ovfCheck_w32_eq_none,
    budgetCheck_eq_none, capCheck_eq_none, unitCheck_eq_none, straddleCheck_eq_none, List.not_mem_nil, false_implies,
    implies_true, and_true]

theorem predictCheck_eq_none (r : Regs) (w : PredictWidth) (n : Nat) :
    predictCheck r w n = none ↔ r.ctx = .cipher ∧ ovfCheck w (r.plen.toNat + n) = none ∧
      (r.mode = .independent → r.sbytes.toNat + n ≤ r.secsz.toNat) := by
  simp only [predictCheck, firstCause_eq_none, List.forall_mem_cons, cipherCheck_eq_none,
    budgetCheck_eq_none, List.not_mem_nil, false_implies, implies_true, and_true]

/-! ## Responses -/

@[simp] theorem reply_some (s : State) (op : Opcode) (c : Cause) (r : Regs) (fields : List Word) :
    s.reply op (some c) r fields = s.raise c op.code := rfl

@[simp] theorem reply_none (s : State) (op : Opcode) (r : Regs) (fields : List Word) :
    s.reply op none r fields = { s with regs := r, respOut := s.respOut ++ okStatus op.code :: fields } := rfl

/-- What a command can do, once: fail a check and change nothing but the end of the response stream, or succeed. -/
theorem reply_cases (s : State) (op : Opcode) (check : Option Cause) (r : Regs) (fields : List Word) :
    (∃ c, check = some c ∧ s.reply op check r fields = { s with respOut := s.respOut ++ [errStatus c op.code] }) ∨
    (check = none ∧
      s.reply op check r fields = { s with regs := r, respOut := s.respOut ++ okStatus op.code :: fields }) := by
  cases check with
  | none => exact .inr ⟨rfl, rfl⟩
  | some c => exact .inl ⟨c, rfl, rfl⟩

/-! ## The pending buffer -/

theorem padTo31_toList (bs : List Byte) (h : bs.length ≤ 31) :
    (padTo31 bs).toList = bs ++ List.replicate (31 - bs.length) 0 := by
  simp only [padTo31, Vector.toList_mk, List.take_append, List.take_replicate]
  rw [List.take_of_length_le h]
  congr 2
  omega

/-- What the buffer holds after a rewrite (42_xts.md R163). -/
theorem pending_setPending (bs : List Byte) (r : Regs) (h : bs.length ≤ 31) : (setPending bs r).pending = bs := by
  have e : bs.length % 2 ^ 5 = bs.length := Nat.mod_eq_of_lt (by omega)
  simp only [Regs.pending, setPending_pend, setPending_plen, padTo31_toList bs h, BitVec.toNat_ofNat, e]
  simp

theorem pending_length (r : Regs) : r.pending.length = r.plen.toNat := by
  have h := r.plen.isLt
  simp [Regs.pending]
  omega

/-! ## The emission count -/

theorem nproc_le (t : Nat) : nproc t ≤ t := by
  simp only [nproc, Config.blockBytes]; omega

theorem nproc_div (t : Nat) : nproc t / 16 = t / 16 - 1 := by
  simp only [nproc, Config.blockBytes]; omega

theorem sub_nproc_le (t : Nat) : t - nproc t ≤ 31 := by
  simp only [nproc, Config.blockBytes]; omega

/-! ## The block transform over a stream -/

@[simp] theorem xtsBlocks_zero (s : List Byte) (r : Regs) : xtsBlocks 0 s r = (r, []) := rfl

theorem xtsBlocks_succ (n : Nat) (s : List Byte) (r : Regs) :
    xtsBlocks (n + 1) s r =
      ((xtsBlocks n (s.drop 16) (iterAdvance r)).1,
        blockBytes (xexCrypt r r.twk (blockOfBytes (s.take 16))) ++ (xtsBlocks n (s.drop 16) (iterAdvance r)).2) := rfl

/-- The registers after `n` blocks: the iterator has advanced `n` times. -/
theorem xtsBlocks_fst (n : Nat) (s : List Byte) (r : Regs) : (xtsBlocks n s r).1 = iterAdvance^[n] r := by
  induction n generalizing s r with
  | zero => rfl
  | succ n ih => rw [xtsBlocks_succ, ih, Function.iterate_succ_apply]

/-- Every block emits 16 bytes. -/
theorem xtsBlocks_length (n : Nat) (s : List Byte) (r : Regs) : (xtsBlocks n s r).2.length = 16 * n := by
  induction n generalizing s r with
  | zero => rfl
  | succ n ih => rw [xtsBlocks_succ, List.length_append, ih, blockBytes_length]; omega

/-- The first blocks and then the others, each from the registers the first ones left. -/
theorem xtsBlocks_add (m n : Nat) (s : List Byte) (r : Regs) :
    xtsBlocks (m + n) s r =
      ((xtsBlocks n (s.drop (16 * m)) (xtsBlocks m s r).1).1,
        (xtsBlocks m s r).2 ++ (xtsBlocks n (s.drop (16 * m)) (xtsBlocks m s r).1).2) := by
  induction m generalizing s r with
  | zero => simp
  | succ m ih =>
    have e : m + 1 + n = (m + n) + 1 := by omega
    rw [e, xtsBlocks_succ, ih, xtsBlocks_succ, List.drop_drop, List.append_assoc, Nat.mul_add, Nat.mul_one]
    rw [Nat.add_comm 16]

/-- Only the first `16·n` bytes matter. -/
theorem xtsBlocks_take (n k : Nat) (s : List Byte) (r : Regs) (h : 16 * n ≤ k) :
    xtsBlocks n (s.take k) r = xtsBlocks n s r := by
  induction n generalizing s r k with
  | zero => rfl
  | succ n ih =>
    rw [xtsBlocks_succ, xtsBlocks_succ, List.drop_take, ih (k - 16) (s.drop 16) _ (by omega), List.take_take]
    rw [Nat.min_eq_left (by omega)]

theorem ctsPair_fst (a : Block) (tail : List Byte) (r : Regs) : (ctsPair a tail r).1 = iterAdvance (iterAdvance r) := by
  unfold ctsPair; split <;> rfl

/-- Ciphertext stealing does not change the length (42_xts.md R173, R175). -/
theorem ctsPair_length (a : Block) (tail : List Byte) (r : Regs) (h : tail.length ≤ 16) :
    (ctsPair a tail r).2.length = 16 + tail.length := by
  unfold ctsPair; split <;> simp [ctsEnc, ctsDec] <;> omega

/-- The transform of XTS_FIN does not change the length (42_xts.md R170). -/
theorem finalTransform_length (s : List Byte) (r : Regs) (h : s.length = 0 ∨ 16 ≤ s.length) :
    (finalTransform s r).2.length = s.length := by
  unfold finalTransform
  split
  · next hm =>
    simp only [Config.blockBytes] at hm
    have e : finBlocks s.length = s.length / 16 := if_pos hm
    simp only [xtsBlocks_length, e]
    omega
  · next hm =>
    simp only [Config.blockBytes] at hm
    have e : finBlocks s.length = s.length / 16 - 1 := if_neg hm
    simp only [List.length_append, xtsBlocks_length, e]
    rw [ctsPair_length] <;> simp only [List.length_drop] <;> omega

/-- What an accepted XTS_PROC emits (42_xts.md R162). -/
theorem procEffect_length (data : List Byte) (r : Regs) :
    (procEffect data r).2.length = nproc (r.plen.toNat + data.length) := by
  have e : (r.pending ++ data).length = r.plen.toNat + data.length := by rw [List.length_append, pending_length]
  simp only [procEffect, xtsBlocks_length, e, nproc, Config.blockBytes]
  omega

/-- What an accepted XTS_PROC keeps pending (42_xts.md R163). -/
theorem procEffect_pending (data : List Byte) (r : Regs) :
    (procEffect data r).1.pending = (r.pending ++ data).drop (nproc (r.plen.toNat + data.length)) := by
  have e : (r.pending ++ data).length = r.plen.toNat + data.length := by rw [List.length_append, pending_length]
  simp only [procEffect]
  rw [pending_setPending, e]
  rw [List.length_drop]
  exact sub_nproc_le _

/-- What an accepted XTS_FIN emits (42_xts.md R170). -/
theorem finEffect_length (data : List Byte) (r : Regs) (h : r.plen.toNat + data.length = 0 ∨ 16 ≤ r.plen.toNat + data.length) :
    (finEffect data r).2.length = r.plen.toNat + data.length := by
  have e : (r.pending ++ data).length = r.plen.toNat + data.length := by rw [List.length_append, pending_length]
  simp only [finEffect]
  rw [finalTransform_length _ _ (by rw [e]; exact h), e]

/-! ## AES -/

/-- The one law of the AES primitive (00_scope.md R14). -/
@[simp] theorem aesD_aesE (k : AesKey) (b : Block) : aesD k (aesE k b) = b := by
  simp [aesD, aesE]

/-! ## GF(2^128) -/

/-- Doubling is linear over XOR (40_gf128.md R109). -/
theorem dbl_xor (x y : Block) : dbl (x ^^^ y) = dbl x ^^^ dbl y := by
  have swap : ∀ a b c d : Block, a ^^^ b ^^^ (c ^^^ d) = a ^^^ c ^^^ (b ^^^ d) := fun a b c d => by ac_rfl
  have hm : (if (x ^^^ y).msb then Config.gfFeedback else 0) =
      (if x.msb then Config.gfFeedback else 0) ^^^ (if y.msb then Config.gfFeedback else 0) := by
    rw [BitVec.msb_xor]
    cases x.msb <;> cases y.msb <;> simp
  rw [dbl, dbl, dbl, hm, BitVec.shiftLeft_xor_distrib, swap]

@[simp] theorem dbl_zero : dbl 0 = 0 := by decide

/-- The accumulator of the product loop comes out in front. -/
theorem gmulLoop_acc (k b : Nat) (r w : Block) : gmulLoop k b r w = r ^^^ gmulLoop k b 0 w := by
  induction k generalizing b r w with
  | zero => simp [gmulLoop]
  | succ k ih =>
    simp only [gmulLoop]
    rw [ih, ih (b / 2) (if b % 2 = 1 then 0 ^^^ w else 0)]
    split <;> simp [BitVec.xor_assoc]

end Sys2Proof.Machine
end

