-- ==== Sys2Proof/Laws/PerInstr.lean ====
section
/-! SUPPORT. Two facts of every command as syntax, one lemma per constructor: its header word decodes to its opcode and flags,
and its payload has the length its format says. -/

namespace Sys2Proof.Laws

open Machine

/-- The header word of a command decodes to its opcode and carries its flags (30_encoding.md R71, R80, R81, R89). -/
def HeaderDecodes.Statement (i : Instr) : Prop :=
  decodeHeader i.header = .ok i.opcode ∧ headerFlg i.header = i.flg ∧ headerOpc i.header = i.opcode.code

/-- The payload of a well-formed command has the words its format says (30_encoding.md R78, R79). -/
def PayloadLength.Statement (i : Instr) : Prop :=
  i.wellFormed = true → i.payload.length = payloadWords i.opcode i.flg i.payload

theorem HeaderDecodes.gfDbl (a : Block) : HeaderDecodes.Statement (.gfDbl a) := by
  simp only [HeaderDecodes.Statement, Instr.header, Instr.opcode, Instr.flg]; decide

theorem HeaderDecodes.gfMul (a b : Block) : HeaderDecodes.Statement (.gfMul a b) := by
  simp only [HeaderDecodes.Statement, Instr.header, Instr.opcode, Instr.flg]; decide

theorem HeaderDecodes.gfPow (n : U64) : HeaderDecodes.Statement (.gfPow n) := by
  simp only [HeaderDecodes.Statement, Instr.header, Instr.opcode, Instr.flg]; decide

theorem HeaderDecodes.gfMulpow (a : Block) (n : U64) : HeaderDecodes.Statement (.gfMulpow a n) := by
  simp only [HeaderDecodes.Statement, Instr.header, Instr.opcode, Instr.flg]; decide

theorem HeaderDecodes.twkInit (k2 : AesKey) (secsz sec blk : U64) : HeaderDecodes.Statement (.twkInit k2 secsz sec blk) := by
  cases k2 <;> (simp only [HeaderDecodes.Statement, Instr.header, Instr.opcode, Instr.flg, keySize]; decide)

theorem HeaderDecodes.twkReset (secsz sec blk : U64) : HeaderDecodes.Statement (.twkReset secsz sec blk) := by
  simp only [HeaderDecodes.Statement, Instr.header, Instr.opcode, Instr.flg]; decide

theorem HeaderDecodes.twkCur : HeaderDecodes.Statement (.twkCur) := by
  simp only [HeaderDecodes.Statement, Instr.header, Instr.opcode, Instr.flg]; decide

theorem HeaderDecodes.twkPos : HeaderDecodes.Statement (.twkPos) := by
  simp only [HeaderDecodes.Statement, Instr.header, Instr.opcode, Instr.flg]; decide

theorem HeaderDecodes.twkAdv : HeaderDecodes.Statement (.twkAdv) := by
  simp only [HeaderDecodes.Statement, Instr.header, Instr.opcode, Instr.flg]; decide

theorem HeaderDecodes.twkTake : HeaderDecodes.Statement (.twkTake) := by
  simp only [HeaderDecodes.Statement, Instr.header, Instr.opcode, Instr.flg]; decide

theorem HeaderDecodes.twkComp (sec j : U64) : HeaderDecodes.Statement (.twkComp sec j) := by
  simp only [HeaderDecodes.Statement, Instr.header, Instr.opcode, Instr.flg]; decide

theorem HeaderDecodes.twkComp128 (a : Block) (n : U64) : HeaderDecodes.Statement (.twkComp128 a n) := by
  simp only [HeaderDecodes.Statement, Instr.header, Instr.opcode, Instr.flg]; decide

theorem HeaderDecodes.xtsInit (dir : Dir) (mode : Mode) (k1 k2 : AesKey) (secsz sec : U64) : HeaderDecodes.Statement (.xtsInit dir mode k1 k2 secsz sec) := by
  cases dir <;> cases mode <;> cases k1 <;> cases k2 <;>
    (simp only [HeaderDecodes.Statement, Instr.header, Instr.opcode, Instr.flg, keySize]; decide)

theorem HeaderDecodes.xtsProc (cap : U32) (data : List Byte) : HeaderDecodes.Statement (.xtsProc cap data) := by
  simp only [HeaderDecodes.Statement, Instr.header, Instr.opcode, Instr.flg]; decide

theorem HeaderDecodes.xtsFin (cap : U32) (data : List Byte) : HeaderDecodes.Statement (.xtsFin cap data) := by
  simp only [HeaderDecodes.Statement, Instr.header, Instr.opcode, Instr.flg]; decide

theorem HeaderDecodes.xtsPupd (w : PredictWidth) (n : U64) : HeaderDecodes.Statement (.xtsPupd w n) := by
  cases w <;> (simp only [HeaderDecodes.Statement, Instr.header, Instr.opcode, Instr.flg]; decide)

theorem HeaderDecodes.xtsPfin (w : PredictWidth) (n : U64) : HeaderDecodes.Statement (.xtsPfin w n) := by
  cases w <;> (simp only [HeaderDecodes.Statement, Instr.header, Instr.opcode, Instr.flg]; decide)

theorem HeaderDecodes.xtsReset : HeaderDecodes.Statement (.xtsReset) := by
  simp only [HeaderDecodes.Statement, Instr.header, Instr.opcode, Instr.flg]; decide

theorem HeaderDecodes.xtsDisp : HeaderDecodes.Statement (.xtsDisp) := by
  simp only [HeaderDecodes.Statement, Instr.header, Instr.opcode, Instr.flg]; decide

theorem HeaderDecodes.info : HeaderDecodes.Statement (.info) := by
  simp only [HeaderDecodes.Statement, Instr.header, Instr.opcode, Instr.flg]; decide

theorem PayloadLength.gfDbl (a : Block) : PayloadLength.Statement (.gfDbl a) := fun _ => rfl

theorem PayloadLength.gfMul (a b : Block) : PayloadLength.Statement (.gfMul a b) := fun _ => rfl

theorem PayloadLength.gfPow (n : U64) : PayloadLength.Statement (.gfPow n) := fun _ => rfl

theorem PayloadLength.gfMulpow (a : Block) (n : U64) : PayloadLength.Statement (.gfMulpow a n) := fun _ => rfl

theorem PayloadLength.twkInit (k2 : AesKey) (secsz sec blk : U64) : PayloadLength.Statement (.twkInit k2 secsz sec blk) := by
  cases k2 <;> (intro _; simp only [Instr.payload, Instr.opcode, Instr.flg, keySize, payloadWords, keyField, u64Field, List.length_append,
      leWords_length]; decide)

theorem PayloadLength.twkReset (secsz sec blk : U64) : PayloadLength.Statement (.twkReset secsz sec blk) := fun _ => rfl

theorem PayloadLength.twkCur : PayloadLength.Statement (.twkCur) := fun _ => rfl

theorem PayloadLength.twkPos : PayloadLength.Statement (.twkPos) := fun _ => rfl

theorem PayloadLength.twkAdv : PayloadLength.Statement (.twkAdv) := fun _ => rfl

theorem PayloadLength.twkTake : PayloadLength.Statement (.twkTake) := fun _ => rfl

theorem PayloadLength.twkComp (sec j : U64) : PayloadLength.Statement (.twkComp sec j) := fun _ => rfl

theorem PayloadLength.twkComp128 (a : Block) (n : U64) : PayloadLength.Statement (.twkComp128 a n) := fun _ => rfl

theorem PayloadLength.xtsInit (dir : Dir) (mode : Mode) (k1 k2 : AesKey) (secsz sec : U64) : PayloadLength.Statement (.xtsInit dir mode k1 k2 secsz sec) := by
  cases dir <;> cases mode <;> cases k1 <;> cases k2 <;>
    (intro _; simp only [Instr.payload, Instr.opcode, Instr.flg, keySize, payloadWords, keyField, u64Field, List.length_append,
      leWords_length]; decide)

theorem PayloadLength.xtsProc (cap : U32) (data : List Byte) : PayloadLength.Statement (.xtsProc cap data) := by
  intro h
  have hl : data.length < 2 ^ 32 := by simpa [Instr.wellFormed, dataFits] using h
  simp [Instr.payload, Instr.opcode, payloadWords, u32Field, u32At]
  rw [Nat.mod_eq_of_lt (by simpa using hl)]
  omega

theorem PayloadLength.xtsFin (cap : U32) (data : List Byte) : PayloadLength.Statement (.xtsFin cap data) := by
  intro h
  have hl : data.length < 2 ^ 32 := by simpa [Instr.wellFormed, dataFits] using h
  simp [Instr.payload, Instr.opcode, payloadWords, u32Field, u32At]
  rw [Nat.mod_eq_of_lt (by simpa using hl)]
  omega

theorem PayloadLength.xtsPupd (w : PredictWidth) (n : U64) : PayloadLength.Statement (.xtsPupd w n) := fun _ => rfl

theorem PayloadLength.xtsPfin (w : PredictWidth) (n : U64) : PayloadLength.Statement (.xtsPfin w n) := fun _ => rfl

theorem PayloadLength.xtsReset : PayloadLength.Statement (.xtsReset) := fun _ => rfl

theorem PayloadLength.xtsDisp : PayloadLength.Statement (.xtsDisp) := fun _ => rfl

theorem PayloadLength.info : PayloadLength.Statement (.info) := fun _ => rfl

end Sys2Proof.Laws
end

