-- ==== Sys2Proof/Laws/Step.lean ====
section
/-! SUPPORT. What a step can do, said once. -/

namespace Sys2Proof.Machine

/-- What a step can do: a hardware reset, a held or waiting step, a rejected header, or the execution of the command the
stream begins with (30_encoding.md R79, R84; 70_reset_and_hazards.md R230, R235, R236). -/
theorem step_cases (s : State) :
    (s.rst = true ∧ step s = .next s.hardwareReset) ∨
    (s.rst = false ∧ s.respFull = true ∧ step s = .next s) ∨
    (s.rst = false ∧ s.respFull = false ∧ decode s.cmdIn = .incomplete ∧ step s = .next s) ∨
    (∃ c o, s.rst = false ∧ s.respFull = false ∧ decode s.cmdIn = .illegal c o ∧ step s = .next (s.rejectHeader c o)) ∨
    (∃ i n, s.rst = false ∧ s.respFull = false ∧ decode s.cmdIn = .command i n ∧ step s = exec i (s.consume n)) := by
  unfold step
  cases hr : s.rst
  · cases hf : s.respFull
    · cases hd : decode s.cmdIn <;> simp
    · simp
  · simp

theorem decode_illegal (h : Word) (p : List Word) (c : Cause) (e : decodeHeader h = .error c) :
    decode (h :: p) = .illegal c (headerOpc h) := by
  simp only [decode, e]

theorem decode_waits (h : Word) (p : List Word) (op : Opcode) (e : decodeHeader h = .ok op)
    (hl : p.length < payloadWords op (headerFlg h) p) : decode (h :: p) = .incomplete := by
  simp only [decode, e, if_pos hl]

theorem decode_command (h : Word) (p : List Word) (op : Opcode) (e : decodeHeader h = .ok op)
    (hl : payloadWords op (headerFlg h) p ≤ p.length) :
    decode (h :: p) = .command (assemble op (headerFlg h) p) (1 + payloadWords op (headerFlg h) p) := by
  simp only [decode, e, if_neg (Nat.not_lt.mpr hl)]

/-- What the front of a stream decodes to, once (30_encoding.md R79, R82 to R84). -/
theorem decode_cases (h : Word) (p : List Word) :
    (∃ c, decodeHeader h = .error c ∧ decode (h :: p) = .illegal c (headerOpc h)) ∨
    (∃ op, decodeHeader h = .ok op ∧ p.length < payloadWords op (headerFlg h) p ∧ decode (h :: p) = .incomplete) ∨
    (∃ op, decodeHeader h = .ok op ∧ payloadWords op (headerFlg h) p ≤ p.length ∧
      decode (h :: p) = .command (assemble op (headerFlg h) p) (1 + payloadWords op (headerFlg h) p)) := by
  cases e : decodeHeader h with
  | error c => exact .inl ⟨c, rfl, decode_illegal h p c e⟩
  | ok op =>
    rcases Nat.lt_or_ge p.length (payloadWords op (headerFlg h) p) with hl | hl
    · exact .inr (.inl ⟨op, rfl, hl, decode_waits h p op e hl⟩)
    · exact .inr (.inr ⟨op, rfl, hl, decode_command h p op e hl⟩)

/-- A header that fails a check fails one of the three header checks (60_exceptions.md R201, R204). -/
theorem decodeHeader_error (h : Word) (c : Cause) (e : decodeHeader h = .error c) :
    c = .badOpc ∨ c = .rsvBits ∨ c = .badFlg := by
  unfold decodeHeader at e
  split at e
  · simp_all
  · split at e
    · simp_all
    · split at e <;> simp_all

/-- A decoded command has its header among its words, and all its words have arrived (30_encoding.md R79). -/
theorem decode_command_length (ws : List Word) (i : Instr) (n : Nat) (h : decode ws = .command i n) :
    1 ≤ n ∧ n ≤ ws.length := by
  cases ws with
  | nil => cases h
  | cons w p =>
    rcases decode_cases w p with ⟨c, _, e⟩ | ⟨op, _, _, e⟩ | ⟨op, _, hl, e⟩ <;> rw [e] at h <;> cases h
    exact ⟨Nat.le_add_right 1 _, by rw [List.length_cons]; omega⟩

@[simp] theorem wholeCommands_zero (ws : List Word) : wholeCommands 0 ws = [] := rfl

/-- What the whole commands of a stream are, once: none before a partial command, and otherwise the first and those of the
rest. -/
theorem wholeCommands_cases (k : Nat) (ws : List Word) :
    (decode ws = .incomplete ∧ wholeCommands (k + 1) ws = []) ∨
    (∃ i n, decode ws = .command i n ∧ wholeCommands (k + 1) ws = ws.take n ++ wholeCommands k (ws.drop n)) ∨
    (∃ c o, decode ws = .illegal c o ∧ wholeCommands (k + 1) ws = ws.take 1 ++ wholeCommands k (ws.drop 1)) := by
  cases h : decode ws <;> simp [wholeCommands, h]

end Sys2Proof.Machine
end

