-- ==== Sys2Proof/Laws/Runs.lean ====
section
/-! SUPPORT. What a data command emits, said once in each direction, so that a proof about a run never unfolds a response. -/

namespace Sys2Proof.Machine

@[simp] theorem statusWord_eq_statusNumber (err detail opc : Byte) :
    statusWord err detail opc = statusNumber err.toNat detail.toNat opc.toNat := by
  simp only [statusWord, statusNumber]
  congr 1

/-- An OUT field of a known length fixes its bytes (30_encoding.md R73). -/
theorem dataField_inj (a b : List Byte) (hl : BitVec.ofNat 32 a.length = BitVec.ofNat 32 b.length)
    (h : dataField a = dataField b) : a = b := by
  have hw : dataWords a.length = dataWords b.length := by rw [← dataField_length, ← dataField_length, h]
  have hm : a.length % 2 ^ 32 = b.length % 2 ^ 32 := by simpa using congrArg BitVec.toNat hl
  have e : a.length = b.length := by
    simp only [dataWords] at hw
    omega
  rw [← bytesOfWords_dataField_take a, ← bytesOfWords_dataField_take b, h, e]

/-- A command that answers `fields` with success did not fail a check, and these are its registers and fields. -/
theorem reply_eq_answered (s : State) (op : Opcode) (check : Option Cause) (r r' : Regs) (fields fields' : List Word)
    (hf : 1 ≤ fields'.length) (h : s.reply op check r fields = s.answered op.code.toNat r' fields') :
    check = none ∧ r = r' ∧ fields = fields' := by
  cases check with
  | some c =>
    have e := congrArg State.respOut h
    simp only [reply_some, State.raise_respOut, State.answered, List.append_cancel_left_eq, List.cons.injEq] at e
    rw [← e.2] at hf
    simp at hf
  | none =>
    have e1 := congrArg State.regs h
    have e2 := congrArg State.respOut h
    simp only [reply_none, State.answered] at e1
    simp only [reply_none, State.answered, List.append_cancel_left_eq, List.cons.injEq] at e2
    exact ⟨rfl, e1, e2.2⟩

/-- An accepted XTS_PROC emits what `procEffect` gives (42_xts.md R163). -/
theorem emits_proc (s : State) (cap : U32) (data : List Byte) (h : procCheck s.regs data.length cap = none) :
    Emits (.xtsProc cap data) 0x21 s (procEffect data s.regs).2
      (s.answered 0x21 (procEffect data s.regs).1 (outFields (procEffect data s.regs).2)) :=
  ⟨_, by simp only [exec, execXtsProc, h]; rfl, rfl⟩

/-- An accepted XTS_FIN emits what `finEffect` gives (42_xts.md R170). -/
theorem emits_fin (s : State) (cap : U32) (data : List Byte) (h : finCheck s.regs data.length cap = none) :
    Emits (.xtsFin cap data) 0x22 s (finEffect data s.regs).2
      (s.answered 0x22 (finEffect data s.regs).1 (outFields (finEffect data s.regs).2)) :=
  ⟨_, by simp only [exec, execXtsFin, h]; rfl, rfl⟩

/-- An XTS_PROC that emits was accepted, and emits what `procEffect` gives. -/
theorem emits_proc_inv (s s' : State) (cap : U32) (data out : List Byte) (h : Emits (.xtsProc cap data) 0x21 s out s') :
    procCheck s.regs data.length cap = none ∧ out = (procEffect data s.regs).2 ∧
      s' = s.answered 0x21 (procEffect data s.regs).1 (outFields out) := by
  obtain ⟨r, he, rfl⟩ := h
  simp only [exec, execXtsProc, Host.Outcome.next.injEq] at he
  obtain ⟨hc, hr, hf⟩ := reply_eq_answered s .xtsProc _ _ _ _ _ (by simp) he
  simp only [outFields, u32Field, List.cons_append, List.nil_append, List.cons.injEq] at hf
  exact ⟨hc, (dataField_inj _ _ hf.1 hf.2).symm, by rw [hr]; rfl⟩

/-- An XTS_FIN that emits was accepted, and emits what `finEffect` gives. -/
theorem emits_fin_inv (s s' : State) (cap : U32) (data out : List Byte) (h : Emits (.xtsFin cap data) 0x22 s out s') :
    finCheck s.regs data.length cap = none ∧ out = (finEffect data s.regs).2 ∧
      s' = s.answered 0x22 (finEffect data s.regs).1 (outFields out) := by
  obtain ⟨r, he, rfl⟩ := h
  simp only [exec, execXtsFin, Host.Outcome.next.injEq] at he
  obtain ⟨hc, hr, hf⟩ := reply_eq_answered s .xtsFin _ _ _ _ _ (by simp) he
  simp only [outFields, u32Field, List.cons_append, List.nil_append, List.cons.injEq] at hf
  exact ⟨hc, (dataField_inj _ _ hf.1 hf.2).symm, by rw [hr]; rfl⟩

/-! ## The iterator and the block transform over a stream -/

/-- What an advance does not change, no number of advances changes. -/
theorem iterate_frame {α : Type} (f : Regs → α) (hf : ∀ r, f (iterAdvance r) = f r) (n : Nat) (r : Regs) :
    f (iterAdvance^[n] r) = f r := by
  induction n generalizing r with
  | zero => rfl
  | succ n ih => rw [Function.iterate_succ_apply, ih, hf]

/-- The blocks of a stream are transformed with the tweaks of successive advances (42_xts.md R160). -/
theorem xtsBlocks_snd (r : Regs) (n : Nat) (stream : List Byte) : (xtsBlocks n stream r).2 = transformedBlocks r n stream := by
  induction n generalizing r stream with
  | zero => rfl
  | succ n ih =>
    rw [xtsBlocks_succ, ih, transformedBlocks, transformedBlocks, List.range_succ_eq_map]
    simp only [List.flatMap_cons, Function.iterate_zero, id, Nat.mul_zero, List.drop_zero, List.flatMap_map,
      Function.iterate_succ_apply]
    congr 1
    · simp only [xexCrypt]
      cases r.dir <;> simp
    · congr 1
      funext i
      simp [List.drop_drop, Nat.mul_add, Nat.add_comm]

/-- What XTS_FIN emits for a whole stream: the leading blocks, then a pair where the length is no multiple of 16
(42_xts.md R170). -/
theorem finalTransform_snd (stream : List Byte) (r : Regs) :
    (finalTransform stream r).2 =
      transformedBlocks r (finBlocks stream.length) stream ++
        (if stream.length % 16 = 0 then []
        else (ctsPair (blockOfBytes ((stream.drop (16 * finBlocks stream.length)).take 16))
          (stream.drop (16 * finBlocks stream.length + 16)) (iterAdvance^[finBlocks stream.length] r)).2) := by
  rw [← xtsBlocks_snd]
  simp only [finalTransform, Config.blockBytes]
  split <;> simp [xtsBlocks_fst]

/-- The registers after it: the iterator has advanced once per block, a pair counting two (42_xts.md R170). -/
theorem finalTransform_fst (stream : List Byte) (r : Regs) :
    (finalTransform stream r).1 =
      iterAdvance^[if stream.length % 16 = 0 then finBlocks stream.length else finBlocks stream.length + 2] r := by
  simp only [finalTransform, Config.blockBytes]
  split
  · exact xtsBlocks_fst _ _ _
  · rw [ctsPair_fst, xtsBlocks_fst, Function.iterate_succ_apply', Function.iterate_succ_apply']

/-- The registers an accepted XTS_PROC leaves: the iterator advanced once per emitted block, under the committed budget, and
the rest of the stream pending (42_xts.md R163). -/
theorem procEffect_fst (data : List Byte) (r : Regs) :
    (procEffect data r).1 =
      setPending ((r.pending ++ data).drop (nproc (r.plen.toNat + data.length)))
        (iterAdvance^[(r.plen.toNat + data.length) / 16 - 1] (budgetCommit data.length r)) := by
  have e : (r.pending ++ data).length = r.plen.toNat + data.length := by rw [List.length_append, pending_length]
  simp only [procEffect, xtsBlocks_fst, e]
  rw [show nproc (r.plen.toNat + data.length) / Config.blockBytes = _ from nproc_div _]

/-- What XTS_DISP leaves, once (42_xts.md R181). -/
theorem disposeRegs_cases (r : Regs) :
    (r.HasIterator ∧ disposeRegs r = { Regs.zero with ctx := .disposed }) ∨ (¬ r.HasIterator ∧ disposeRegs r = r) := by
  unfold disposeRegs Regs.HasIterator
  cases h : r.ctx <;> simp

end Sys2Proof.Machine
end

