-- ==== Sys2Proof/Tests/Slice0.lean ====
section
/-! SUPPORT. Tests. Every expected word is written out from 30_encoding.md or taken from 95_test_vectors.md (the vector's name
stands beside it); none is the model's own answer. The last part shows, for every statement with hypotheses, a concrete state
and operands that meet them. -/

namespace Sys2Proof.Tests

open Sys2Proof Sys2Proof.Machine

/-! ## Helpers -/

/-- Operand A of 95_test_vectors.md section 0, h'000102…0f'. -/
def blockA : Block := 0x0f0e0d0c0b0a09080706050403020100

/-- Operand F of 95_test_vectors.md section 0. -/
def blockF : Block := 0xffffffffffffffffffffffffffffffff

/-- The example K2 of 95_test_vectors.md section 0. -/
def keyA : AesKey := .k128 blockA

/-- A standalone iterator at (sec, blk) with this tweak. -/
def iterAt (secsz sec blk : U64) (twk : Block) : Regs :=
  { Regs.zero with ctx := .iter, k2 := keySlot keyA, secsz := secsz, sec := sec, blk := blk, twk := twk }

/-- A cipher at block 0 of its start sector, holding `n` pending bytes of zeros. -/
def cipherAt (dir : Dir) (mode : Mode) (secsz sec : U64) (n : Nat) : Regs :=
  { Regs.zero with
    ctx := .cipher, k1 := keySlot keyA, k2 := keySlot keyA, dir := dir, mode := mode, secsz := secsz, startSec := sec,
    sec := sec, twk := aesE keyA (sec.setWidth 128), plen := BitVec.ofNat 5 n,
    sbytes := if mode = .independent then BitVec.ofNat 64 n else 0 }

/-- The registers after XTS_DISP. -/
def disposedRegs : Regs := { Regs.zero with ctx := .disposed }

/-- The machine with these registers and these words in the command stream. -/
def fed (r : Regs) (ws : List Word) : State := { State.reset with regs := r, cmdIn := ws }

/-- The state after one step. -/
def stepped (s : State) : Option State :=
  match step s with
  | .next s' => some s'
  | .fault _ => none
  | .refused _ => none

/-- The response to one command. -/
def response (r : Regs) (ws : List Word) : Option (List Word) := (stepped (fed r ws)).map (·.respOut)

/-- The registers one command leaves. -/
def regsAfter (r : Regs) (ws : List Word) : Option Regs := (stepped (fed r ws)).map (·.regs)

/-! ## WellFormed refuses what the encoding cannot carry (30_encoding.md R75: L is a U32) -/

theorem test_wellFormed_refuses_long_proc (cap : U32) :
    (Instr.xtsProc cap (List.replicate (2 ^ 32) 0)).wellFormed = false := by
  simp only [Instr.wellFormed, dataFits, List.length_replicate]; decide

theorem test_wellFormed_refuses_long_fin (cap : U32) :
    (Instr.xtsFin cap (List.replicate (2 ^ 32) 0)).wellFormed = false := by
  simp only [Instr.wellFormed, dataFits, List.length_replicate]; decide

theorem test_wellFormed_takes_longest_data (cap : U32) :
    (Instr.xtsProc cap (List.replicate (2 ^ 32 - 1) 0)).wellFormed = true := by
  simp only [Instr.wellFormed, dataFits, List.length_replicate]; decide

/-! ## Every constructor's decoding, from words written out from the encoding (30_encoding.md R71, R73, R78, R80, R81) -/

/-- V-SC2. -/
theorem test_decode_gfDbl :
    decode [0x00000001, 0x00000000, 0x00000000, 0x00000000, 0x80000000] =
      .command (.gfDbl 0x80000000000000000000000000000000) 5 := by decide

theorem test_decode_gfMul :
    decode [0x00000002, 0x03020100, 0x07060504, 0x0b0a0908, 0x0f0e0d0c, 1, 2, 3, 4] =
      .command (.gfMul blockA 0x00000004000000030000000200000001) 9 := by decide

theorem test_decode_gfPow : decode [0x00000003, 0x00000080, 0x00000001] = .command (.gfPow 0x100000080) 3 := by decide

theorem test_decode_gfMulpow :
    decode [0x00000004, 0x03020100, 0x07060504, 0x0b0a0908, 0x0f0e0d0c, 0x00001388, 0x00000000] =
      .command (.gfMulpow blockA 5000) 7 := by decide

/-- V-T-ERR line 3, and V-T-CTX line 19 for the AES-256 form. -/
theorem test_decode_twkInit :
    decode [0x00000010, 0x03020100, 0x07060504, 0x0b0a0908, 0x0f0e0d0c, 0x21, 0, 7, 0, 2, 0] =
        .command (.twkInit keyA 33 7 2) 11 ∧
      decode [0x00000110, 0x03020100, 0x07060504, 0x0b0a0908, 0x0f0e0d0c, 0x13121110, 0x17161514, 0x1b1a1918, 0x1f1e1d1c,
          0x00000200, 0, 0, 0, 1, 0] =
        .command (.twkInit (.k256 0x1f1e1d1c1b1a191817161514131211100f0e0d0c0b0a09080706050403020100) 512 0 1) 15 := by
  decide

theorem test_decode_twkReset : decode [0x00000011, 0x30, 0, 1, 2, 3, 4] =
    .command (.twkReset 48 0x200000001 0x400000003) 7 := by decide

theorem test_decode_twkCur : decode [0x00000012] = .command .twkCur 1 := by decide
theorem test_decode_twkPos : decode [0x00000013] = .command .twkPos 1 := by decide
theorem test_decode_twkAdv : decode [0x00000014] = .command .twkAdv 1 := by decide
theorem test_decode_twkTake : decode [0x00000015] = .command .twkTake 1 := by decide
theorem test_decode_twkComp : decode [0x00000016, 5, 0, 0, 1] = .command (.twkComp 5 0x100000000) 5 := by decide

theorem test_decode_twkComp128 : decode [0x00000017, 5, 0, 0, 0, 3, 0] = .command (.twkComp128 5 3) 7 := by decide

/-- FLG 0x7: decrypt, Independent, a 32-byte K1 and a 16-byte K2 (30_encoding.md R81). -/
theorem test_decode_xtsInit :
    decode [0x00000720, 1, 0, 0, 0, 0, 0, 0, 0x80000000, 0x03020100, 0x07060504, 0x0b0a0908, 0x0f0e0d0c, 0x20, 0, 9, 0] =
      .command (.xtsInit .dec .independent
        (.k256 0x8000000000000000000000000000000000000000000000000000000000000001) keyA 32 9) 17 := by decide

/-- 30_encoding.md R88: XTS_PROCB h'20' is XTS_PROC with L = 1; pad bytes are ignored. -/
theorem test_decode_xtsProc :
    decode [0x00000021, 0x00000001, 0xffffffff, 0xaaaaaa20] = .command (.xtsProc 0xffffffff [0x20]) 4 := by decide

theorem test_decode_xtsFin :
    decode [0x00000022, 0x00000005, 0x00000005, 0x03020100, 0x00000004] = .command (.xtsFin 5 [0, 1, 2, 3, 4]) 5 := by decide

theorem test_decode_xtsPupd : decode [0x00000123, 0x80000000, 0] = .command (.xtsPupd .w64 0x80000000) 3 := by decide
theorem test_decode_xtsPfin : decode [0x00000024, 1, 2] = .command (.xtsPfin .w32 0x200000001) 3 := by decide
theorem test_decode_xtsReset : decode [0x00000025] = .command .xtsReset 1 := by decide
theorem test_decode_xtsDisp : decode [0x00000026] = .command .xtsDisp 1 := by decide
theorem test_decode_info : decode [0x00000030] = .command .info 1 := by decide

/-- An AES-128 pair and an AES-256 pair from the encoder, header and length (30_encoding.md R78: 13 and 21 words). -/
theorem test_encode_xtsInit :
    (encode (.xtsInit .enc .independent keyA keyA 32 9)).take 2 = [0x00000220, 0x03020100] ∧
      (encode (.xtsInit .enc .independent keyA keyA 32 9)).length = 13 ∧
      (encode (.xtsInit .dec .continuous (.k256 1) (.k256 2) 32 9)).take 2 = [0x00000d20, 1] ∧
      (encode (.xtsInit .dec .continuous (.k256 1) (.k256 2) 32 9)).length = 21 := by decide

/-! ## One step of every instruction -/

/-- V-SC2; V-G-DBL, all ones. -/
theorem test_gfDbl :
    response Regs.zero [1, 0, 0, 0, 0x80000000] = some [0x00010000, 0x87, 0, 0, 0] ∧
      response Regs.zero [1, 0xffffffff, 0xffffffff, 0xffffffff, 0xffffffff] =
        some [0x00010000, 0xffffff79, 0xffffffff, 0xffffffff, 0xffffffff] := by decide +kernel

/-- V-G-MUL, the example of 40_gf128.md R102. -/
theorem test_gfMul :
    response Regs.zero [2, 0x03020100, 0x07060504, 0x0b0a0908, 0x0f0e0d0c, 0x0c0d0e0f, 0x08090a0b, 0x04050607, 0x00010203] =
      some [0x00020000, 0x29a783c0, 0x35379f50, 0x1cd7b6b0, 0x0047aa20] := by decide +kernel

/-- V-G-POW, N = 128 and N = 2^64 − 1. -/
theorem test_gfPow :
    response Regs.zero [3, 0x80, 0] = some [0x00030000, 0x87, 0, 0, 0] ∧
      response Regs.zero [3, 0xffffffff, 0xffffffff] =
        some [0x00030000, 0xcad14cfb, 0xa272cc53, 0x35ac195c, 0x30b28ff5] := by decide +kernel

/-- V-G-MP, mulpow(F, 5000) and mulpow(A, 0). -/
theorem test_gfMulpow :
    response Regs.zero [4, 0xffffffff, 0xffffffff, 0xffffffff, 0xffffffff, 5000, 0] =
        some [0x00040000, 0x527a367d, 0xac7193ff, 0xac71ac71, 0x7c761871] ∧
      response Regs.zero [4, 0x03020100, 0x07060504, 0x0b0a0908, 0x0f0e0d0c, 0, 0] =
        some [0x00040000, 0x03020100, 0x07060504, 0x0b0a0908, 0x0f0e0d0c] := by decide +kernel

/-- V-T-ERR lines 1, 2 and 6. -/
theorem test_twkInit_errors :
    response Regs.zero [0x10, 0, 0, 0, 0, 15, 0, 0, 0, 0, 0] = some [0x00101001] ∧
      response Regs.zero [0x10, 0, 0, 0, 0, 32, 0, 0, 0, 2, 0] = some [0x00102002] ∧
      response Regs.zero [0x10, 0, 0, 0, 0, 0, 0, 0, 0, 5, 0] = some [0x00101001] := by decide +kernel

/-- V-T-EDGE lines 6 and 7: the largest start block, 2^60 − 1, over a disposed object. -/
theorem test_twkInit_largest_block :
    response disposedRegs [0x10, 0, 0, 0, 0, 0xffffffff, 0xffffffff, 7, 0, 0xffffffff, 0x0fffffff] = some [0x00100000] ∧
      (regsAfter disposedRegs [0x10, 0, 0, 0, 0, 0xffffffff, 0xffffffff, 7, 0, 0xffffffff, 0x0fffffff]).map
        (fun r => (r.ctx, r.sec, r.blk)) = some (.iter, 7, 0x0fffffffffffffff) := by decide +kernel

/-- V-T-ERR lines 9 and 10; V-T-CTX line 13. -/
theorem test_twkReset :
    response (iterAt 33 0 2 0) [0x11, 48, 0, 0, 0, 3, 0] = some [0x00112002] ∧
      (regsAfter (iterAt 33 0 2 0) [0x11, 16, 0, 1, 0, 0, 0]).map (fun r => (r.secsz, r.sec, r.blk, r.k2)) =
        some (16, 1, 0, keySlot keyA) ∧
      response (cipherAt .enc .continuous 32 5 0) [0x11, 32, 0, 0, 0, 0, 0] = some [0x00113503] := by decide +kernel

/-- V-SC4 line 7; V-T-CTX line 1. -/
theorem test_twkCur :
    response (iterAt 32 6 1 0xf5aacbc765e52e85c7220efca38cd0d6) [0x12] =
        some [0x00120000, 0xa38cd0d6, 0xc7220efc, 0x65e52e85, 0xf5aacbc7] ∧
      response Regs.zero [0x12] = some [0x00123103] := by decide +kernel

/-- V-SC4 line 6; V-T-CTX line 10. -/
theorem test_twkPos :
    response (iterAt 32 6 1 0) [0x13] = some [0x00130000, 6, 0, 1, 0] ∧
      response (cipherAt .enc .continuous 32 5 0) [0x13] = some [0x00130000, 5, 0, 0, 0] := by decide +kernel

/-- V-T-T0 and V-T-COMP: T(5, 1) from T0(5). -/
theorem test_twkAdv_doubles :
    regsAfter (iterAt 48 5 0 0x0ef67a35cb0eb93d1cce52cb6cc79d78) [0x14] =
      some (iterAt 48 5 1 0x1decf46b961d727a399ca596d98f3af0) := by decide +kernel

/-- V-SC4 lines 3 and 4: the advance after block BPS − 1 moves to (6, 0); V-T-EDGE line 3: sector 2^64 − 1 wraps. -/
theorem test_twkAdv_rolls_over :
    (regsAfter (iterAt 32 5 1 0) [0x14]).map (fun r => (r.sec, r.blk)) = some (6, 0) ∧
      (regsAfter (iterAt 16 0xffffffffffffffff 0 0) [0x14]).map (fun r => (r.sec, r.blk)) = some (0, 0) := by decide +kernel

/-- V-T-EDGE lines 3 and 4: the tweak before the advance; V-T-CTX line 12. -/
theorem test_twkTake :
    response (iterAt 16 0xffffffffffffffff 0 0x095a7248bf8fc0af96125ebd48e9d425) [0x15] =
        some [0x00150000, 0x48e9d425, 0x96125ebd, 0xbf8fc0af, 0x095a7248] ∧
      (regsAfter (iterAt 16 0xffffffffffffffff 0 0) [0x15]).map (fun r => (r.sec, r.blk)) = some (0, 0) ∧
      response (cipherAt .enc .continuous 32 5 0) [0x15] = some [0x00153503] := by decide +kernel

/-- V-T-CTX lines 6, 14 and 18 (J = 3 is not checked against BPS = 2). -/
theorem test_twkComp :
    response Regs.zero [0x16, 0, 0, 0, 0] = some [0x00163103] ∧
      (response (cipherAt .enc .continuous 32 5 0) [0x16, 5, 0, 3, 0]).map (List.take 1) = some [0x00160000] ∧
      response disposedRegs [0x16, 0, 0, 0, 0] = some [0x00163003] := by decide +kernel

/-- V-T-CTX lines 7 and 15. -/
theorem test_twkComp128 :
    response Regs.zero [0x17, 0, 0, 0, 0, 0, 0] = some [0x00173103] ∧
      (response (cipherAt .enc .continuous 32 5 0) [0x17, 5, 0, 0, 0, 3, 0]).map (List.take 1) = some [0x00170000] := by
  decide +kernel

/-- V-SC7 line 1, and 42_xts.md R150 for a sector size of 15. -/
theorem test_xtsInit :
    (regsAfter (iterAt 16 3 0 7) [0x220, 1, 0, 0, 0, 2, 0, 0, 0, 32, 0, 9, 0]).map
        (fun r => ((r.ctx, r.dir, r.mode), (r.k1, r.k2), r.secsz, r.startSec, r.sec, r.blk)) =
        some ((.cipher, .enc, .independent), (1, 2), 32, 9, 9, 0) ∧
      response Regs.zero [0x20, 1, 0, 0, 0, 2, 0, 0, 0, 15, 0, 9, 0] = some [0x00201001] := by decide +kernel

/-- V-X-IND line 3 (20 bytes: nothing emitted, 20 pending) and V-SC7 line 3. -/
theorem test_xtsProc_budget :
    response (cipherAt .enc .independent 32 9 0) [0x21, 20, 0xffffffff, 0, 0, 0, 0, 0] = some [0x00210000, 0] ∧
      (regsAfter (cipherAt .enc .independent 32 9 0) [0x21, 20, 0xffffffff, 0, 0, 0, 0, 0]).map
        (fun r => (r.plen, r.sbytes)) = some (20, 20) ∧
      response { cipherAt .enc .independent 32 9 16 with blk := 1, sbytes := 32 } [0x21, 1, 0xffffffff, 0x20] =
        some [0x00213203] := by decide +kernel

/-- V-SC6 line 4: 33 bytes emit 16 and leave 17 at (0, 1); 16 bytes of output room is what it needs. -/
theorem test_xtsProc_emits :
    (response (cipherAt .enc .continuous 32 0 0) [0x21, 33, 16, 0, 0, 0, 0, 0, 0, 0, 0, 0x20]).map (List.take 2) =
        some [0x00210000, 16] ∧
      (regsAfter (cipherAt .enc .continuous 32 0 0) [0x21, 33, 16, 0, 0, 0, 0, 0, 0, 0, 0, 0x20]).map
        (fun r => (r.sec, r.blk, r.plen, r.pend[16])) = some (0, 1, 17, 0x20) ∧
      response (cipherAt .enc .continuous 32 0 0) [0x21, 33, 15, 0, 0, 0, 0, 0, 0, 0, 0, 0x20] = some [0x00211101] := by
  decide +kernel

/-- V-SC6 line 5; V-X-SEC32, L = 17 and L = 40. -/
theorem test_xtsFin_straddle :
    response { cipherAt .enc .continuous 32 0 17 with blk := 1 } [0x22, 0, 0xffffffff] = some [0x00221301] ∧
      (response (cipherAt .enc .continuous 32 5 0) [0x22, 17, 0xffffffff, 0, 0, 0, 0, 0x10]).map (List.take 2) =
        some [0x00220000, 17] ∧
      response (cipherAt .dec .continuous 32 5 24) [0x22, 16, 0xffffffff, 0, 0, 0, 0] = some [0x00221301] := by
  decide +kernel

/-- 42_xts.md R171 and R179; V-SC7 line 5: the unit ends back at (9, 0) with nothing pending. -/
theorem test_xtsFin_checks_and_resets :
    response (cipherAt .enc .independent 32 9 0) [0x22, 15, 0, 0, 0, 0, 0] = some [0x00221201] ∧
      response (cipherAt .enc .independent 32 9 16) [0x22, 0, 15] = some [0x00221101] ∧
      (regsAfter { cipherAt .enc .independent 32 9 16 with blk := 1, sbytes := 32 } [0x22, 0, 16]).map
        (fun r => (r.sec, r.blk, r.plen, r.sbytes)) = some (9, 0, 0, 0) := by decide +kernel

/-- V-X-IND lines 2 and 4; 42_xts.md R178 for the 64-bit variant. -/
theorem test_xtsPupd :
    response (cipherAt .enc .independent 32 9 0) [0x23, 33, 0] = some [0x00233203] ∧
      response (cipherAt .enc .independent 32 9 20) [0x23, 12, 0] = some [0x00230000, 16, 0] ∧
      response (cipherAt .enc .continuous 32 9 1) [0x123, 0xffffffff, 0x7fffffff] = some [0x00233403] := by decide +kernel

/-- V-SC6 line 6; 42_xts.md R178 for the 32-bit variant. -/
theorem test_xtsPfin :
    response (cipherAt .enc .continuous 32 0 17) [0x24, 0, 0] = some [0x00240000, 17, 0] ∧
      response (cipherAt .enc .continuous 32 0 0) [0x24, 0x80000000, 0] = some [0x00243303] ∧
      response (cipherAt .enc .continuous 32 0 0) [0x124, 0x80000000, 0] = some [0x00240000, 0x80000000, 0] := by
  decide +kernel

/-- 42_xts.md R180: the configured start again, the configuration kept; and R151 in ITER. -/
theorem test_xtsReset :
    (regsAfter { cipherAt .enc .independent 32 9 17 with blk := 1, sbytes := 33 } [0x25]).map
        (fun r => ((r.ctx, r.mode, r.secsz), r.sec, r.blk, r.plen, r.sbytes)) =
        some ((.cipher, .independent, 32), 9, 0, 0, 0) ∧
      response (iterAt 16 3 0 7) [0x25] = some [0x00253103] := by decide +kernel

/-- V-SC9 lines 4 and 6, and R181 in NONE. -/
theorem test_xtsDisp :
    regsAfter (cipherAt .enc .continuous 512 3 24) [0x26] = some disposedRegs ∧
      regsAfter disposedRegs [0x26] = some disposedRegs ∧ regsAfter Regs.zero [0x26] = some Regs.zero := by decide +kernel

/-- 42_xts.md R183. -/
theorem test_info : response disposedRegs [0x30] = some [0x00300000, 0x00000010] := by decide +kernel

/-! ## Illegal headers, waiting and reset -/

/-- 30_encoding.md R82 to R84: the order of the header checks, and one word consumed. -/
theorem test_illegal_headers :
    response Regs.zero [0x00010105] = some [0x00050104] ∧ response Regs.zero [0x00010101] = some [0x00010204] ∧
      response Regs.zero [0x00001020] = some [0x00200304] ∧
      (stepped (fed Regs.zero [0x00001020, 0x30])).map (·.cmdIn) = some [0x30] := by decide +kernel

/-- 70_reset_and_hazards.md R235: a command whose words have not all arrived waits. -/
theorem test_partial_command_waits : stepped (fed Regs.zero [3, 1]) = some (fed Regs.zero [3, 1]) := by decide +kernel

/-- 70_reset_and_hazards.md R230, R236. -/
theorem test_reset_and_back_pressure :
    stepped { fed (iterAt 16 3 0 7) [3, 1] with respOut := [1], rst := true } = some State.reset ∧
      stepped { fed (iterAt 16 3 0 7) [0x13] with respFull := true } =
        some { fed (iterAt 16 3 0 7) [0x13] with respFull := true } := by decide +kernel

/-- 70_reset_and_hazards.md R230: any partly received command is discarded, behind a whole command (INFO, then GF_POW with one
payload word missing) and behind an illegal header and a whole command (then an XTS_PROC without its data). -/
theorem test_reset_discards_partial_behind_whole :
    (stepped { fed Regs.zero [0x30, 3, 1] with rst := true }).map (·.cmdIn) = some [0x30] ∧
      (stepped { fed Regs.zero [0x05, 3, 1, 2, 0x21, 8, 16, 7] with rst := true }).map (·.cmdIn) = some [0x05, 3, 1, 2] := by
  decide +kernel

/-- The fetch word runs as the first instruction after reset. -/
theorem test_withFetchWord :
    decodeTableWord 32 0x123 = some (.xtsPupd .w64 0) ∧
      (stepped (State.reset.withFetchWord 32 0x30)).map (·.respOut) = some [0x00300000, 0x10] := by decide +kernel

/-! ## Hypotheses are met: for each statement that has some, a concrete state and operands that meet all of them -/

/-- An iterator at (5, 0) or (5, 1) of a sector of two blocks, its tweak the right one. -/
def walkIter (blk : Nat) : Regs := iterAt 32 5 (BitVec.ofNat 64 blk) (dbl^[blk] (aesE keyA (BitVec.setWidth 128 (5 : U64))))

/-- `n` bytes of zeros. -/
def zeros (n : Nat) : List Byte := List.replicate n 0

/-- The state of a cipher that nothing has been given yet. -/
def freshCipher (dir : Dir) (mode : Mode) (n : Nat) : State := fed (cipherAt dir mode 64 5 n) []

theorem walkIter_inv (blk : Nat) (h : blk < 2) : (walkIter blk).Inv where
  invalidZero := ⟨rfl, rfl, rfl, rfl, rfl, rfl, rfl, rfl⟩
  sectorSize _ := (by decide : 16 ≤ (32 : U64).toNat)
  blockRange _ := by interval_cases blk <;> decide
  tweak _ := by interval_cases blk <;> rfl
  pendTail i _ := by simp [walkIter, iterAt, Regs.zero]
  budget h := by cases h
  noBudget _ := rfl
  dataKeyTop _ := (by decide : (0 : BitVec 256).toNat < 2 ^ 128)
  tweakKeyTop _ := (by decide : (keySlot keyA).toNat < 2 ^ 128)

theorem freshCipher_inv (dir : Dir) (mode : Mode) : (freshCipher dir mode 0).regs.Inv where
  invalidZero := trivial
  sectorSize _ := (by decide : 16 ≤ (64 : U64).toNat)
  blockRange _ := (by decide : (0 : U64).toNat < ((64 : U64).toNat + 15) / 16)
  tweak _ := rfl
  pendTail i _ := by simp [freshCipher, fed, cipherAt, Regs.zero]
  budget _ _ := by
    cases mode <;> exact (by decide : (0 : U64).toNat ≤ (64 : U64).toNat)
  noBudget _ := by cases mode <;> rfl
  dataKeyTop _ := (by decide : (keySlot keyA).toNat < 2 ^ 128)
  tweakKeyTop _ := (by decide : (keySlot keyA).toNat < 2 ^ 128)

theorem test_hyp_DecodeOfEncode :
    (Instr.xtsFin 0 (List.replicate (2 ^ 32 - 1) 0)).wellFormed = true ∧ Instr.info.wellFormed = true := by
  simp only [Instr.wellFormed, dataFits, List.length_replicate]; decide

theorem test_hyp_EncodeOfDecode :
    decode [0x21, 1, 0, 0xaaaaaa20] = .command (.xtsProc 0 [0x20]) 4 ∧ decode [0x14] = .command .twkAdv 1 := by decide

theorem test_hyp_DecodeReadsOnlyItsOwnWords :
    (decode [0x03, 1, 2, 0x14] = .command (.gfPow 0x200000001) 3 ∧
      ([0x03, 1, 2] : List Word).take 3 = ([0x03, 1, 2, 0x14] : List Word).take 3) ∧
    decode [0x05, 1] = .illegal .badOpc 5 := by decide

theorem test_hyp_FieldsAreLittleEndian :
    (0 + 8 ≤ ([1, 2, 3, 4, 5, 6, 7, 8] : List Word).length ∧ 7 + 1 ≤ ([1, 2, 3, 4, 5, 6, 7, 8] : List Word).length) ∧
      0 + (32 + 3) / 4 ≤ ([1, 2, 3, 4, 5, 6, 7, 8] : List Word).length ∧
      7 + (1 + 3) / 4 ≤ ([1, 2, 3, 4, 5, 6, 7, 8] : List Word).length := by decide

theorem test_hyp_PadBytesIgnoredAndZero :
    ((0x21 : Word) = 0x21 ∨ (0x21 : Word) = 0x22) ∧ ([0xaaaaaa20] : List Word).length = ([0x20] : List Word).length ∧
      (bytesOfWords [0xaaaaaa20]).take (1 : Word).toNat = (bytesOfWords [0x20]).take (1 : Word).toNat := by decide

/-- The boundary lengths of a fixed format, of XTS_INIT with all its flags, and of a DATA field; and a waiting state. -/
theorem test_hyp_CommandLengths :
    (([0, 0, 0] : List Word).length < 4 ∧ 4 ≤ ([0, 0, 0, 0] : List Word).length) ∧
    ((3 < 4 ∧ 1 < 2) ∧ (List.replicate 19 (0 : Word)).length < 12 + 4 * 1 + 4 * 1 ∧
      12 + 4 * 1 + 4 * 1 ≤ (List.replicate 20 (0 : Word)).length) ∧
    (([] : List Word).length < ((1 : Word).toNat + 3) / 4 ∧ ((1 : Word).toNat + 3) / 4 ≤ ([0] : List Word).length) ∧
    ((fed Regs.zero [3, 1]).rst = false ∧ decode (fed Regs.zero [3, 1]).cmdIn = .incomplete) := by decide

/-- The three header checks, each at its boundary, with the checks in the form the statement gives them. -/
theorem test_hyp_IllegalHeadersRejected :
    ((fed Regs.zero [0x31]).rst = false ∧ (fed Regs.zero [0x31]).respFull = false ∧ (fed Regs.zero [0x31]).cmdIn = 0x31 :: []) ∧
    (let failing := fun h : Word =>
      let opc := h.toNat % 256
      let flg := h.toNat / 256 % 256
      let definedFlags := if opc = 0x10 ∨ opc = 0x23 ∨ opc = 0x24 then 1 else if opc = 0x20 then 15 else 0
      firstReported
        [(decide (opc = 0 ∨ (0x05 ≤ opc ∧ opc ≤ 0x0F) ∨ (0x18 ≤ opc ∧ opc ≤ 0x1F) ∨ (0x27 ≤ opc ∧ opc ≤ 0x2F) ∨ 0x31 ≤ opc),
            4, 0x01),
          (decide (h.toNat / 65536 ≠ 0), 4, 0x02), (decide (definedFlags < flg), 4, 0x03)]
    failing 0x31 = some (4, 0x01) ∧ failing 0x00010101 = some (4, 0x02) ∧ failing 0x00001020 = some (4, 0x03) ∧
      failing 0x0210 = some (4, 0x03) ∧ failing 0x0101 = some (4, 0x03) ∧ failing 0x0F20 = none) := by decide

theorem test_hyp_StepRunsDecodedCommand :
    (fed Regs.zero [0x14, 7]).rst = false ∧ (fed Regs.zero [0x14, 7]).respFull = false ∧
      decode (fed Regs.zero [0x14, 7]).cmdIn = .command .twkAdv 1 := by decide

/-- For HardwareResetClears and HardwareResetKeepsWholeCommands: a partial command alone, and one behind a whole one. -/
theorem test_hyp_HardwareResetClears :
    ({ fed (walkIter 1) [3, 1] with rst := true } : State).rst = true ∧
      decode ({ fed (walkIter 1) [3, 1] with rst := true } : State).cmdIn = .incomplete ∧
      ({ fed (walkIter 1) [0x30, 3, 1] with rst := true } : State).rst = true := ⟨rfl, by decide, rfl⟩

theorem test_hyp_BackPressureHoldsTheCommand :
    ({ fed Regs.zero [0x14] with respFull := true } : State).rst = false ∧
      ({ fed Regs.zero [0x14] with respFull := true } : State).respFull = true := by decide

theorem test_hyp_OneResponsePerCommand :
    decode (fed Regs.zero [0x30]).cmdIn ≠ .incomplete ∧ ∃ s', step (fed Regs.zero [0x30]) = .next s' :=
  ⟨by decide, _, rfl⟩

theorem test_hyp_FailedCommandsChangeNothing :
    (exec .twkAdv (fed Regs.zero []) = .next { fed Regs.zero [] with respOut := [] ++ [0x00143103] } ∧
      (0x00143103 : Word).extractLsb' 0 8 ≠ 0) ∧
    decode (fed Regs.zero [0x05]).cmdIn = .illegal .badOpc 5 ∧ ∃ s', step (fed Regs.zero [0x05]) = .next s' :=
  ⟨⟨rfl, by decide⟩, by decide, _, rfl⟩

theorem test_hyp_CommandsOnlyAppendResponses : ∃ s', exec .xtsReset (freshCipher .enc .independent 3) = .next s' := ⟨_, rfl⟩

/-- The header clause; the other clauses have no hypothesis. -/
theorem test_hyp_ErrorPrecedence :
    (fed Regs.zero [0x00001020]).rst = false ∧ (fed Regs.zero [0x00001020]).respFull = false ∧
      (fed Regs.zero [0x00001020]).cmdIn = 0x00001020 :: [] ∧
      (let h : Word := 0x00001020
      firstReported
        [(decide (h.toNat % 256 ∉ [0x01, 0x02, 0x03, 0x04, 0x10, 0x11, 0x12, 0x13, 0x14, 0x15, 0x16, 0x17, 0x20, 0x21, 0x22,
            0x23, 0x24, 0x25, 0x26, 0x30]), 4, 0x01),
          (decide (h.toNat / 65536 ≠ 0), 4, 0x02),
          (decide (h.toNat / 256 % 256 >
            (match h.toNat % 256 with | 0x10 => 1 | 0x20 => 15 | 0x23 => 1 | 0x24 => 1 | _ => 0)), 4, 0x03)]
        = some (4, 3)) := by decide

/-- Both clauses of the byte rule, and a raw index equal to a sector number. -/
theorem test_hyp_SectorIndexBytes : (7 < 16 ∧ 15 < 16) ∧ (5 : Block).toNat = (5 : U64).toNat := by decide

/-- For StatelessTweakCommandsAnswer and TweakReadsAnswer: both contexts. -/
theorem test_hyp_HasIterator :
    (fed (walkIter 1) []).regs.HasIterator ∧ (freshCipher .dec .independent 3).regs.HasIterator := ⟨.inl rfl, .inr rfl⟩

/-- Both cases of the advance. -/
theorem test_hyp_TweakAdvanceAnswers :
    (fed (walkIter 1) []).regs.ctx = .iter ∧
      (fed (walkIter 1) []).regs.blk.toNat + 1 = ((fed (walkIter 1) []).regs.secsz.toNat + 15) / 16 ∧
      (fed (walkIter 0) []).regs.ctx = .iter ∧
      (fed (walkIter 0) []).regs.blk.toNat + 1 ≠ ((fed (walkIter 0) []).regs.secsz.toNat + 15) / 16 :=
  ⟨rfl, by decide, rfl, by decide⟩

theorem test_hyp_RolloverTieBreak :
    (walkIter 1).blk.toNat < ((walkIter 1).secsz.toNat + 15) / 16 ∧
      (walkIter 1).blk.toNat = ((walkIter 1).secsz.toNat + 15) / 16 - 1 ∧
      (walkIter 0).blk.toNat < ((walkIter 0).secsz.toNat + 15) / 16 ∧
      (walkIter 0).blk.toNat ≠ ((walkIter 0).secsz.toNat + 15) / 16 - 1 := ⟨by decide, by decide, by decide, by decide⟩

/-- For IteratorWalk and StatefulEqualsStateless. -/
theorem test_hyp_IteratorWalk :
    ((walkIter 1).Inv ∧ (walkIter 1).HasIterator) ∧
      (freshCipher .enc .continuous 0).regs.Inv ∧ (freshCipher .enc .continuous 0).regs.HasIterator :=
  ⟨⟨walkIter_inv 1 (by omega), .inl rfl⟩, freshCipher_inv _ _, .inr rfl⟩

/-- For TwkInitBuildsIterator and XtsInitBuildsCipher: the smallest and the largest sector, the last block of each. -/
theorem test_hyp_constructors :
    (16 ≤ (16 : U64).toNat ∧ (0 : U64).toNat < ((16 : U64).toNat + 15) / 16) ∧
      16 ≤ (0xffffffffffffffff : U64).toNat ∧
      (0x0fffffffffffffff : U64).toNat < ((0xffffffffffffffff : U64).toNat + 15) / 16 := by decide

theorem test_hyp_TwkResetReloadsIterator :
    (fed (walkIter 1) []).regs.ctx = .iter ∧ 16 ≤ (33 : U64).toNat ∧ (2 : U64).toNat < ((33 : U64).toNat + 15) / 16 :=
  ⟨rfl, by decide, by decide⟩

/-- The largest total in Continuous mode, and the last byte of the budget in Independent mode. -/
theorem test_hyp_accepts :
    (freshCipher .enc .continuous 31).regs.accepts (2 ^ 31 - 1 - 31) ∧
      (freshCipher .enc .independent 0).regs.accepts 64 := by
  refine ⟨⟨rfl, by decide, fun h => ?_⟩, rfl, by decide, fun _ => by decide⟩
  cases h

/-- Nothing to emit with 31 bytes pending and in, and one block of room for 32. -/
theorem test_hyp_XtsProcTransformsBlocks :
    ((freshCipher .enc .continuous 30).regs.accepts (zeros 1).length ∧ 16 * ((30 + 1) / 16 - 1) ≤ (0 : U32).toNat) ∧
      (freshCipher .dec .independent 31).regs.accepts (zeros 1).length ∧ 16 * ((31 + 1) / 16 - 1) ≤ (16 : U32).toNat := by
  refine ⟨⟨⟨rfl, by decide, fun h => ?_⟩, by decide⟩, ⟨rfl, by decide, fun _ => by decide⟩, by decide⟩
  cases h

/-- Nothing at all, and two blocks. -/
theorem test_hyp_XtsFinTransformsAlignedUnit :
    ((freshCipher .enc .continuous 0).regs.accepts (zeros 0).length ∧ (0 + 0) % 16 = 0 ∧ 0 + 0 ≤ (0 : U32).toNat) ∧
      (freshCipher .dec .independent 31).regs.accepts (zeros 1).length ∧ (31 + 1) % 16 = 0 ∧ 31 + 1 ≤ (32 : U32).toNat := by
  refine ⟨⟨⟨rfl, by decide, fun h => ?_⟩, by decide, by decide⟩, ⟨rfl, by decide, fun _ => by decide⟩, by decide, by decide⟩
  cases h

/-- For XtsFinStealsEncrypting and XtsFinStealsDecrypting: 17 bytes at block 0, in each direction, SECSZ = 64. -/
theorem test_hyp_XtsFinSteals :
    ((freshCipher .enc .continuous 1).regs.accepts (zeros 16).length ∧ (freshCipher .enc .continuous 1).regs.dir = .enc) ∧
      ((freshCipher .dec .continuous 1).regs.accepts (zeros 16).length ∧ (freshCipher .dec .continuous 1).regs.dir = .dec) ∧
      (1 + 16) % 16 ≠ 0 ∧ 16 ≤ 1 + 16 ∧ 1 + 16 ≤ (17 : U32).toNat ∧
      ((freshCipher .enc .continuous 1).regs.blk.toNat + ((1 + 16) / 16 - 1)) % ((64 + 15) / 16) ≠ (64 + 15) / 16 - 1 := by
  refine ⟨⟨⟨rfl, by decide, fun h => ?_⟩, rfl⟩, ⟨⟨rfl, by decide, fun h => ?_⟩, rfl⟩, by decide, by decide, by decide, by decide⟩ <;>
    cases h

/-- Both sides of the threshold 32. -/
theorem test_hyp_EmissionCount : (31 : Nat) ≤ 31 ∧ (32 : Nat) ≤ 32 := by decide

/-- The largest totals of both variants, and the last byte of the budget. -/
theorem test_hyp_PredictCommandsAnswer :
    (freshCipher .enc .continuous 31).regs.ctx = .cipher ∧
      (freshCipher .enc .continuous 31).regs.plen.toNat + (0x7fffffe0 : U64).toNat ≤ 2 ^ 31 - 1 ∧
      (freshCipher .enc .continuous 31).regs.plen.toNat + (0x7fffffffffffffe0 : U64).toNat ≤ 2 ^ 63 - 1 ∧
      (freshCipher .enc .independent 0).regs.ctx = .cipher ∧
      (freshCipher .enc .independent 0).regs.sbytes.toNat + (64 : U64).toNat ≤
        (freshCipher .enc .independent 0).regs.secsz.toNat :=
  ⟨rfl, by decide, by decide, rfl, by decide⟩

/-- Clause by clause: a prediction and the command it predicts; a total at and above the 32-bit limit; a failed prediction. -/
theorem test_hyp_PredictConsistency :
    (let s := freshCipher .enc .independent 0;
      exec (.xtsPupd .w32 (BitVec.ofNat 64 (zeros 32).length)) s = .next (s.answered 0x23 s.regs (u64Field 16)) ∧
      (∃ out s', Emits (.xtsProc 16 (zeros 32)) 0x21 s out s') ∧
      exec (.xtsPfin .w32 (BitVec.ofNat 64 (zeros 32).length)) s = .next (s.answered 0x24 s.regs (u64Field 32)) ∧
      ∃ out s', Emits (.xtsFin 32 (zeros 32)) 0x22 s out s') ∧
    (freshCipher .enc .continuous 31).regs.plen.toNat + (0x7fffffe0 : U64).toNat ≤ 2 ^ 31 - 1 ∧
    ((freshCipher .enc .continuous 31).regs.ctx = .cipher ∧
      2 ^ 31 - 1 < (freshCipher .enc .continuous 31).regs.plen.toNat + (0x7fffffe1 : U64).toNat ∧
      (freshCipher .enc .continuous 31).regs.plen.toNat + (0x7fffffe1 : U64).toNat ≤ 2 ^ 63 - 1 ∧
      (freshCipher .enc .continuous 31).regs.mode ≠ .independent) ∧
    (let s := freshCipher .enc .independent 0;
      exec (.xtsPupd .w32 (BitVec.ofNat 64 (zeros 65).length)) s = .next (s.failed 0x23 3 0x32) ∧
      exec (.xtsPfin .w32 (BitVec.ofNat 64 (zeros 65).length)) s = .next (s.failed 0x24 3 0x32)) :=
  ⟨⟨rfl, ⟨_, _, emits_proc _ _ _ (by decide)⟩, rfl, _, _, emits_fin _ _ _ (by decide)⟩, by decide,
    ⟨rfl, by decide, by decide, by decide⟩, rfl, rfl⟩

/-- Both sides of the equivalence: with SECSZ = 64 a unit of 50 bytes keeps off the last block and one of 65 does not. -/
theorem test_hyp_CtsStraddleRejected :
    (freshCipher .dec .continuous 0).regs.Inv ∧ (freshCipher .dec .continuous 0).regs.accepts (zeros 65).length ∧
      (freshCipher .dec .continuous 0).regs.mode = .continuous ∧ 16 ≤ 0 + 50 ∧ 16 ≤ 0 + 65 ∧ (0 + 65) % 16 ≠ 0 ∧
      ((freshCipher .dec .continuous 0).regs.blk.toNat + ((0 + 65) / 16 - 1)) % ((64 + 15) / 16) = (64 + 15) / 16 - 1 ∧
      ((freshCipher .dec .continuous 0).regs.blk.toNat + ((0 + 50) / 16 - 1)) % ((64 + 15) / 16) ≠ (64 + 15) / 16 - 1 := by
  refine ⟨freshCipher_inv _ _, ⟨rfl, by decide, fun h => ?_⟩, rfl, by decide, by decide, by decide, by decide, by decide⟩
  cases h

/-- The budget at its last byte and one beyond, a commit, an auto-reset and a prediction. -/
theorem test_hyp_IndependentBudget :
    (let s := freshCipher .enc .independent 16;
      s.regs.ctx = .cipher ∧ s.regs.plen.toNat + (zeros 49).length ≤ 2 ^ 31 - 1 ∧
      s.regs.secsz.toNat < s.regs.sbytes.toNat + (zeros 49).length ∧
      ¬ s.regs.secsz.toNat < s.regs.sbytes.toNat + (zeros 48).length ∧
      s.regs.plen.toNat + (0x7fffffef : U64).toNat ≤ 2 ^ 31 - 1 ∧
      s.regs.plen.toNat + (0x7fffffffffffffef : U64).toNat ≤ 2 ^ 63 - 1 ∧
      (∃ out s', Emits (.xtsProc 48 (zeros 48)) 0x21 s out s') ∧ (∃ out s', Emits (.xtsFin 64 (zeros 48)) 0x22 s out s') ∧
      ∃ s', exec (.xtsPupd .w64 48) s = .next s') :=
  ⟨rfl, by decide, by decide, by decide, by decide, by decide, ⟨_, _, emits_proc _ _ _ (by decide)⟩,
    ⟨_, _, emits_fin _ _ _ (by decide)⟩, _, rfl⟩

theorem test_hyp_XtsResetReturnsToStart : (freshCipher .dec .independent 17).regs.ctx = .cipher := rfl

theorem test_hyp_FinalizeAutoResets : ∃ out s', Emits (.xtsFin 17 (zeros 1)) 0x22 (freshCipher .dec .independent 16) out s' :=
  ⟨_, _, emits_fin _ _ _ (by decide)⟩

/-- The three kinds of context, and a command that needs an object. -/
theorem test_hyp_DisposeZeroizes :
    (fed (walkIter 1) []).regs.HasIterator ∧ (fed Regs.zero []).regs.ctx = .none ∧
      (fed disposedRegs []).regs.ctx = .disposed ∧
      (Instr.twkComp 0 0).opcode ∈ [Opcode.twkReset, .twkCur, .twkPos, .twkAdv, .twkTake, .twkComp, .twkComp128, .xtsProc,
        .xtsFin, .xtsPupd, .xtsPfin, .xtsReset] := ⟨.inl rfl, rfl, rfl, by decide⟩

theorem test_hyp_OnlyConstructorsWriteConfiguration :
    (∃ s', exec (.twkReset 16 1 0) (fed (walkIter 1) []) = .next s') ∧
      (Instr.twkReset 16 1 0).opcode ∉ [Opcode.twkInit, .xtsInit, .xtsDisp] ∧ Instr.twkAdv.opcode ≠ .twkReset :=
  ⟨⟨_, rfl⟩, by decide, by decide⟩

/-! ### Runs -/

/-- A run of two XTS_PROC commands that emits one block: 20 bytes, then 20 bytes. -/
theorem procRun_two (s : State) (h : s = freshCipher .enc .continuous 0 ∨ s = freshCipher .enc .independent 0) :
    ∃ out s', ProcRun [(0, zeros 20), (16, zeros 20)] s out s' ∧ finCheck s'.regs 10 50 = none := by
  rcases h with rfl | rfl <;>
    exact ⟨_, _, ⟨_, _, _, emits_proc _ _ _ (by decide), ⟨_, _, _, emits_proc _ _ _ (by decide), ⟨rfl, rfl⟩, rfl⟩, rfl⟩,
      by decide⟩

theorem test_hyp_LengthPreservation :
    (freshCipher .enc .continuous 0).regs.plen = 0 ∧
      ∃ out1 s1 out2 s2, ProcRun [(0, zeros 20), (16, zeros 20)] (freshCipher .enc .continuous 0) out1 s1 ∧
        Emits (.xtsFin 50 (zeros 10)) 0x22 s1 out2 s2 := by
  obtain ⟨out1, s1, h1, h2⟩ := procRun_two _ (.inl rfl)
  exact ⟨rfl, out1, s1, _, _, h1, emits_fin _ _ _ h2⟩

theorem test_hyp_StreamOrdering :
    ∃ out1 s1 out2 s2 out3 s3, ProcRun [(0, zeros 20), (16, zeros 20)] (freshCipher .enc .independent 0) out1 s1 ∧
      Emits (.xtsFin 50 (inputOf [(0, zeros 20), (16, zeros 20)] ++ zeros 10)) 0x22 (freshCipher .enc .independent 0) out3 s3 ∧
      Emits (.xtsFin 50 (zeros 10)) 0x22 s1 out2 s2 := by
  obtain ⟨out1, s1, h1, h2⟩ := procRun_two _ (.inr rfl)
  exact ⟨out1, s1, _, _, _, _, h1, emits_fin _ _ _ (by decide), emits_fin _ _ _ h2⟩

/-- An encrypting and a decrypting cipher of the same keys; 32 bytes encrypted in two fragments and decrypted in two. -/
theorem test_hyp_RoundTrip :
    ∃ (s d s1 s2 d1 d2 : State) (out1 out2 o1 o2 : List Byte),
      16 ≤ (64 : U64).toNat ∧
      exec (.xtsInit .enc .continuous keyA keyA 64 5) (fed Regs.zero []) = .next s ∧
      exec (.xtsInit .dec .continuous keyA keyA 64 5) (fed (walkIter 1) []) = .next d ∧
      ProcRun [(16, zeros 32)] s out1 s1 ∧ Emits (.xtsFin 16 []) 0x22 s1 out2 s2 ∧
      ProcRun [(0, out1)] d o1 d1 ∧ Emits (.xtsFin 32 out2) 0x22 d1 o2 d2 ∧
      inputOf [((0 : U32), out1)] ++ out2 = out1 ++ out2 ∧
      (inputOf [((16 : U32), zeros 32)] ++ []).length ≤ 2 ^ 31 - 1 ∧
      (inputOf [((16 : U32), zeros 32)] ++ []).length ≤ (32 : U32).toNat := by
  refine ⟨_, _, _, _, _, _, _, _, _, _, by decide, rfl, rfl, ⟨_, _, _, emits_proc _ _ _ (by decide), ⟨rfl, rfl⟩, rfl⟩,
    emits_fin _ _ _ (by decide), ⟨_, _, _, emits_proc _ _ _ (by decide), ⟨rfl, rfl⟩, rfl⟩, emits_fin _ _ _ (by decide),
    by simp [inputOf], by decide, by decide⟩

/-- Both cases of the invariant: 20 bytes, and 40. -/
theorem test_hyp_PendingHeldBack :
    (freshCipher .enc .continuous 0).regs.ctx = .cipher ∧ (freshCipher .enc .continuous 0).regs.plen = 0 ∧
      (∃ out s1, ProcRun [(0, zeros 31)] (freshCipher .enc .continuous 0) out s1) ∧
      (inputOf [((0 : U32), zeros 31)]).length ≤ 31 ∧
      (∃ out s1, ProcRun [(16, zeros 32)] (freshCipher .enc .continuous 0) out s1) ∧
      31 < (inputOf [((16 : U32), zeros 32)]).length :=
  ⟨rfl, rfl, ⟨_, _, _, _, _, emits_proc _ _ _ (by decide), ⟨rfl, rfl⟩, rfl⟩, by decide,
    ⟨_, _, _, _, _, emits_proc _ _ _ (by decide), ⟨rfl, rfl⟩, rfl⟩, by decide⟩

theorem test_hyp_EncodedCommandsRunInOrder :
    (∀ i ∈ [Instr.twkAdv, .xtsProc 0 [0x20], .info], i.wellFormed = true) ∧ (fed (walkIter 0) []).rst = false ∧
      (fed (walkIter 0) []).respFull = false := ⟨by decide, rfl, rfl⟩

/-- For StepKeepsRegsInv and StepKeepsIndependentLayout: a state with a command to execute. -/
theorem test_hyp_StepKeepsRegsInv :
    ({ freshCipher .enc .independent 0 with cmdIn := [0x25] } : State).regs.Inv ∧
      ({ freshCipher .enc .independent 0 with cmdIn := [0x25] } : State).regs.IndependentLayout ∧
      ∃ s', step { freshCipher .enc .independent 0 with cmdIn := [0x25] } = .next s' := by
  refine ⟨freshCipher_inv _ _, fun _ _ => ⟨rfl, by decide, fun _ => rfl, fun h => ?_⟩, _, rfl⟩
  exact absurd h (by decide)

end Sys2Proof.Tests
end

/-! # Proofs of the family 10_state.md: the pending buffer over a run of XTS_PROC (R33) -/

namespace Sys2Proof.Proofs

open Machine

/-- Emitting from `a` bytes, and then from what is held back together with `b` more, is emitting from all of them
(42_xts.md R162). -/
theorem nproc_add_held (a b : Nat) : nproc a + nproc (a - nproc a + b) = nproc (a + b) := by
  simp only [nproc, Config.blockBytes]
  omega

/-- A total that cannot spare a block is held back whole (10_state.md R33). -/
theorem sub_nproc_of_le (t : Nat) (h : t ≤ 31) : t - nproc t = t := by
  simp only [nproc, Config.blockBytes]
  omega

/-- Of a longer total, whole blocks leave until fewer than two are held back (10_state.md R33). -/
theorem sub_nproc_of_gt (t : Nat) (h : 31 < t) :
    16 ≤ t - nproc t ∧ t - nproc t ≤ 31 ∧ (t - nproc t) % 16 = t % 16 := by
  simp only [nproc, Config.blockBytes]
  omega

/-- No total is emitted whole: the last block is held back. -/
theorem nproc_lt (t : Nat) (h : 0 < t) : nproc t < t := by
  simp only [nproc, Config.blockBytes]
  omega

/-- What fits in the pending buffer emits nothing by itself. -/
theorem nproc_pending_length (r : Regs) : nproc r.pending.length = 0 := by
  have hlt := r.plen.isLt
  simp only [pending_length, nproc, Config.blockBytes]
  omega

/-- The bytes a block has taken in are cut in two by a transition from `r` to `r'` that emits `out` (10_state.md R33):
the first ones are emitted, as many as R162 says, and the others are pending. -/
def HoldsBack (r : Regs) (input out : List Byte) (r' : Regs) : Prop :=
  out.length = nproc (r.pending ++ input).length ∧
    r'.pending = (r.pending ++ input).drop (nproc (r.pending ++ input).length)

theorem holdsBack_nil (r : Regs) : HoldsBack r [] [] r := by
  simp [HoldsBack, nproc_pending_length]

theorem HoldsBack.append {r r1 r2 : Regs} {input1 input2 out1 out2 : List Byte} (h1 : HoldsBack r input1 out1 r1)
    (h2 : HoldsBack r1 input2 out2 r2) : HoldsBack r (input1 ++ input2) (out1 ++ out2) r2 := by
  obtain ⟨hout1, hpend1⟩ := h1
  obtain ⟨hout2, hpend2⟩ := h2
  unfold HoldsBack
  rw [← List.append_assoc]
  generalize r.pending ++ input1 = stream at hout1 hpend1 ⊢
  have hstream : r1.pending ++ input2 = (stream ++ input2).drop (nproc stream.length) := by
    rw [hpend1, List.drop_append_of_le_length (nproc_le _)]
  have hcount : nproc stream.length + nproc (r1.pending ++ input2).length = nproc (stream ++ input2).length := by
    rw [hpend1, List.length_append, List.length_append, List.length_drop, nproc_add_held]
  constructor
  · rw [List.length_append, hout1, hout2, hcount]
  · rw [hpend2, ← hcount, hstream, List.drop_drop]

theorem emits_proc_holdsBack {s s' : State} {cap : U32} {data out : List Byte}
    (h : Emits (.xtsProc cap data) 0x21 s out s') : HoldsBack s.regs data out s'.regs := by
  obtain ⟨-, rfl, rfl⟩ := emits_proc_inv s s' cap data out h
  unfold HoldsBack
  rw [List.length_append, pending_length]
  exact ⟨procEffect_length data s.regs, procEffect_pending data s.regs⟩

/-- How a run of XTS_PROC is cut into commands does not matter to what it holds back. -/
theorem procRun_holdsBack {chunks : List (U32 × List Byte)} {s s' : State} {out : List Byte}
    (h : ProcRun chunks s out s') : HoldsBack s.regs (inputOf chunks) out s'.regs := by
  induction chunks generalizing s out with
  | nil =>
    obtain ⟨rfl, rfl⟩ := h
    exact holdsBack_nil _
  | cons chunk rest ih =>
    obtain ⟨out1, s1, out2, hfirst, hrest, rfl⟩ := h
    exact (emits_proc_holdsBack hfirst).append (ih hrest)

theorem pending_eq_nil (r : Regs) (h : r.plen = 0) : r.pending = [] := by
  simp [Regs.pending, h]

/-- Settles O51: a run from an empty buffer holds back what one command with all its input would. -/
theorem pendingHeldBack : Obligations.PendingHeldBack := by
  intro s s1 chunks out _ hplen hrun n p
  obtain ⟨hout, hpend⟩ := procRun_holdsBack hrun
  rw [pending_eq_nil s.regs hplen, List.nil_append] at hout hpend
  have hcount : out.length = nproc n := hout
  have hp : p = n - nproc n := by
    rw [← List.length_drop, ← hpend, pending_length]
  have hle : nproc n ≤ n := nproc_le n
  refine ⟨fun h => hp.trans (sub_nproc_of_le n h), fun h => hp ▸ sub_nproc_of_gt n h, by omega, ?_, fun hne => ?_⟩
  · rw [show n - p = nproc n by omega]
    exact hpend
  · have hpos : 0 < out.length := List.length_pos_iff.mpr hne
    exact hcount ▸ nproc_lt n (by omega)

end Sys2Proof.Proofs

/-! # Proofs of the family 20_memory.md: sector indices (R54) and the order of a stream (R62) -/

namespace Sys2Proof.Proofs

open Machine

/-! ## A sector index as AES input bytes -/

/-- The low eight bytes of LE16(s) are the bytes of s and the others are zero (20_memory.md R54). -/
theorem le16_byte (sec : U64) (i : Nat) (h : i < 16) :
    (le16 sec).extractLsb' (8 * i) 8 = if i < 8 then (sec >>> (8 * i)).setWidth 8 &&& 0xFF else 0 := by
  rw [show (0xFF : Byte) = BitVec.allOnes 8 from rfl, BitVec.and_allOnes]
  ext k hk
  split
  · simp [le16, show 8 * i + k < 128 by omega]
  · have hzero : sec.getLsbD (8 * i + k) = false := BitVec.getLsbD_of_ge _ _ (by omega)
    simp [le16, hzero]

/-- A raw index is LE16(s) where its number is s (20_memory.md R54). -/
theorem eq_le16_of_toNat_eq (raw : Block) (sec : U64) (h : raw.toNat = sec.toNat) : raw = le16 sec := by
  apply BitVec.eq_of_toNat_eq
  rw [h, le16, BitVec.toNat_setWidth_of_le (by decide)]

/-- Settles O24: LE16 byte by byte, and both forms of the sector-start tweak as AES of the index. -/
theorem sectorIndexBytes : Obligations.SectorIndexBytes := by
  refine ⟨le16_byte, fun _ _ => ⟨rfl, rfl⟩, fun _ _ => rfl, fun k raw sec h => ?_⟩
  rw [eq_le16_of_toNat_eq raw sec h]
  rfl

/-! ## What the transform does not read

XTS_PROC leaves other values in PEND, PLEN and SBYTES than a single XTS_FIN would find there. The transform reads none of
the three, and neither does the auto-reset. -/

/-- The registers with the accounting of the data unit in hand erased. -/
def clearUnit (r : Regs) : Regs := { r with pend := padTo31 [], plen := 0, sbytes := 0 }

@[simp] theorem clearUnit_dir (r : Regs) : (clearUnit r).dir = r.dir := rfl
@[simp] theorem clearUnit_twk (r : Regs) : (clearUnit r).twk = r.twk := rfl
@[simp] theorem clearUnit_dataKey (r : Regs) : (clearUnit r).dataKey = r.dataKey := rfl

@[simp] theorem clearUnit_setPending (bs : List Byte) (r : Regs) : clearUnit (setPending bs r) = clearUnit r := rfl

@[simp] theorem clearUnit_budgetCommit (n : Nat) (r : Regs) : clearUnit (budgetCommit n r) = clearUnit r := by
  unfold budgetCommit; split <;> rfl

theorem iterAdvance_clearUnit (r : Regs) : iterAdvance (clearUnit r) = clearUnit (iterAdvance r) := by
  rcases iterAdvance_cases r with ⟨hlast, hadv⟩ | ⟨hinner, hadv⟩
  · rw [hadv]; exact if_pos hlast
  · rw [hadv]; exact if_neg hinner

theorem iterate_clearUnit (n : Nat) (r : Regs) : iterAdvance^[n] (clearUnit r) = clearUnit (iterAdvance^[n] r) :=
  (Function.Commute.iterate_left iterAdvance_clearUnit n) r

theorem transformedBlocks_clearUnit (r : Regs) (n : Nat) (stream : List Byte) :
    transformedBlocks (clearUnit r) n stream = transformedBlocks r n stream := by
  simp [transformedBlocks, iterate_clearUnit]

theorem ctsPair_clearUnit (a : Block) (tail : List Byte) (r : Regs) :
    (ctsPair a tail (clearUnit r)).2 = (ctsPair a tail r).2 := by
  unfold ctsPair
  rw [clearUnit_dir]
  cases r.dir <;> simp [ctsEnc, ctsDec, iterAdvance_clearUnit]

theorem finalTransform_clearUnit (stream : List Byte) (r : Regs) :
    (finalTransform stream (clearUnit r)).2 = (finalTransform stream r).2 := by
  rw [finalTransform_snd, finalTransform_snd, transformedBlocks_clearUnit, iterate_clearUnit, ctsPair_clearUnit]

/-- Registers that differ only in the accounting of the unit give the same bytes. -/
theorem finalTransform_congr (stream : List Byte) {r r' : Regs} (h : clearUnit r = clearUnit r') :
    (finalTransform stream r).2 = (finalTransform stream r').2 := by
  rw [← finalTransform_clearUnit, h, finalTransform_clearUnit]

theorem xtsBlocks_congr (n : Nat) (stream : List Byte) {r r' : Regs} (h : clearUnit r = clearUnit r') :
    (xtsBlocks n stream r).2 = (xtsBlocks n stream r').2 := by
  rw [xtsBlocks_snd, xtsBlocks_snd, ← transformedBlocks_clearUnit r, h, transformedBlocks_clearUnit]

/-! ## The bytes of a stream -/

/-- Blocks that leave early are none of a final CTS pair (42_xts.md R162, R170). -/
theorem div_sub_one_le_finBlocks (a b : Nat) : a / 16 - 1 ≤ finBlocks (a + b) := by
  simp only [finBlocks, Config.blockBytes]
  split <;> omega

/-- The blocks the final transform takes first lie in the stream. -/
theorem mul_le_of_le_finBlocks (k t : Nat) (h : k ≤ finBlocks t) : 16 * k ≤ t := by
  simp only [finBlocks, Config.blockBytes] at h
  split at h <;> omega

/-- Leading blocks taken off a stream leave the rest of its blocks. -/
theorem finBlocks_sub (k t : Nat) (h : k ≤ finBlocks t) : finBlocks (t - 16 * k) = finBlocks t - k := by
  have hmod : (t - 16 * k) % 16 = t % 16 := Nat.sub_mul_mod (mul_le_of_le_finBlocks k t h)
  simp only [finBlocks, Config.blockBytes, hmod]
  split <;> omega

/-- The final transform begins with the leading blocks, and goes on as the final transform of what follows them
(42_xts.md R170). -/
theorem finalTransform_split (k : Nat) (stream : List Byte) (r : Regs) (h : k ≤ finBlocks stream.length) :
    (finalTransform stream r).2 =
      (xtsBlocks k stream r).2 ++ (finalTransform (stream.drop (16 * k)) (iterAdvance^[k] r)).2 := by
  obtain ⟨n, hn⟩ := Nat.exists_eq_add_of_le h
  have hrest : finBlocks (stream.drop (16 * k)).length = n := by
    rw [List.length_drop, finBlocks_sub k _ h, hn, Nat.add_sub_cancel_left]
  have hmod : (stream.drop (16 * k)).length % 16 = stream.length % 16 := by
    rw [List.length_drop]
    exact Nat.sub_mul_mod (mul_le_of_le_finBlocks k _ h)
  have hdrop (m : Nat) : (stream.drop (16 * k)).drop (16 * n + m) = stream.drop (16 * (k + n) + m) := by
    rw [List.drop_drop, ← Nat.add_assoc, ← Nat.mul_add]
  have hdrop0 : (stream.drop (16 * k)).drop (16 * n) = stream.drop (16 * (k + n)) := hdrop 0
  rw [finalTransform_snd, finalTransform_snd, hrest, hn, hmod, hdrop, hdrop0, ← xtsBlocks_snd, ← xtsBlocks_snd,
    xtsBlocks_add, xtsBlocks_fst k, ← Function.iterate_add_apply, Nat.add_comm n k, List.append_assoc]

/-- What XTS_FIN emits is the final transform of the stream, and the commit plays no part in it (42_xts.md R170). -/
theorem finEffect_snd (data : List Byte) (r : Regs) :
    (finEffect data r).2 = (finalTransform (r.pending ++ data) r).2 :=
  finalTransform_congr _ (clearUnit_budgetCommit _ _)

/-- What XTS_PROC emits is the leading blocks of the stream, and the commit plays no part in it (42_xts.md R163). -/
theorem procEffect_snd (data : List Byte) (r : Regs) :
    (procEffect data r).2 = (xtsBlocks ((r.plen.toNat + data.length) / 16 - 1) (r.pending ++ data) r).2 := by
  rw [← nproc_div, ← pending_length, ← List.length_append]
  exact xtsBlocks_congr _ _ (clearUnit_budgetCommit _ _)

/-- XTS_PROC leaves the iterator as many blocks further on as it emits, whatever was committed (42_xts.md R163). -/
theorem clearUnit_procEffect (data : List Byte) (r : Regs) :
    clearUnit (procEffect data r).1 = clearUnit (iterAdvance^[(r.plen.toNat + data.length) / 16 - 1] r) := by
  rw [procEffect_fst, clearUnit_setPending, ← iterate_clearUnit, clearUnit_budgetCommit, iterate_clearUnit]

/-- XTS_PROC and then XTS_FIN emit what XTS_FIN does on both inputs (20_memory.md R62). -/
theorem procEffect_append_finEffect (data more : List Byte) (r : Regs) :
    (procEffect data r).2 ++ (finEffect more (procEffect data r).1).2 = (finEffect (data ++ more) r).2 := by
  have hlen : (r.pending ++ data).length = r.plen.toNat + data.length := by rw [List.length_append, pending_length]
  generalize hk : (r.plen.toNat + data.length) / 16 - 1 = k
  have hnproc : nproc (r.plen.toNat + data.length) = 16 * k := by
    rw [← hk, Nat.mul_comm]
    rfl
  have hheld : 16 * k ≤ (r.pending ++ data).length := by omega
  have hpending : (procEffect data r).1.pending ++ more = (r.pending ++ data ++ more).drop (16 * k) := by
    rw [procEffect_pending, hnproc, List.drop_append_of_le_length hheld]
  have hemitted : (procEffect data r).2 = (xtsBlocks k (r.pending ++ data ++ more) r).2 := by
    rw [procEffect_snd, hk, ← xtsBlocks_take k _ (r.pending ++ data ++ more) r hheld, List.take_left]
  have hblocks : k ≤ finBlocks (r.pending ++ data ++ more).length := by
    rw [List.length_append, hlen, ← hk]
    exact div_sub_one_le_finBlocks _ _
  calc (procEffect data r).2 ++ (finEffect more (procEffect data r).1).2
      = (xtsBlocks k (r.pending ++ data ++ more) r).2 ++
          (finalTransform ((r.pending ++ data ++ more).drop (16 * k)) (iterAdvance^[k] r)).2 := by
        rw [hemitted, finEffect_snd, hpending, finalTransform_congr _ (hk ▸ clearUnit_procEffect data r)]
    _ = (finalTransform (r.pending ++ data ++ more) r).2 := (finalTransform_split k _ r hblocks).symm
    _ = (finEffect (data ++ more) r).2 := by rw [finEffect_snd, List.append_assoc]

/-! ## The auto-reset -/

theorem autoReset_congr {r r' : Regs} (h : clearUnit r = clearUnit r') : autoReset r = autoReset r' :=
  congrArg (fun q : Regs => iterLoad q.secsz q.startSec 0 q) h

theorem autoReset_iterAdvance (r : Regs) : autoReset (iterAdvance r) = autoReset r := by
  rcases iterAdvance_cases r with ⟨-, hadv⟩ | ⟨-, hadv⟩ <;> rw [hadv] <;> rfl

/-- However far the iterator has advanced, the auto-reset leads back to one place (42_xts.md R182). -/
theorem autoReset_iterate (n : Nat) (r : Regs) : autoReset (iterAdvance^[n] r) = autoReset r :=
  iterate_frame autoReset autoReset_iterAdvance n r

theorem autoReset_procEffect (data : List Byte) (r : Regs) : autoReset (procEffect data r).1 = autoReset r := by
  rw [autoReset_congr (clearUnit_procEffect data r), autoReset_iterate]

/-- XTS_FIN leaves the registers at their start, whatever it was given (42_xts.md R170, R182). -/
theorem finEffect_fst (data : List Byte) (r : Regs) : (finEffect data r).1 = autoReset r := by
  have hfin : (finEffect data r).1 = autoReset (finalTransform (r.pending ++ data) (budgetCommit data.length r)).1 := rfl
  rw [hfin, finalTransform_fst, autoReset_iterate, autoReset_congr (clearUnit_budgetCommit _ _)]

/-! ## The order of a stream -/

/-- After a run of XTS_PROC, one XTS_FIN completes what XTS_FIN on the whole input emits, and leaves the same registers
(20_memory.md R62). -/
theorem procRun_finEffect {chunks : List (U32 × List Byte)} {s s1 : State} {out : List Byte}
    (h : ProcRun chunks s out s1) (last : List Byte) :
    out ++ (finEffect last s1.regs).2 = (finEffect (inputOf chunks ++ last) s.regs).2 ∧
      autoReset s1.regs = autoReset s.regs := by
  induction chunks generalizing s out with
  | nil =>
    obtain ⟨rfl, rfl⟩ := h
    exact ⟨rfl, rfl⟩
  | cons chunk rest ih =>
    obtain ⟨cap, data⟩ := chunk
    obtain ⟨out1, sMid, out2, hfirst, hrest, rfl⟩ := h
    obtain ⟨-, rfl, rfl⟩ := emits_proc_inv _ _ _ _ _ hfirst
    obtain ⟨hbytes, hregs⟩ := ih hrest
    constructor
    · calc (procEffect data s.regs).2 ++ out2 ++ (finEffect last s1.regs).2
          = (procEffect data s.regs).2 ++ (finEffect (inputOf rest ++ last) (procEffect data s.regs).1).2 := by
            rw [List.append_assoc, hbytes]
            rfl
        _ = (finEffect (data ++ (inputOf rest ++ last)) s.regs).2 := procEffect_append_finEffect _ _ _
        _ = (finEffect (inputOf ((cap, data) :: rest) ++ last) s.regs).2 := by rw [← List.append_assoc]; rfl
    · exact hregs.trans (autoReset_procEffect data s.regs)

/-- Settles O49: every XTS_PROC of a run leaves what follows it to emit the rest of the one final transform. -/
theorem streamOrdering : Obligations.StreamOrdering := by
  intro s s1 s3 chunks cap3 last out1 out3 hrun hwhole
  obtain ⟨hbytes, hregs⟩ := procRun_finEffect hrun last
  obtain ⟨-, rfl, rfl⟩ := emits_fin_inv _ _ _ _ _ hwhole
  refine ⟨⟨_, hbytes⟩, fun cap out2 s2 hclose => ?_⟩
  obtain ⟨-, rfl, rfl⟩ := emits_fin_inv _ _ _ _ _ hclose
  refine ⟨hbytes, ?_⟩
  calc (finEffect last s1.regs).1 = autoReset s1.regs := finEffect_fst _ _
    _ = autoReset s.regs := hregs
    _ = (finEffect (inputOf chunks ++ last) s.regs).1 := (finEffect_fst _ _).symm

end Sys2Proof.Proofs

/-! # Proofs of the family 30_encoding.md: the field types (R73), command lengths (R79), illegal headers (R82 to R84) -/

namespace Sys2Proof.Proofs

open Machine

/-! ## Fields as written: the digits of an integer are slices of its bits -/

/-- Byte `j` of the little-endian bytes of an integer is its bits 8j+7..8j (00_scope.md R10). -/
theorem leBytes_getD (n v j : Nat) (h : j < n) : (leBytes n v).getD j 0 = BitVec.ofNat 8 (v >>> (8 * j)) := by
  induction n generalizing v j with
  | zero => exact absurd h (Nat.not_lt_zero j)
  | succ n ih =>
    cases j with
    | zero => rfl
    | succ j =>
      rw [leBytes, List.getD_cons_succ, ih _ _ (by omega), Nat.mul_succ, Nat.add_comm, Nat.shiftRight_add]
      rw [Nat.shiftRight_eq_div_pow v 8]

/-- Word `j` of the words of an integer is its bits 32j+31..32j (30_encoding.md R73). -/
theorem leWords_getD (n v j : Nat) (h : j < n) : (leWords n v).getD j 0 = BitVec.ofNat 32 (v >>> (32 * j)) := by
  induction n generalizing v j with
  | zero => exact absurd h (Nat.not_lt_zero j)
  | succ n ih =>
    cases j with
    | zero => rfl
    | succ j =>
      rw [leWords, List.getD_cons_succ, ih _ _ (by omega), Nat.mul_succ, Nat.add_comm, Nat.shiftRight_add]
      rw [Nat.shiftRight_eq_div_pow v 32]

/-- A bit string written in words is its slices of 32 bits, the low one first (30_encoding.md R73). -/
theorem leWords_slice {w : Nat} (x : BitVec w) (n j : Nat) (h : j < n) :
    (leWords n x.toNat).getD j 0 = x.extractLsb' (32 * j) 32 :=
  leWords_getD n x.toNat j h

theorem u64Field_eq (v : U64) : u64Field v = [v.extractLsb' 0 32, v.extractLsb' 32 32] := by
  have h0 : (u64Field v).getD 0 0 = v.extractLsb' 0 32 := leWords_slice v 2 0 (by decide)
  have h1 : (u64Field v).getD 1 0 = v.extractLsb' 32 32 := leWords_slice v 2 1 (by decide)
  rw [← h0, ← h1]
  rfl

/-! ## Word strings as byte strings -/

/-- Byte `j` of a word string is byte `j mod 4` of its word `j / 4` (20_memory.md R56). -/
theorem bytesOfWords_getD (ws : List Word) (j : Nat) :
    (bytesOfWords ws).getD j 0 = (ws.getD (j / 4) 0).extractLsb' (8 * (j % 4)) 8 := by
  induction ws generalizing j with
  | nil => simp [bytesOfWords]
  | cons w ws ih =>
    rw [bytesOfWords_cons]
    rcases Nat.lt_or_ge j 4 with hj | hj
    · rw [List.getD_append _ _ _ _ (by simpa using hj), Nat.div_eq_of_lt hj, Nat.mod_eq_of_lt hj]
      exact leBytes_getD 4 w.toNat j hj
    · obtain ⟨k, rfl⟩ := Nat.exists_eq_add_of_le' hj
      rw [List.getD_append_right _ _ _ _ (by simp), wordBytes_length, Nat.add_sub_cancel, ih, Nat.add_div_right _ (by decide),
        Nat.add_mod_right, List.getD_cons_succ]

/-- Byte `j` of a DATA field as written (30_encoding.md R73). -/
theorem dataField_byte (bs : List Byte) (j : Nat) (h : j < bs.length) :
    ((dataField bs).getD (j / 4) 0).extractLsb' (8 * (j % 4)) 8 = bs.getD j 0 := by
  rw [← bytesOfWords_getD, dataField, (wordsOfBytes_spec bs).2, List.getD_append _ _ _ _ h]

/-! ## Fields as read from a payload -/

theorem wordsAt_length (p : List Word) (k n : Nat) (h : k + n ≤ p.length) : (wordsAt p k n).length = n := by
  rw [wordsAt, List.length_take, List.length_drop]
  omega

theorem wordsAt_getD (p : List Word) (k n j : Nat) (h : j < n) : (wordsAt p k n).getD j 0 = p.getD (k + j) 0 := by
  simp [wordsAt, List.getD_eq_getElem?_getD, h]

/-- A bit string read from `n` words has word `j` of them in its bits 32j+31..32j (30_encoding.md R73). -/
theorem fieldAt_word (p : List Word) (k n w j : Nat) (hw : 2 ^ w = (2 ^ 32) ^ n) (h : k + n ≤ p.length) (hj : j < n) :
    (BitVec.ofNat w (leNatOfWords (wordsAt p k n))).extractLsb' (32 * j) 32 = p.getD (k + j) 0 := by
  have hlen := wordsAt_length p k n h
  have hlt : leNatOfWords (wordsAt p k n) < 2 ^ w := by
    have := leNatOfWords_lt (wordsAt p k n)
    rwa [hlen, ← hw] at this
  have hwords := leWords_leNatOfWords (wordsAt p k n)
  rw [← leWords_slice _ n j hj, BitVec.toNat_ofNat, Nat.mod_eq_of_lt hlt, ← wordsAt_getD p k n j hj]
  rw [hlen] at hwords
  rw [hwords]

/-- A slice inside a slice. -/
theorem extractLsb'_extractLsb' {w : Nat} (x : BitVec w) (a m b n : Nat) (h : b + n ≤ m) :
    (x.extractLsb' a m).extractLsb' b n = x.extractLsb' (a + b) n := by
  ext i hi
  simp [Nat.add_assoc, show b + i < m by omega]

/-- Byte `4j+i` of it is then byte `i` of word `j` (30_encoding.md R73). -/
theorem fieldAt_byte (p : List Word) (k n w : Nat) (hw : 2 ^ w = (2 ^ 32) ^ n) (h : k + n ≤ p.length) :
    ∀ j < n, ∀ i < 4, (BitVec.ofNat w (leNatOfWords (wordsAt p k n))).extractLsb' (8 * (4 * j + i)) 8 =
      (p.getD (k + j) 0).extractLsb' (8 * i) 8 := by
  intro j hj i hi
  rw [← fieldAt_word p k n w j hw h hj, extractLsb'_extractLsb' _ _ _ _ _ (by omega)]
  congr 1
  omega

theorem getElem?_u32At (p : List Word) (k : Nat) (h : k + 1 ≤ p.length) : p[k]? = some (u32At p k) := by
  rw [u32At, List.getD_eq_getElem p 0 h, List.getElem?_eq_getElem h]

theorem u64At_toNat (p : List Word) (k : Nat) (h : k + 2 ≤ p.length) :
    (u64At p k).toNat = (p.getD k 0).toNat + 2 ^ 32 * (p.getD (k + 1) 0).toNat := by
  have hlow : (u64At p k).extractLsb' 0 32 = p.getD k 0 := fieldAt_word p k 2 64 0 rfl h (by decide)
  have hhigh : (u64At p k).extractLsb' 32 32 = p.getD (k + 1) 0 := fieldAt_word p k 2 64 1 rfl h (by decide)
  rw [← hlow, ← hhigh, BitVec.extractLsb'_toNat, BitVec.extractLsb'_toNat]
  have := (u64At p k).isLt
  omega

theorem dataAt_length (l : Nat) (p : List Word) (k : Nat) (h : k + dataWords l ≤ p.length) : (dataAt l p k).length = l := by
  rw [dataAt, List.length_take, bytesOfWords_length, wordsAt_length p k _ h, dataWords]
  omega

theorem dataAt_byte (l : Nat) (p : List Word) (k j : Nat) (h : j < l) :
    (dataAt l p k).getD j 0 = (p.getD (k + j / 4) 0).extractLsb' (8 * (j % 4)) 8 := by
  have htake : (dataAt l p k).getD j 0 = (bytesOfWords (wordsAt p k (dataWords l))).getD j 0 := by
    simp [dataAt, List.getD_eq_getElem?_getD, h]
  rw [htake, bytesOfWords_getD, wordsAt_getD]
  rw [dataWords]
  omega

/-- Settles O4: a written field's words are slices of it, and a read field is what those slices write back. -/
theorem fieldsAreLittleEndian : Obligations.FieldsAreLittleEndian := by
  refine ⟨fun p k => ⟨getElem?_u32At p k, u64At_toNat p k, fieldAt_byte p k 4 128 rfl, fun _ => rfl,
    fun h => ⟨_, rfl, fieldAt_byte p k 8 256 rfl h⟩, fun l h => ⟨dataAt_length l p k h, dataAt_byte l p k⟩⟩,
    fun _ => rfl, u64Field_eq, fun x => ⟨leWords_length 4 _, leWords_slice x 4⟩, fun k => ⟨leWords_length 4 _, leWords_slice k 4⟩,
    fun k => ⟨leWords_length 8 _, leWords_slice k 8⟩, fun bs => ⟨dataField_length bs, dataField_byte bs⟩⟩

/-! ## The lengths of commands -/

/-- Behind a legal header, the words of its format decide between waiting and a whole command (30_encoding.md R79). -/
theorem decode_by_length {h : Word} {op : Opcode} {p : List Word} {n : Nat} (hop : decodeHeader h = .ok op)
    (hn : payloadWords op (headerFlg h) p = n) :
    (p.length < n → decode (h :: p) = .incomplete) ∧ (n ≤ p.length → ∃ i, decode (h :: p) = .command i (1 + n)) := by
  subst hn
  exact ⟨decode_waits h p op hop, fun hl => ⟨_, decode_command h p op hop hl⟩⟩

/-- The headers of XTS_INIT, under all its flags (30_encoding.md R78, R81). -/
theorem xtsInit_header : ∀ dirMode < 4, ∀ ks1 < 2, ∀ ks2 < 2,
    let h : Word := BitVec.ofNat 32 (0x20 + 256 * (dirMode + 4 * ks1 + 8 * ks2))
    decodeHeader h = .ok .xtsInit ∧ payloadWords .xtsInit (headerFlg h) [] = 12 + 4 * ks1 + 4 * ks2 := by
  decide

/-- The lengths of format F_DATA (30_encoding.md R78, R79): a command waits for CAP whatever L is, and then for ⌈L/4⌉ words. -/
theorem data_command_length {h : Word} {op : Opcode} (hop : decodeHeader h = .ok op)
    (hdata : ∀ flg p, payloadWords op flg p = 2 + dataWords (u32At p 0).toNat) (l cap : Word) (d : List Word) :
    decode [h] = .incomplete ∧ decode [h, l] = .incomplete ∧
    (d.length < dataWords l.toNat → decode (h :: l :: cap :: d) = .incomplete) ∧
    (dataWords l.toNat ≤ d.length → ∃ i, decode (h :: l :: cap :: d) = .command i (3 + dataWords l.toNat)) := by
  have hlen (p : List Word) := decode_by_length (p := p) hop (hdata _ p)
  obtain ⟨hwaits, hwhole⟩ := hlen (l :: cap :: d)
  have hL : (u32At (l :: cap :: d) 0).toNat = l.toNat := rfl
  rw [hL] at hwaits hwhole
  refine ⟨(hlen []).1 (by simp), (hlen [l]).1 (by rw [List.length_singleton]; omega), fun h => hwaits ?_, fun h => ?_⟩
  · simp only [List.length_cons]; omega
  · rw [show 3 + dataWords l.toNat = 1 + (2 + dataWords l.toNat) by omega]
    exact hwhole (by simp only [List.length_cons]; omega)

/-- A command whose words have not all arrived is consumed and executed by no step (30_encoding.md R79). -/
theorem step_of_incomplete (s : State) (hrst : s.rst = false) (hdec : decode s.cmdIn = .incomplete) :
    step s = .next s := by
  rcases step_cases s with ⟨h, -⟩ | ⟨-, -, h⟩ | ⟨-, -, -, h⟩ | ⟨c, o, -, -, h, -⟩ | ⟨i, n, -, -, h, -⟩
  · rw [hrst] at h
    cases h
  · exact h
  · exact h
  all_goals
    rw [hdec] at h
    cases h

/-- Settles O7: each header decodes to its opcode, whose format has the words the statement lists. -/
theorem commandLengths : Obligations.CommandLengths := by
  refine ⟨fun h n p hmem => ?_, fun dirMode ks1 ks2 p hdm hks1 hks2 => ?_, fun h l cap d hh => ?_, step_of_incomplete⟩
  · fin_cases hmem <;> exact decode_by_length rfl rfl
  · obtain ⟨hop, hn⟩ := xtsInit_header dirMode hdm ks1 hks1 ks2 hks2
    exact decode_by_length hop hn
  · rcases hh with rfl | rfl
    · exact data_command_length (op := .xtsProc) rfl (fun _ _ => rfl) l cap d
    · exact data_command_length (op := .xtsFin) rfl (fun _ _ => rfl) l cap d

/-! ## Illegal headers -/

theorem headerOpc_toNat (h : Word) : (headerOpc h).toNat = h.toNat % 256 := by
  simp [headerOpc, BitVec.extractLsb'_toNat]

theorem headerFlg_toNat (h : Word) : (headerFlg h).toNat = h.toNat / 256 % 256 := by
  simp [headerFlg, BitVec.extractLsb'_toNat, Nat.shiftRight_eq_div_pow]

theorem headerRsv_eq_zero_iff (h : Word) : headerRsv h = 0 ↔ h.toNat / 65536 = 0 := by
  have := h.isLt
  change headerRsv h = 0#16 ↔ _
  rw [← BitVec.toNat_inj, headerRsv, BitVec.extractLsb'_toNat, Nat.shiftRight_eq_div_pow, BitVec.toNat_ofNat]
  omega

/-- An OPC byte names no opcode exactly where the opcode map has a gap (30_encoding.md R80, R82). -/
theorem ofByte_eq_none_iff (b : Byte) : Opcode.ofByte b = none ↔
    b.toNat = 0 ∨ (0x05 ≤ b.toNat ∧ b.toNat ≤ 0x0F) ∨ (0x18 ≤ b.toNat ∧ b.toNat ≤ 0x1F) ∨
      (0x27 ≤ b.toNat ∧ b.toNat ≤ 0x2F) ∨ 0x31 ≤ b.toNat := by
  unfold Opcode.ofByte
  split <;> simp only [reduceCtorEq, true_iff, false_iff]
  case h_21 => simp only [imp_false] at *; omega
  all_goals omega

theorem code_of_ofByte {b : Byte} {op : Opcode} (h : Opcode.ofByte b = some op) : op.code = b := by
  apply BitVec.eq_of_toNat_eq
  unfold Opcode.ofByte at h
  split at h <;> cases h <;> exact (by assumption : b.toNat = _).symm

/-- The defined flags of an opcode fill the low end of the FLG byte (30_encoding.md R81). -/
theorem flags_toNat (op : Opcode) : ∃ k, op.flags.toNat = 2 ^ k - 1 := by
  cases op
  case twkInit => exact ⟨1, rfl⟩
  case xtsPupd => exact ⟨1, rfl⟩
  case xtsPfin => exact ⟨1, rfl⟩
  case xtsInit => exact ⟨4, rfl⟩
  all_goals exact ⟨0, rfl⟩

/-- A bit string has no bit outside a mask exactly when the mask keeps all of it. -/
theorem and_not_eq_zero_iff {w : Nat} (x m : BitVec w) : x &&& ~~~m = 0#w ↔ x &&& m = x := by
  simp only [BitVec.eq_of_getElem_eq_iff, BitVec.getElem_and, BitVec.getElem_not, BitVec.getElem_zero]
  refine forall_congr' fun i => forall_congr' fun hi => ?_
  cases x[i] <;> cases m[i] <;> decide

/-- Where the defined bits are the low ones, an undefined bit is set exactly in the bytes above them (30_encoding.md R83). -/
theorem undefined_flag_iff (op : Opcode) (flg : Byte) : flg &&& ~~~ op.flags ≠ 0 ↔ op.flags.toNat < flg.toNat := by
  obtain ⟨k, hk⟩ := flags_toNat op
  have hpos := Nat.two_pow_pos k
  refine (and_not_eq_zero_iff flg op.flags).not.trans ?_
  rw [← BitVec.toNat_inj, BitVec.toNat_and, hk, Nat.and_two_pow_sub_one_eq_mod, Nat.mod_eq_iff_lt hpos.ne']
  omega

/-- The defined flags as the number 30_encoding.md R81 gives for each OPC. -/
theorem flags_toNat_by_code (op : Opcode) :
    op.flags.toNat = if op.code.toNat = 0x10 ∨ op.code.toNat = 0x23 ∨ op.code.toNat = 0x24 then 1
      else if op.code.toNat = 0x20 then 15 else 0 := by
  cases op <;> rfl

theorem decodeHeader_badOpc {h : Word} (hop : Opcode.ofByte (headerOpc h) = none) : decodeHeader h = .error .badOpc := by
  simp only [decodeHeader, hop]

theorem decodeHeader_rsvBits {h : Word} {op : Opcode} (hop : Opcode.ofByte (headerOpc h) = some op)
    (hrsv : headerRsv h ≠ 0) : decodeHeader h = .error .rsvBits := by
  simp only [decodeHeader, hop, if_pos hrsv]

theorem decodeHeader_badFlg {h : Word} {op : Opcode} (hop : Opcode.ofByte (headerOpc h) = some op)
    (hrsv : headerRsv h = 0) (hflg : op.flags.toNat < (headerFlg h).toNat) : decodeHeader h = .error .badFlg := by
  simp only [decodeHeader, hop, if_neg (not_not.mpr hrsv), if_pos ((undefined_flag_iff op _).mpr hflg)]

theorem firstReported_of_applies {check : Prop} [Decidable check] (h : check) (e : Nat × Nat) (rest : List (Bool × Nat × Nat)) :
    firstReported ((decide check, e) :: rest) = some e := by
  rw [decide_eq_true h]; rfl

theorem firstReported_of_not {check : Prop} [Decidable check] (h : ¬ check) (e : Nat × Nat) (rest : List (Bool × Nat × Nat)) :
    firstReported ((decide check, e) :: rest) = firstReported rest := by
  rw [decide_eq_false h]; rfl

/-- A step at an illegal header, in the spec's numbers (30_encoding.md R84). -/
theorem step_of_illegal {s : State} {h : Word} {rest : List Word} {c : Cause} (hrst : s.rst = false)
    (hfull : s.respFull = false) (hcmd : s.cmdIn = h :: rest) (hdec : decodeHeader h = .error c) :
    step s = .next (State.failed { s with cmdIn := rest } (h.toNat % 256) c.kind.code.toNat c.detail.toNat) := by
  have hreject : s.rejectHeader c (headerOpc h) =
      State.failed { s with cmdIn := rest } (h.toNat % 256) c.kind.code.toNat c.detail.toNat := by
    rw [← headerOpc_toNat]
    simp [State.rejectHeader, State.consume, State.raise, State.emit, State.failed, errStatus, hcmd]
  rw [← hreject, step, hrst, hfull, hcmd, decode_illegal h rest c hdec]
  rfl

/-- Settles O8: the decoder's three checks are those of the statement, in the same order. -/
theorem illegalHeadersRejected : Obligations.IllegalHeadersRejected := by
  intro s h rest err detail hrst hfull hcmd opc flg definedFlags hfirst
  have hanswer (c : Cause) (hdec : decodeHeader h = .error c) := step_of_illegal hrst hfull hcmd hdec
  cases hop : Opcode.ofByte (headerOpc h) with
  | none =>
    have hreserved := (ofByte_eq_none_iff _).mp hop
    rw [headerOpc_toNat] at hreserved
    rw [firstReported_of_applies hreserved] at hfirst
    cases hfirst
    exact hanswer .badOpc (decodeHeader_badOpc hop)
  | some op =>
    have hassigned := (ofByte_eq_none_iff (headerOpc h)).not.mp (by simp [hop])
    rw [headerOpc_toNat] at hassigned
    rw [firstReported_of_not hassigned] at hfirst
    by_cases hrsv : headerRsv h = 0
    · have hdefined : definedFlags = op.flags.toNat := by
        rw [flags_toNat_by_code, code_of_ofByte hop, headerOpc_toNat]
      rw [firstReported_of_not (not_not.mpr ((headerRsv_eq_zero_iff h).mp hrsv))] at hfirst
      by_cases hflg : definedFlags < flg
      · rw [firstReported_of_applies hflg] at hfirst
        cases hfirst
        have hset : op.flags.toNat < (headerFlg h).toNat := by rwa [headerFlg_toNat, ← hdefined]
        exact hanswer .badFlg (decodeHeader_badFlg hop hrsv hset)
      · rw [firstReported_of_not hflg] at hfirst
        cases hfirst
    · rw [firstReported_of_applies ((headerRsv_eq_zero_iff h).not.mp hrsv)] at hfirst
      cases hfirst
      exact hanswer .rsvBits (decodeHeader_rsvBits hop hrsv)

end Sys2Proof.Proofs

/-! # Proofs of the family 40_gf128.md: doubling (R100), powers of α (R104, R106, R108) -/

namespace Sys2Proof.Proofs

open Machine

/-! ## Doubling, bit by bit and as an integer -/

/-- The feedback constant lies in byte 0. -/
theorem gfFeedback_getLsbD_of_ge {j : Nat} (h : 8 ≤ j) : Config.gfFeedback.getLsbD j = false := by
  have hbyte : Config.gfFeedback.toNat < 2 ^ 8 := by decide
  have hpow : 2 ^ 8 ≤ 2 ^ j := Nat.pow_le_pow_right (by decide) h
  exact Nat.testBit_lt_two_pow (hbyte.trans_le hpow)

theorem dbl_of_msb_false {x : Block} (h : x.msb = false) : dbl x = x <<< 1 := by
  rw [dbl, h]
  exact BitVec.xor_zero

theorem dbl_of_msb_true {x : Block} (h : x.msb = true) : dbl x = (x <<< 1) ^^^ Config.gfFeedback := by
  rw [dbl, if_pos h]

/-- Above byte 0 a doubling is only the shift. -/
theorem dbl_getLsbD_succ (x : Block) {j : Nat} (h8 : 7 ≤ j) (h : j < 127) : (dbl x).getLsbD (j + 1) = x.getLsbD j := by
  have hshift : (x <<< 1).getLsbD (j + 1) = x.getLsbD j := by
    rw [BitVec.getLsbD_shiftLeft, Nat.add_sub_cancel]
    simp [show j + 1 < 128 by omega]
  cases hm : x.msb with
  | false => rw [dbl_of_msb_false hm, hshift]
  | true =>
    rw [dbl_of_msb_true hm, BitVec.getLsbD_xor, hshift, gfFeedback_getLsbD_of_ge (by omega), Bool.xor_false]

/-- As an integer a doubling is 2v modulo 2^128, with the feedback when bit 127 was set (40_gf128.md R100). -/
theorem dbl_toNat (x : Block) :
    (dbl x).toNat = (2 * x.toNat % 2 ^ 128) ^^^ (if x.getLsbD 127 then 0x87 else 0) := by
  rw [dbl, BitVec.toNat_xor, BitVec.toNat_shiftLeft, Nat.shiftLeft_eq, pow_one, Nat.mul_comm, BitVec.msb_eq_getLsbD_last]
  congr 1
  split <;> rfl

/-- Byte i+1 takes its low bit from the top of byte i (40_gf128.md R100). -/
theorem dbl_byte_succ (x : Block) {i : Nat} (h : i < 15) :
    (dbl x).extractLsb' (8 * (i + 1)) 8 =
      (x.extractLsb' (8 * (i + 1)) 8 <<< 1) ||| (x.extractLsb' (8 * i) 8 >>> 7) := by
  ext j hj
  rw [BitVec.getElem_extractLsb', show 8 * (i + 1) + j = 8 * i + 7 + j + 1 by omega,
    dbl_getLsbD_succ x (by omega) (by omega)]
  cases j with
  | zero => simp
  | succ j =>
    have hcarry : ¬ 7 + (j + 1) < 8 := by omega
    have hindex : 8 * i + 7 + (j + 1) = 8 * (i + 1) + j := by omega
    simp [hcarry, hindex]

/-- Byte 0 shifts in nothing and takes the feedback (40_gf128.md R100). -/
theorem dbl_byte_zero (x : Block) :
    (dbl x).extractLsb' 0 8 =
      (x.extractLsb' 0 8 <<< 1) ^^^ (if (x.extractLsb' 120 8).getLsbD 7 then 0x87 else 0) := by
  have htop : (x.extractLsb' 120 8).getLsbD 7 = x.msb := by
    simp [BitVec.msb_eq_getLsbD_last]
  rw [htop, dbl, BitVec.extractLsb'_xor]
  congr 1
  · apply BitVec.eq_of_toNat_eq
    simp only [BitVec.extractLsb'_toNat, BitVec.toNat_shiftLeft, Nat.shiftRight_zero, Nat.shiftLeft_eq]
    omega
  · split <;> decide

/-- Settles O18: a doubling moves every bit up by one, and only byte 0 sees the feedback. -/
theorem gfDoubleBytes : Obligations.GfDoubleBytes :=
  fun x => ⟨fun _ hi => dbl_byte_succ x hi, dbl_byte_zero x, dbl_toNat x⟩

/-! ## The product loop is linear -/

theorem gmulLoop_xor (k n : Nat) (r r' w w' : Block) :
    gmulLoop k n (r ^^^ r') (w ^^^ w') = gmulLoop k n r w ^^^ gmulLoop k n r' w' := by
  induction k generalizing n r r' w w' with
  | zero => rfl
  | succ k ih =>
    have hstep : (if n % 2 = 1 then r ^^^ r' ^^^ (w ^^^ w') else r ^^^ r') =
        (if n % 2 = 1 then r ^^^ w else r) ^^^ (if n % 2 = 1 then r' ^^^ w' else r') := by
      split
      · ac_rfl
      · rfl
    rw [gmulLoop, hstep, dbl_xor, ih, gmulLoop, gmulLoop]

theorem gmulLoop_dbl (k n : Nat) (r w : Block) : gmulLoop k n (dbl r) (dbl w) = dbl (gmulLoop k n r w) := by
  induction k generalizing n r w with
  | zero => rfl
  | succ k ih => rw [gmulLoop, ← dbl_xor, ← apply_ite dbl, ih, gmulLoop]

/-- The product is linear in its first factor (40_gf128.md R109). -/
theorem gmul_xor_left (a a' b : Block) : gmul (a ^^^ a') b = gmul a b ^^^ gmul a' b :=
  gmulLoop_xor 128 b.toNat 0 0 a a'

/-- A doubling of the first factor is a doubling of the product. -/
theorem gmul_dbl_left (a b : Block) : gmul (dbl a) b = dbl (gmul a b) :=
  gmulLoop_dbl 128 b.toNat 0 a

/-- The last pass of the loop adds the highest bit's doublings. -/
theorem gmulLoop_succ_last (k n : Nat) (r w : Block) :
    gmulLoop (k + 1) n r w = gmulLoop k n r w ^^^ (if n.testBit k then dbl^[k] w else 0) := by
  induction k generalizing n r w with
  | zero => by_cases h : n % 2 = 1 <;> simp [gmulLoop, h]
  | succ k ih => rw [gmulLoop, ih, ← Nat.testBit_succ, gmulLoop, Function.iterate_succ_apply]

/-! ## The identity -/

/-- Doubling 1 shifts it until it leaves the block. -/
theorem iterate_dbl_one {k : Nat} (h : k < 128) : dbl^[k] 1 = BitVec.twoPow 128 k := by
  induction k with
  | zero => rfl
  | succ k ih =>
    have hm : (BitVec.twoPow 128 k).msb = false := by
      rw [BitVec.msb_twoPow]
      simp only [Bool.and_eq_false_iff, decide_eq_false_iff_not]
      omega
    rw [Function.iterate_succ_apply', ih (by omega), dbl_of_msb_false hm, BitVec.twoPow_eq, BitVec.twoPow_eq,
      ← BitVec.shiftLeft_add]

/-- The loop rebuilds from 1 as many low bits of the other factor as it reads. -/
theorem gmulLoop_one {k : Nat} (b : Block) (h : k ≤ 128) : gmulLoop k b.toNat 0 1 = (b.setWidth k).setWidth 128 := by
  induction k with
  | zero => rw [gmulLoop, BitVec.of_length_zero (x := b.setWidth 0)]; rfl
  | succ k ih =>
    rw [gmulLoop_succ_last, ih (by omega), iterate_dbl_one (by omega)]
    ext j hj
    rw [BitVec.getElem_xor, apply_ite (·[j]'hj)]
    rcases lt_trichotomy j k with hlt | rfl | hgt
    · simp [hlt, hlt.ne, hlt.le]
    · simp [BitVec.testBit_toNat]
    · simp [hgt.ne', hgt.not_gt, hgt.not_ge]

/-- 1 is the identity on the left (40_gf128.md R109). -/
theorem one_gmul (b : Block) : gmul 1 b = b := by
  rw [gmul, gmulLoop_one b (le_refl 128), BitVec.setWidth_eq, BitVec.setWidth_eq]

/-- The loop only adds and doubles what it starts from. -/
theorem gmulLoop_induction {P : Block → Prop} (xor : ∀ x y, P x → P y → P (x ^^^ y)) (dbl : ∀ x, P x → P (dbl x))
    (k n : Nat) (r w : Block) (hr : P r) (hw : P w) : P (gmulLoop k n r w) := by
  induction k generalizing n r w with
  | zero => exact hr
  | succ k ih =>
    refine ih _ _ _ ?_ (dbl w hw)
    split
    · exact xor r w hr hw
    · exact hr

/-- Every block is a sum of doublings of 1, so what holds of 1 and is kept by XOR and by doubling holds of all. -/
theorem block_induction {P : Block → Prop} (one : P 1) (xor : ∀ x y, P x → P y → P (x ^^^ y))
    (dbl : ∀ x, P x → P (dbl x)) (a : Block) : P a := by
  have hzero : P 0 := xor 1 1 one one
  rw [← one_gmul a]
  exact gmulLoop_induction xor dbl 128 a.toNat 0 1 hzero one

/-- 1 is the identity on the right (40_gf128.md R102). -/
theorem gmul_one (a : Block) : gmul a 1 = a := by
  induction a using block_induction with
  | one => rw [one_gmul]
  | xor x y hx hy => rw [gmul_xor_left, hx, hy]
  | dbl x hx => rw [gmul_dbl_left, hx]

/-- A doubling of the second factor is a doubling of the product. -/
theorem gmul_dbl_right (a b : Block) : gmul a (dbl b) = dbl (gmul a b) := by
  induction a using block_induction with
  | one => rw [one_gmul, one_gmul]
  | xor x y hx hy => rw [gmul_xor_left, gmul_xor_left, hx, hy, dbl_xor]
  | dbl x hx => rw [gmul_dbl_left, gmul_dbl_left, hx]

/-! ## Powers of α -/

/-- The product by `n` doublings of 1 is `n` doublings (40_gf128.md R108). -/
theorem gmul_iterate_dbl_one (x : Block) (n : Nat) : gmul x (dbl^[n] 1) = dbl^[n] x := by
  induction n with
  | zero => exact gmul_one x
  | succ n ih => rw [Function.iterate_succ_apply', gmul_dbl_right, ih, Function.iterate_succ_apply']

/-- The square that the last pass leaves out would not be read. -/
theorem alphaPowLoop_skipped_square (k n : Nat) (r bs sq : Block) :
    alphaPowLoop k n r (if k = 0 then bs else sq) = alphaPowLoop k n r sq := by
  cases k <;> rfl

/-- With α^m as its base, the loop doubles the result `m` times the exponent it reads (40_gf128.md R104). -/
theorem alphaPowLoop_eq (k n m : Nat) (r : Block) :
    alphaPowLoop k n r (dbl^[m] 1) = dbl^[m * (n % 2 ^ k)] r := by
  induction k generalizing n m r with
  | zero => simp [alphaPowLoop, Nat.mod_one]
  | succ k ih =>
    have hresult : (if n % 2 = 1 then gmul r (dbl^[m] 1) else r) = dbl^[m * (n % 2)] r := by
      rcases Nat.mod_two_eq_zero_or_one n with h | h
      · simp [h]
      · rw [if_pos h, h, gmul_iterate_dbl_one, Nat.mul_one]
    have hsquare : gmul (dbl^[m] 1) (dbl^[m] 1) = dbl^[m + m] 1 := by
      rw [gmul_iterate_dbl_one, Function.iterate_add_apply]
    have hcount : (m + m) * (n / 2 % 2 ^ k) + m * (n % 2) = m * (n % 2 ^ (k + 1)) := by
      rw [pow_succ', Nat.mod_mul]; ring
    rw [alphaPowLoop, alphaPowLoop_skipped_square, hresult, hsquare, ih, ← Function.iterate_add_apply, hcount]

/-- α^n is `n` doublings of 1. -/
theorem alphaPow_eq (n : U64) : alphaPow n = dbl^[n.toNat] 1 := by
  have halpha : Config.alpha = dbl^[1] 1 := by decide
  rw [alphaPow, halpha, alphaPowLoop_eq, Nat.one_mul, Nat.mod_eq_of_lt n.isLt]

/-- Settles O20: α^n is `n` doublings of 1, and doublings pass through the product. -/
theorem gfPowerIsIteratedDoubling : Obligations.GfPowerIsIteratedDoubling := by
  intro x n
  rw [alphaPow_eq, gmul_iterate_dbl_one]

/-- The fast tweak advance is `n` doublings (40_gf128.md R106). -/
theorem mulpow_eq (x : Block) (n : U64) : mulpow x n = dbl^[n.toNat] x :=
  gfPowerIsIteratedDoubling x n

/-- Settles O21: on either side of the threshold the value is `n` doublings. -/
theorem powThresholdChangesNoValue : Obligations.PowThresholdChangesNoValue := by
  refine fun threshold x n => ⟨rfl, mulpow_eq x n, ?_⟩
  rw [mulpowAt]
  split
  · rw [mulpow_eq]
  · rfl

end Sys2Proof.Proofs

/-! # Proofs of the family 41_tweak.md: the rollover (R124), TWK_CUR against TWK_COMP (R134), the iterator's walk (R135) -/

namespace Sys2Proof.Proofs

open Machine

/-! ## The width of a sector in blocks -/

theorem bps_eq (r : Regs) : r.bps = (r.secsz.toNat + 15) / 16 := rfl

/-- BPS is far below the range of BLK, so a block index never wraps. -/
theorem bps_le (r : Regs) : r.bps ≤ 2 ^ 60 := by
  have hsecsz := r.secsz.isLt
  rw [bps_eq]
  omega

theorem inv_blk_lt_bps {r : Regs} (hinv : r.Inv) (hiter : r.HasIterator) : r.blk.toNat < r.bps :=
  hinv.blockRange hiter

/-! ## The rollover -/

/-- Settles O28: the two cases of an advance are the two sides of BLK = BPS − 1. -/
theorem rolloverTieBreak : Obligations.RolloverTieBreak := by
  intro r hblk
  rw [← bps_eq] at hblk ⊢
  have hbps := bps_le r
  rcases iterAdvance_cases r with ⟨hlast, hadv⟩ | ⟨hinner, hadv⟩
  · have hlast' : r.blk.toNat = r.bps - 1 := by omega
    have hsec : r.sec + 1 ≠ r.sec := by simp
    rw [hadv]
    exact ⟨iff_of_true hsec hlast', fun _ => ⟨rfl, rfl⟩, fun hne => absurd hlast' hne⟩
  · have hinner' : r.blk.toNat ≠ r.bps - 1 := by omega
    have hnext : (r.blk + 1).toNat = r.blk.toNat + 1 := BitVec.toNat_add_of_lt (by change r.blk.toNat + 1 < 2 ^ 64; omega)
    rw [hadv]
    exact ⟨iff_of_false (fun hsec => hsec rfl) hinner', fun heq => absurd heq hinner', fun _ => hnext⟩

/-! ## The iterator's walk -/

/-- The registers with the iterator at block `n`, counted from the start of sector SEC on and across sectors
(41_tweak.md R135). -/
def atBlock (r : Regs) (n : Nat) : Regs :=
  { r with
    sec := r.sec + BitVec.ofNat 64 (n / r.bps)
    blk := BitVec.ofNat 64 (n % r.bps)
    twk := dbl^[n % r.bps] (tweakStart r.tweakKey (r.sec + BitVec.ofNat 64 (n / r.bps))) }

/-- A block's index within its sector is its BLK. -/
theorem atBlock_blk_toNat (r : Regs) (n : Nat) (hpos : 0 < r.bps) : (atBlock r n).blk.toNat = n % r.bps := by
  have hlt := Nat.mod_lt n hpos
  have hbps := bps_le r
  exact Nat.mod_eq_of_lt (by omega)

theorem atBlock_sec_toNat (r : Regs) (n : Nat) :
    (atBlock r n).sec.toNat = (r.sec.toNat + n / r.bps) % 2 ^ 64 := by
  simp [atBlock]

/-- The invariant puts the iterator at the block that SEC and BLK name (10_state.md R31). -/
theorem atBlock_self {r : Regs} (hinv : r.Inv) (hiter : r.HasIterator) : atBlock r r.blk.toNat = r := by
  have hblk := inv_blk_lt_bps hinv hiter
  have htwk : dbl^[r.blk.toNat] (tweakStart r.tweakKey r.sec) = r.twk := (hinv.tweak hiter).symm
  simp [atBlock, Nat.div_eq_of_lt hblk, Nat.mod_eq_of_lt hblk, htwk]

/-- One advance goes on by one block, over the end of a sector or not. -/
theorem iterAdvance_atBlock (r : Regs) (n : Nat) (hpos : 0 < r.bps) :
    iterAdvance (atBlock r n) = atBlock r (n + 1) := by
  have hblk := atBlock_blk_toNat r n hpos
  have hbps : (atBlock r n).bps = r.bps := rfl
  have hkey : (atBlock r n).tweakKey = r.tweakKey := rfl
  have hlt := Nat.mod_lt n hpos
  have hsplit := Nat.mod_add_div n r.bps
  rcases iterAdvance_cases (atBlock r n) with ⟨hlast, hadv⟩ | ⟨hinner, hadv⟩
  · rw [hblk, hbps] at hlast
    obtain ⟨hdiv, hmod⟩ : (n + 1) / r.bps = n / r.bps + 1 ∧ (n + 1) % r.bps = 0 :=
      (Nat.div_mod_unique hpos).mpr ⟨by rw [Nat.mul_add, Nat.mul_one]; omega, hpos⟩
    rw [hadv, hkey]
    simp [atBlock, hdiv, hmod, BitVec.ofNat_add, BitVec.add_assoc]
  · rw [hblk, hbps] at hinner
    obtain ⟨hdiv, hmod⟩ : (n + 1) / r.bps = n / r.bps ∧ (n + 1) % r.bps = n % r.bps + 1 :=
      (Nat.div_mod_unique hpos).mpr ⟨by omega, by omega⟩
    rw [hadv]
    simp [atBlock, hdiv, hmod, BitVec.ofNat_add, Function.iterate_succ_apply']

theorem iterate_atBlock (r : Regs) (n k : Nat) (hpos : 0 < r.bps) :
    iterAdvance^[k] (atBlock r n) = atBlock r (n + k) := by
  induction k with
  | zero => rfl
  | succ k ih => rw [Function.iterate_succ_apply', ih, iterAdvance_atBlock r _ hpos, Nat.add_assoc]

/-- Settles O29: the walk starts at block BLK of the sector, and each advance goes on by one block. -/
theorem iteratorWalk : Obligations.IteratorWalk := by
  intro r k hinv hiter bps sec' blk'
  have hpos : 0 < r.bps := Nat.zero_lt_of_lt (inv_blk_lt_bps hinv hiter)
  have hwalk : iterAdvance^[k] r = atBlock r (r.blk.toNat + k) := by
    rw [← iterate_atBlock r _ k hpos, atBlock_self hinv hiter]
  rw [hwalk]
  exact ⟨rfl, atBlock_sec_toNat r _, atBlock_blk_toNat r _ hpos⟩

/-! ## The iterator's tweak against the stateless one -/

/-- Where there is an iterator, the commands that read it succeed and change no register (41_tweak.md R127). -/
theorem reply_iterRead {s : State} (hiter : s.regs.HasIterator) (op : Opcode) (fields : List Word) :
    s.reply op (iterReadCheck s.regs) s.regs fields = s.answered op.code.toNat s.regs fields := by
  rw [(iterReadCheck_eq_none s.regs).mpr hiter, reply_none, okStatus, statusWord_eq_statusNumber]
  rfl

theorem exec_twkCur {s : State} (hiter : s.regs.HasIterator) :
    exec .twkCur s = .next (s.answered 0x12 s.regs (blkField s.regs.twk)) :=
  congrArg Host.Outcome.next (reply_iterRead hiter .twkCur _)

theorem exec_twkComp {s : State} (hiter : s.regs.HasIterator) (sec j : U64) :
    exec (.twkComp sec j) s = .next (s.answered 0x16 s.regs (blkField (tweakAt s.regs.tweakKey sec j))) :=
  congrArg Host.Outcome.next (reply_iterRead hiter .twkComp _)

/-- TWK is the tweak of the block that SEC and BLK name (10_state.md R31; 41_tweak.md R121). -/
theorem inv_twk_eq_tweakAt {r : Regs} (hinv : r.Inv) (hiter : r.HasIterator) :
    r.twk = tweakAt r.tweakKey r.sec r.blk := by
  rw [tweakAt, mulpow_eq]
  exact hinv.tweak hiter

/-- Settles O30: both commands answer with TWK. -/
theorem statefulEqualsStateless : Obligations.StatefulEqualsStateless := by
  intro s hinv hiter
  refine ⟨s.regs.twk, exec_twkCur hiter, ?_⟩
  rw [exec_twkComp hiter, ← inv_twk_eq_tweakAt hinv hiter]

end Sys2Proof.Proofs

/-! # Proofs of the family 42_xts.md: emission and predictions (R162, R186), the straddle check (R172), the budget (R174),
the auto-reset (R182), the length of a data unit (R185), decryption after encryption (R184) -/

namespace Sys2Proof.Proofs

open Machine

/-! ## Which error a command reports -/

/-- The opcode echo of two status words plays no part in whether they report the same error (30_encoding.md R72). -/
theorem statusNumber_eq_iff (err detail err' detail' opc : Nat) :
    statusNumber err detail opc = statusNumber err' detail' opc ↔
      BitVec.ofNat 32 (err + 256 * detail) = BitVec.ofNat 32 (err' + 256 * detail') := by
  simp only [statusNumber, BitVec.ofNat_add _ (65536 * opc), BitVec.add_left_inj]

/-- Every cause has a detail code of its own (60_exceptions.md R201). -/
theorem detail_inj {c c' : Cause} (h : c.detail = c'.detail) : c = c' := by
  revert h
  cases c <;> cases c' <;> decide

/-- The cause can be read off a status word (30_encoding.md R72; 60_exceptions.md R201). -/
theorem cause_report_inj {c c' : Cause}
    (h : BitVec.ofNat 32 (c.kind.code.toNat + 256 * c.detail.toNat) =
      BitVec.ofNat 32 (c'.kind.code.toNat + 256 * c'.detail.toNat)) : c = c' := by
  apply detail_inj
  bv_omega

/-- A command fails with an error exactly when one of its checks has a cause that is reported so (60_exceptions.md R203). -/
theorem reply_eq_failed_iff (s : State) (op : Opcode) (check : Option Cause) (r : Regs) (f : Word) (fields : List Word)
    (err detail : Nat) :
    (.next (s.reply op check r (f :: fields)) : Host.Outcome State Fault Refusal) =
        .next (s.failed op.code.toNat err detail) ↔
      ∃ c, check = some c ∧
        BitVec.ofNat 32 (c.kind.code.toNat + 256 * c.detail.toNat) = BitVec.ofNat 32 (err + 256 * detail) := by
  rw [Host.Outcome.next.injEq]
  cases check with
  | none =>
    refine iff_of_false (fun h => ?_) (by simp)
    have hresp := congrArg State.respOut h
    simp [State.failed] at hresp
  | some c =>
    rw [reply_some, State.raise, State.emit, State.failed, errStatus, statusWord_eq_statusNumber]
    simp [statusNumber_eq_iff]

/-- A command fails with the error of a cause exactly when that is the first check to fail. -/
theorem reply_fails_iff (s : State) (op : Opcode) (check : Option Cause) (r : Regs) (f : Word) (fields : List Word)
    (c : Cause) :
    (.next (s.reply op check r (f :: fields)) : Host.Outcome State Fault Refusal) =
        .next (s.failed op.code.toNat c.kind.code.toNat c.detail.toNat) ↔ check = some c := by
  rw [reply_eq_failed_iff]
  constructor
  · rintro ⟨c', hcheck, hreport⟩
    rw [hcheck, cause_report_inj hreport]
  · exact fun hcheck => ⟨c, hcheck, rfl⟩

/-- Where one command's first failing check makes another fail with the same cause, the two report the same error. -/
theorem reply_failed_transfer {s : State} {op op' : Opcode} {check check' : Option Cause} {r r' : Regs} {f f' : Word}
    {fields fields' : List Word} {err detail : Nat} (hcheck : ∀ c, check = some c → check' = some c)
    (h : (.next (s.reply op check r (f :: fields)) : Host.Outcome State Fault Refusal) =
      .next (s.failed op.code.toNat err detail)) :
    (.next (s.reply op' check' r' (f' :: fields')) : Host.Outcome State Fault Refusal) =
      .next (s.failed op'.code.toNat err detail) := by
  obtain ⟨c, hc, hreport⟩ := (reply_eq_failed_iff s op check r f fields err detail).mp h
  exact (reply_eq_failed_iff s op' check' r' f' fields' err detail).mpr ⟨c, hcheck c hc, hreport⟩

/-- A command whose checks pass answers its fields (30_encoding.md R76). -/
theorem reply_none_eq_answered (s : State) (op : Opcode) (r : Regs) (fields : List Word) :
    s.reply op none r fields = s.answered op.code.toNat r fields := by
  rw [reply_none, okStatus, statusWord_eq_statusNumber]
  rfl

/-- A U64 field tells its number (30_encoding.md R73). -/
theorem u64Field_inj {v v' : U64} (h : u64Field v = u64Field v') : v = v' := by
  have hnat := congrArg leNatOfWords h
  simp only [u64Field, leNatOfWords_leWords] at hnat
  bv_omega

/-! ## The checks, in order -/

theorem firstCause_append (checks more : List (Option Cause)) :
    firstCause (checks ++ more) = (firstCause checks).or (firstCause more) := by
  induction checks with
  | nil => rfl
  | cons check rest ih => cases check <;> simp [ih]

theorem mem_of_firstCause {checks : List (Option Cause)} {c : Cause} (h : firstCause checks = some c) :
    some c ∈ checks := by
  induction checks with
  | nil => simp at h
  | cons check rest ih => cases check <;> simp_all

theorem firstCause_singleton (check : Option Cause) : firstCause [check] = check := by
  cases check <;> rfl

/-- A cause that none of the later checks has is reported exactly when the earlier ones report it. -/
theorem firstCause_append_eq_some_iff {checks more : List (Option Cause)} {c : Cause} (hmore : some c ∉ more) :
    firstCause (checks ++ more) = some c ↔ firstCause checks = some c := by
  rw [firstCause_append, Option.or_eq_some_iff]
  exact ⟨fun h => h.resolve_right fun ⟨_, hlater⟩ => hmore (mem_of_firstCause hlater), .inl⟩

theorem ovfCheck_of_gt {t : Nat} (h : 2 ^ 31 - 1 < t) : ovfCheck .w32 t = some .ovf32 := if_pos h

theorem budgetCheck_eq_some_iff (r : Regs) (n : Nat) (c : Cause) :
    budgetCheck r n = some c ↔ c = .budget ∧ r.mode = .independent ∧ r.secsz.toNat < r.sbytes.toNat + n := by
  cases hmode : r.mode <;> simp [budgetCheck, hmode, and_comm, @eq_comm _ c]

theorem unitCheck_eq_some_iff (t : Nat) (c : Cause) : unitCheck t = some c ↔ c = .unitLt16 ∧ 0 < t ∧ t < 16 := by
  simp [unitCheck, and_comm, @eq_comm _ c]

theorem straddleCheck_eq_some_iff (r : Regs) (t : Nat) (c : Cause) :
    straddleCheck r t = some c ↔
      c = .ctsStraddle ∧ r.mode = .continuous ∧ t % 16 ≠ 0 ∧ (r.blk.toNat + finBlocks t) % r.bps = r.bps - 1 := by
  cases hmode : r.mode <;> simp [straddleCheck, hmode, and_comm, @eq_comm _ c]

theorem capCheck_eq_some_iff (e : Nat) (cap : U32) (c : Cause) : capCheck e cap = some c ↔ c = .outCap ∧ cap.toNat < e := by
  simp [capCheck, and_comm, @eq_comm _ c]

/-- XTS_PROC makes the checks of its prediction, and then one more (42_xts.md R163, R176). -/
theorem procCheck_eq_or (r : Regs) (n : Nat) (cap : U32) :
    procCheck r n cap = (predictCheck r .w32 n).or (firstCause [capCheck (nproc (r.plen.toNat + n)) cap]) :=
  firstCause_append [_, _, _] _

/-- XTS_FIN makes the checks of its prediction, and then three more (42_xts.md R170, R177). -/
theorem finCheck_eq_or (r : Regs) (n : Nat) (cap : U32) :
    finCheck r n cap = (predictCheck r .w32 n).or (firstCause [unitCheck (r.plen.toNat + n),
      straddleCheck r (r.plen.toNat + n), capCheck (r.plen.toNat + n) cap]) :=
  firstCause_append [_, _, _] _

theorem procCheck_of_predictCheck {r : Regs} {n : Nat} {c : Cause} (cap : U32) (h : predictCheck r .w32 n = some c) :
    procCheck r n cap = some c := by
  rw [procCheck_eq_or, h]
  rfl

theorem finCheck_of_predictCheck {r : Regs} {n : Nat} {c : Cause} (cap : U32) (h : predictCheck r .w32 n = some c) :
    finCheck r n cap = some c := by
  rw [finCheck_eq_or, h]
  rfl

/-! ## The emission count (42_xts.md R162) -/

/-- Settles O38: the formula over the integers, and its values on both sides of 32. -/
theorem emissionCount : Obligations.EmissionCount := by
  intro t
  simp only [nproc, Config.blockBytes]
  omega

/-! ## Predictions (42_xts.md R176, R177, R186) -/

theorem exec_xtsPupd_of_check {s : State} {w : PredictWidth} {n : U64} (h : predictCheck s.regs w n.toNat = none) :
    exec (.xtsPupd w n) s =
      .next (s.answered 0x23 s.regs (u64Field (BitVec.ofNat 64 (nproc (s.regs.plen.toNat + n.toNat))))) := by
  rw [exec, execXtsPupd, h, reply_none_eq_answered]
  rfl

theorem exec_xtsPfin_of_check {s : State} {w : PredictWidth} {n : U64} (h : predictCheck s.regs w n.toNat = none) :
    exec (.xtsPfin w n) s =
      .next (s.answered 0x24 s.regs (u64Field (BitVec.ofNat 64 (s.regs.plen.toNat + n.toNat)))) := by
  rw [exec, execXtsPfin, h, reply_none_eq_answered]
  rfl

/-- Both predict commands fail with the error of a cause exactly when that is the first of their checks to fail. -/
theorem exec_predict_fails_iff (s : State) (w : PredictWidth) (n : U64) (c : Cause) :
    (exec (.xtsPupd w n) s = .next (s.failed 0x23 c.kind.code.toNat c.detail.toNat) ↔
      predictCheck s.regs w n.toNat = some c) ∧
    (exec (.xtsPfin w n) s = .next (s.failed 0x24 c.kind.code.toNat c.detail.toNat) ↔
      predictCheck s.regs w n.toNat = some c) :=
  ⟨reply_fails_iff s .xtsPupd _ _ _ _ c, reply_fails_iff s .xtsPfin _ _ _ _ c⟩

/-- A predicted size is a U64 field of its own command, so it can be read off the answer. -/
theorem size_of_reply {s : State} {op : Opcode} {check : Option Cause} {v size : U64}
    (h : (.next (s.reply op check s.regs (u64Field v)) : Host.Outcome State Fault Refusal) =
      .next (s.answered op.code.toNat s.regs (u64Field size))) : v = size := by
  obtain ⟨-, -, hfield⟩ := reply_eq_answered _ _ _ _ _ _ _ (by simp [u64Field]) (Host.Outcome.next.inj h)
  exact u64Field_inj hfield

/-- A length that fits its field is also the number of its U64 form (30_encoding.md R73). -/
theorem ofNat_length_toNat {data : List Byte} (h : data.length < 2 ^ 32) :
    (BitVec.ofNat 64 data.length).toNat = data.length :=
  Nat.mod_eq_of_lt (by omega)

/-- A predicted size is what an accepted XTS_PROC emits (42_xts.md R176, R186). -/
theorem emits_proc_predicted {s s' : State} {cap : U32} {data out : List Byte} {size : U64} (hdata : data.length < 2 ^ 32)
    (hpred : exec (.xtsPupd .w32 (BitVec.ofNat 64 data.length)) s = .next (s.answered 0x23 s.regs (u64Field size)))
    (hrun : Emits (.xtsProc cap data) 0x21 s out s') : out.length = size.toNat := by
  obtain ⟨-, rfl, -⟩ := emits_proc_inv _ _ _ _ _ hrun
  have hplen := s.regs.plen.isLt
  have hle := nproc_le (s.regs.plen.toNat + data.length)
  rw [← size_of_reply (op := .xtsPupd) hpred, ofNat_length_toNat hdata, procEffect_length]
  exact (Nat.mod_eq_of_lt (by omega)).symm

/-- A predicted size is what an accepted XTS_FIN emits (42_xts.md R177, R186). -/
theorem emits_fin_predicted {s s' : State} {cap : U32} {data out : List Byte} {size : U64} (hdata : data.length < 2 ^ 32)
    (hpred : exec (.xtsPfin .w32 (BitVec.ofNat 64 data.length)) s = .next (s.answered 0x24 s.regs (u64Field size)))
    (hrun : Emits (.xtsFin cap data) 0x22 s out s') : out.length = size.toNat := by
  obtain ⟨hcheck, rfl, -⟩ := emits_fin_inv _ _ _ _ _ hrun
  obtain ⟨-, -, -, hunit, -, -⟩ := (finCheck_eq_none _ _ _).mp hcheck
  have hplen := s.regs.plen.isLt
  rw [← size_of_reply (op := .xtsPfin) hpred, ofNat_length_toNat hdata, finEffect_length _ _ hunit]
  exact (Nat.mod_eq_of_lt (by omega)).symm

/-- Up to the 32-bit limit the width of a prediction plays no part (42_xts.md R178). -/
theorem predictCheck_width {r : Regs} {n : Nat} (h : r.plen.toNat + n ≤ 2 ^ 31 - 1) :
    predictCheck r .w64 n = predictCheck r .w32 n := by
  rw [predictCheck, predictCheck, (ovfCheck_w32_eq_none _).mpr h, (ovfCheck_w64_eq_none _).mpr (by omega)]

theorem predictCheck_ovf32 {r : Regs} {n : Nat} (hctx : r.ctx = .cipher) (h : 2 ^ 31 - 1 < r.plen.toNat + n) :
    predictCheck r .w32 n = some .ovf32 := by
  rw [predictCheck, (cipherCheck_eq_none r).mpr hctx, ovfCheck_of_gt h]
  rfl

/-- Settles O40: a data command begins with the checks of its prediction, and emits what its prediction computes. -/
theorem predictConsistency : Obligations.PredictConsistency := by
  refine ⟨fun s s' cap data out size hdata => ⟨emits_proc_predicted hdata, emits_fin_predicted hdata⟩,
    fun s n h => ?_, fun s n hctx h => ?_, fun s cap data err detail hdata => ⟨fun hfail => ?_, fun hfail => ?_⟩⟩
  · have hwidth := predictCheck_width h
    simp only [exec, execXtsPupd, execXtsPfin, hwidth, and_self]
  · have hcheck := predictCheck_ovf32 hctx h
    obtain ⟨hpupd, hpfin⟩ := exec_predict_fails_iff s .w32 n .ovf32
    refine ⟨hpupd.mpr hcheck, hpfin.mpr hcheck, fun hlimit hbudget => ?_⟩
    have hwide : predictCheck s.regs .w64 n.toNat = none :=
      (predictCheck_eq_none _ _ _).mpr ⟨hctx, (ovfCheck_w64_eq_none _).mpr hlimit, hbudget⟩
    exact ⟨_, _, exec_xtsPupd_of_check hwide, exec_xtsPfin_of_check hwide⟩
  · refine reply_failed_transfer (op := .xtsPupd) (op' := .xtsProc) (fun c hcheck => ?_) hfail
    rw [ofNat_length_toNat hdata] at hcheck
    exact procCheck_of_predictCheck cap hcheck
  · refine reply_failed_transfer (op := .xtsPfin) (op' := .xtsFin) (fun c hcheck => ?_) hfail
    rw [ofNat_length_toNat hdata] at hcheck
    exact finCheck_of_predictCheck cap hcheck

/-! ## The sector-boundary check (42_xts.md R172) -/

theorem exec_xtsFin_fails_iff (s : State) (cap : U32) (data : List Byte) (c : Cause) :
    exec (.xtsFin cap data) s = .next (s.failed 0x22 c.kind.code.toNat c.detail.toNat) ↔
      finCheck s.regs data.length cap = some c :=
  reply_fails_iff s .xtsFin _ _ _ _ c

/-- Where the earlier checks pass, XTS_FIN reports CTS_STRADDLE exactly when the check of R172 fails. -/
theorem finCheck_eq_ctsStraddle_iff {r : Regs} {n : Nat} (cap : U32) (hacc : r.accepts n) (hunit : 16 ≤ r.plen.toNat + n) :
    finCheck r n cap = some .ctsStraddle ↔ straddleCheck r (r.plen.toNat + n) = some .ctsStraddle := by
  obtain ⟨hctx, hlimit, hbudget⟩ := hacc
  have hpredict : predictCheck r .w32 n = none :=
    (predictCheck_eq_none _ _ _).mpr ⟨hctx, (ovfCheck_w32_eq_none _).mpr hlimit, hbudget⟩
  have hcap : some Cause.ctsStraddle ∉ [capCheck (r.plen.toNat + n) cap] := by
    simp [@eq_comm _ (some Cause.ctsStraddle), capCheck_eq_some_iff]
  rw [finCheck_eq_or, hpredict, Option.none_or, (unitCheck_eq_none _).mpr (.inr hunit), firstCause_none,
    ← List.singleton_append, firstCause_append_eq_some_iff hcap, firstCause_singleton]

/-- From a block that is the last of its sector, the next advance enters a new sector (41_tweak.md R124). -/
theorem sec_changes_after_last {r : Regs} {f : Nat} (hinv : r.Inv) (hiter : r.HasIterator)
    (h : (r.blk.toNat + f) % r.bps = r.bps - 1) : (iterAdvance^[f + 1] r).sec ≠ (iterAdvance^[f] r).sec := by
  obtain ⟨-, -, hblk⟩ := iteratorWalk r f hinv hiter
  have hbps : (iterAdvance^[f] r).bps = r.bps := iterate_frame Regs.bps iterAdvance_bps f r
  have hlt := inv_blk_lt_bps hinv hiter
  have hlast : (iterAdvance^[f] r).blk.toNat = (iterAdvance^[f] r).bps - 1 := by rw [hbps, ← h]; exact hblk
  rw [Function.iterate_succ_apply']
  exact (rolloverTieBreak (iterAdvance^[f] r) (by rw [← bps_eq, hlast]; omega)).1.mpr hlast

/-- Settles O41: the check looks at the block of the leading tweak of the pair, which the iterator's walk reaches. -/
theorem ctsStraddleRejected : Obligations.CtsStraddleRejected := by
  intro s cap data hinv hacc r t f bps hunit
  have hblocks (h : t % 16 ≠ 0) : finBlocks t = f := if_neg h
  have hcheck : exec (.xtsFin cap data) s = .next (s.failed 0x22 1 0x13) ↔ straddleCheck r t = some .ctsStraddle :=
    (exec_xtsFin_fails_iff s cap data .ctsStraddle).trans (finCheck_eq_ctsStraddle_iff cap hacc hunit)
  refine ⟨?_, sec_changes_after_last hinv (.inr hacc.1)⟩
  rw [hcheck, straddleCheck_eq_some_iff]
  constructor
  · rintro ⟨-, hmode, hmod, hlast⟩
    exact ⟨hmode, hmod, hblocks hmod ▸ hlast⟩
  · rintro ⟨hmode, hmod, hlast⟩
    exact ⟨rfl, hmode, hmod, (hblocks hmod).symm ▸ hlast⟩

/-! ## The budget of Independent mode (42_xts.md R174) -/

/-- Where the size limit is met, a prediction reports BUDGET exactly when the budget check fails. -/
theorem predictCheck_eq_budget_iff {r : Regs} {w : PredictWidth} {n : Nat} (hctx : r.ctx = .cipher)
    (hlimit : ovfCheck w (r.plen.toNat + n) = none) :
    predictCheck r w n = some .budget ↔ r.mode = .independent ∧ r.secsz.toNat < r.sbytes.toNat + n := by
  rw [predictCheck, (cipherCheck_eq_none r).mpr hctx, hlimit, firstCause_none, firstCause_none,
    firstCause_singleton, budgetCheck_eq_some_iff]
  simp

/-- No later check reports BUDGET, so a data command does so exactly when its prediction does. -/
theorem procCheck_eq_budget_iff (r : Regs) (n : Nat) (cap : U32) :
    procCheck r n cap = some .budget ↔ predictCheck r .w32 n = some .budget :=
  firstCause_append_eq_some_iff (checks := [_, _, _]) <| by simp [@eq_comm _ (some Cause.budget), capCheck_eq_some_iff]

theorem finCheck_eq_budget_iff (r : Regs) (n : Nat) (cap : U32) :
    finCheck r n cap = some .budget ↔ predictCheck r .w32 n = some .budget :=
  firstCause_append_eq_some_iff (checks := [_, _, _]) <| by
    simp [@eq_comm _ (some Cause.budget), unitCheck_eq_some_iff, straddleCheck_eq_some_iff, capCheck_eq_some_iff]

theorem exec_xtsProc_fails_iff (s : State) (cap : U32) (data : List Byte) (c : Cause) :
    exec (.xtsProc cap data) s = .next (s.failed 0x21 c.kind.code.toNat c.detail.toNat) ↔
      procCheck s.regs data.length cap = some c :=
  reply_fails_iff s .xtsProc _ _ _ _ c

/-- An accepted XTS_PROC adds its length to SBYTES, and the budget keeps the sum from wrapping (42_xts.md R174). -/
theorem emits_proc_sbytes {s s' : State} {cap : U32} {data out : List Byte}
    (h : Emits (.xtsProc cap data) 0x21 s out s') :
    s'.regs.sbytes.toNat =
      if s.regs.mode = .independent then s.regs.sbytes.toNat + data.length else s.regs.sbytes.toNat := by
  obtain ⟨hcheck, -, rfl⟩ := emits_proc_inv _ _ _ _ _ h
  obtain ⟨-, -, hbudget, -⟩ := (procCheck_eq_none _ _ _).mp hcheck
  have hsbytes : (procEffect data s.regs).1.sbytes = (budgetCommit data.length s.regs).sbytes := by
    rw [procEffect_fst, setPending_sbytes, iterate_frame Regs.sbytes iterAdvance_sbytes]
  have hsecsz := s.regs.secsz.isLt
  change (procEffect data s.regs).1.sbytes.toNat = _
  rw [hsbytes, budgetCommit_sbytes]
  split
  next hmode =>
    have hfits := hbudget hmode
    exact Nat.mod_eq_of_lt (by omega)
  next => rfl

/-- What a successful XTS_FIN leaves in every register (42_xts.md R170, R182). -/
theorem emits_fin_regs {s s' : State} {cap : U32} {data out : List Byte} (h : Emits (.xtsFin cap data) 0x22 s out s') :
    s'.regs = autoReset s.regs := by
  obtain ⟨-, -, rfl⟩ := emits_fin_inv _ _ _ _ _ h
  exact finEffect_fst data s.regs

/-- A command that writes its registers back as they were changes none of them, whether it succeeds or fails. -/
theorem reply_keeps_regs (s : State) (op : Opcode) (check : Option Cause) (fields : List Word) :
    (s.reply op check s.regs fields).regs = s.regs := by
  rcases reply_cases s op check s.regs fields with ⟨c, -, h⟩ | ⟨-, h⟩ <;> rw [h]

/-- Settles O42: the budget check is the last that the four commands share, and only XTS_PROC and XTS_FIN commit. -/
theorem independentBudget : Obligations.IndependentBudget := by
  intro s cap data hctx n excess
  refine ⟨fun hlimit => ?_, fun w k hlimit => ?_, fun out s' h => emits_proc_sbytes h, fun out s' h => ?_,
    fun w k s' h => ?_⟩
  · have hshared := predictCheck_eq_budget_iff hctx ((ovfCheck_w32_eq_none _).mpr hlimit)
    exact ⟨(exec_xtsProc_fails_iff s cap data .budget).trans ((procCheck_eq_budget_iff _ _ _).trans hshared),
      (exec_xtsFin_fails_iff s cap data .budget).trans ((finCheck_eq_budget_iff _ _ _).trans hshared)⟩
  · have hovf : ovfCheck w (s.regs.plen.toNat + k.toNat) = none := by
      cases w
      case w32 => exact (ovfCheck_w32_eq_none _).mpr hlimit
      case w64 => exact (ovfCheck_w64_eq_none _).mpr hlimit
    have hshared := predictCheck_eq_budget_iff hctx hovf
    obtain ⟨hpupd, hpfin⟩ := exec_predict_fails_iff s w k .budget
    exact ⟨hpupd.trans hshared, hpfin.trans hshared⟩
  · rw [emits_fin_regs h, autoReset_sbytes]
  · rcases h with h | h
    · exact Host.Outcome.next.inj h ▸ reply_keeps_regs s .xtsPupd _ _
    · exact Host.Outcome.next.inj h ▸ reply_keeps_regs s .xtsPfin _ _

/-! ## The auto-reset (42_xts.md R182) -/

/-- A tweak advanced by no block is the tweak of the sector's start (41_tweak.md R121). -/
theorem tweakAt_zero (k : AesKey) (sec : U64) : tweakAt k sec 0 = tweakStart k sec := by
  rw [tweakAt, mulpow_eq]
  rfl

/-- The auto-reset leads to the cipher's configured start (42_xts.md R180, R182). -/
theorem autoReset_eq_atStart (r : Regs) : autoReset r = r.atStart := by
  rw [autoReset, iterLoad, tweakAt_zero]
  rfl

/-- Settles O44: XTS_FIN leaves what the auto-reset does, with nothing pending and no byte of the budget used. -/
theorem finalizeAutoResets : Obligations.FinalizeAutoResets := by
  intro s s' cap data out h
  obtain ⟨hcheck, -, -⟩ := emits_fin_inv _ _ _ _ _ h
  obtain ⟨hctx, -⟩ := (finCheck_eq_none _ _ _).mp hcheck
  have hregs := emits_fin_regs h
  have hpredict : predictCheck s'.regs .w32 (0 : U64).toNat = none := by
    rw [predictCheck_eq_none, ovfCheck_w32_eq_none, hregs, autoReset_ctx, autoReset_plen, autoReset_sbytes]
    simp [hctx]
  refine ⟨hregs.trans (autoReset_eq_atStart _), ?_, ?_⟩
  · rw [exec, execXtsReset, (cipherCheck_eq_none _).mpr hctx, reply_none_eq_answered, hregs]
    rfl
  · rw [exec_xtsPfin_of_check hpredict, hregs, autoReset_plen]
    rfl

/-! ## The length of a data unit (42_xts.md R185) -/

/-- Settles O48: what a run of XTS_PROC holds back is what the closing XTS_FIN emits besides its own input. -/
theorem lengthPreservation : Obligations.LengthPreservation := by
  intro s s1 s2 chunks cap last out1 out2 hplen hrun hclose
  obtain ⟨hout, hpend⟩ := procRun_holdsBack hrun
  rw [pending_eq_nil s.regs hplen, List.nil_append] at hout hpend
  have hheld : s1.regs.plen.toNat = (inputOf chunks).length - nproc (inputOf chunks).length := by
    rw [← pending_length, hpend, List.length_drop]
  obtain ⟨hcheck, rfl, -⟩ := emits_fin_inv _ _ _ _ _ hclose
  obtain ⟨-, -, -, hunit, -, -⟩ := (finCheck_eq_none _ _ _).mp hcheck
  have hle := nproc_le (inputOf chunks).length
  rw [finEffect_length _ _ hunit, List.length_append]
  omega

/-! ## Decryption after encryption (42_xts.md R184)

The decrypting cipher walks the same blocks as the encrypting one: the two iterators do not read DIR. -/

/-- The registers of the cipher that undoes an encrypting one. -/
def decrypting (r : Regs) : Regs := { r with dir := .dec }

@[simp] theorem decrypting_dir (r : Regs) : (decrypting r).dir = .dec := rfl
@[simp] theorem decrypting_twk (r : Regs) : (decrypting r).twk = r.twk := rfl
@[simp] theorem decrypting_dataKey (r : Regs) : (decrypting r).dataKey = r.dataKey := rfl

theorem iterAdvance_decrypting (r : Regs) : iterAdvance (decrypting r) = decrypting (iterAdvance r) := by
  rcases iterAdvance_cases r with ⟨hlast, hadv⟩ | ⟨hinner, hadv⟩
  · rw [hadv]; exact if_pos hlast
  · rw [hadv]; exact if_neg hinner

theorem iterate_decrypting (n : Nat) (r : Regs) : iterAdvance^[n] (decrypting r) = decrypting (iterAdvance^[n] r) :=
  (Function.Commute.iterate_left iterAdvance_decrypting n) r

theorem iterate_dir (n : Nat) (r : Regs) : (iterAdvance^[n] r).dir = r.dir :=
  iterate_frame Regs.dir iterAdvance_dir n r

/-- AES_D and the two XORs undo AES_E and the two XORs (00_scope.md R14; 42_xts.md R160). -/
theorem aesD_xor_aesE_xor (k : AesKey) (t b : Block) : aesD k (aesE k (b ^^^ t) ^^^ t ^^^ t) ^^^ t = b := by
  rw [BitVec.xor_assoc, BitVec.xor_self, BitVec.xor_zero, aesD_aesE, BitVec.xor_assoc, BitVec.xor_self, BitVec.xor_zero]

theorem xexCrypt_decrypting {r : Regs} (hdir : r.dir = .enc) (t b : Block) :
    xexCrypt (decrypting r) t (xexCrypt r t b) = b := by
  simp only [xexCrypt, hdir, decrypting_dir, decrypting_dataKey, aesD_xor_aesE_xor]

/-- Whole blocks decrypt to what was encrypted, whatever follows them. -/
theorem xtsBlocks_decrypting {r : Regs} (hdir : r.dir = .enc) (n : Nat) (plain rest : List Byte)
    (h : 16 * n ≤ plain.length) :
    (xtsBlocks n ((xtsBlocks n plain r).2 ++ rest) (decrypting r)).2 = plain.take (16 * n) := by
  induction n generalizing plain r with
  | zero => rfl
  | succ n ih =>
    have hblock : (plain.take 16).length = 16 := by rw [List.length_take]; omega
    have hrest : 16 * n ≤ (plain.drop 16).length := by rw [List.length_drop]; omega
    have hdir' : (iterAdvance r).dir = .enc := by rw [iterAdvance_dir, hdir]
    rw [xtsBlocks_succ n plain, List.append_assoc, xtsBlocks_succ, iterAdvance_decrypting,
      List.take_left' (blockBytes_length _), List.drop_left' (blockBytes_length _), ih hdir' _ hrest,
      blockOfBytes_blockBytes, decrypting_twk, xexCrypt_decrypting hdir, blockBytes_blockOfBytes _ hblock,
      Nat.mul_succ, Nat.add_comm, List.take_add]

/-- Ciphertext stealing with the tweak `first` on the block `a` and the tweak `second` on the tail, completed by the end of
the first result (42_xts.md R173, R175). -/
def stealPair (r : Regs) (first second a : Block) (tail : List Byte) : List Byte :=
  let whole := blockBytes (xexCrypt r first a)
  blockBytes (xexCrypt r second (blockOfBytes (tail ++ whole.drop tail.length))) ++ whole.take tail.length

/-- Encryption uses T_{n−1} first (42_xts.md R173). -/
theorem ctsPair_of_enc {r : Regs} (hdir : r.dir = .enc) (a : Block) (tail : List Byte) :
    (ctsPair a tail r).2 = stealPair r r.twk (iterAdvance r).twk a tail := by
  simp only [ctsPair, ctsEnc, stealPair, xexCrypt, hdir]

/-- Decryption uses T_n first (42_xts.md R175). -/
theorem ctsPair_of_dec {r : Regs} (hdir : r.dir = .dec) (a : Block) (tail : List Byte) :
    (ctsPair a tail r).2 = stealPair r (iterAdvance r).twk r.twk a tail := by
  simp only [ctsPair, ctsDec, stealPair, xexCrypt, hdir]

/-- Stealing with the tweaks in the other order gives back the stolen bytes, and with them the block they were stolen
from. -/
theorem stealPair_decrypting {r : Regs} (hdir : r.dir = .enc) (first second a : Block) (tail : List Byte)
    (h : tail.length ≤ 16) :
    stealPair (decrypting r) second first (blockOfBytes ((stealPair r first second a tail).take 16))
      ((stealPair r first second a tail).drop 16) = blockBytes a ++ tail := by
  have hwhole : (blockBytes (xexCrypt r first a)).length = 16 := blockBytes_length _
  have hcompleted : (tail ++ (blockBytes (xexCrypt r first a)).drop tail.length).length = 16 := by
    rw [List.length_append, List.length_drop]; omega
  have hstolen : ((blockBytes (xexCrypt r first a)).take tail.length).length = tail.length := by
    rw [List.length_take]; omega
  simp only [stealPair]
  rw [List.take_left' (blockBytes_length _), List.drop_left' (blockBytes_length _), blockOfBytes_blockBytes,
    xexCrypt_decrypting hdir, blockBytes_blockOfBytes _ hcompleted, hstolen, List.drop_left, List.take_left,
    List.take_append_drop, blockOfBytes_blockBytes, xexCrypt_decrypting hdir]

/-- A pair decrypts to the block and the tail it was made from (42_xts.md R184). -/
theorem ctsPair_decrypting {r : Regs} (hdir : r.dir = .enc) (a : Block) (tail : List Byte) (h : tail.length ≤ 16) :
    (ctsPair (blockOfBytes ((ctsPair a tail r).2.take 16)) ((ctsPair a tail r).2.drop 16) (decrypting r)).2 =
      blockBytes a ++ tail := by
  rw [ctsPair_of_dec (decrypting_dir r), iterAdvance_decrypting, decrypting_twk, decrypting_twk, ctsPair_of_enc hdir,
    stealPair_decrypting hdir _ _ a tail h]

/-- A stream of between one and two blocks is one stolen pair (42_xts.md R170). -/
theorem finalTransform_pair (stream : List Byte) (r : Regs) (hmin : 16 < stream.length) (hmax : stream.length < 32) :
    (finalTransform stream r).2 = (ctsPair (blockOfBytes (stream.take 16)) (stream.drop 16) r).2 := by
  have hmod : stream.length % 16 ≠ 0 := by omega
  have hblocks : finBlocks stream.length = 0 := by
    simp only [finBlocks, Config.blockBytes, if_neg hmod]
    omega
  rw [finalTransform_snd, hblocks, if_neg hmod]
  rfl

theorem finalTransform_nil (r : Regs) : (finalTransform [] r).2 = [] := rfl

/-- What the leading blocks leave of a stream is nothing, or a pair with a tail (42_xts.md R170). -/
theorem length_after_finBlocks (t : Nat) (h : t = 0 ∨ 16 ≤ t) :
    t - 16 * finBlocks t = 0 ∨ 16 < t - 16 * finBlocks t ∧ t - 16 * finBlocks t < 32 := by
  simp only [finBlocks, Config.blockBytes]
  split <;> omega

theorem finalTransform_decrypting_end {r : Regs} (hdir : r.dir = .enc) (plain : List Byte)
    (h : plain.length = 0 ∨ 16 < plain.length ∧ plain.length < 32) :
    (finalTransform (finalTransform plain r).2 (decrypting r)).2 = plain := by
  rcases h with hnil | ⟨hmin, hmax⟩
  · rw [List.length_eq_zero_iff.mp hnil, finalTransform_nil, finalTransform_nil]
  · have hlen := finalTransform_length plain r (.inr (by omega))
    have hblock : (plain.take 16).length = 16 := by rw [List.length_take]; omega
    rw [finalTransform_pair _ (decrypting r) (by omega) (by omega), finalTransform_pair plain r hmin hmax,
      ctsPair_decrypting hdir _ _ (by rw [List.length_drop]; omega), blockBytes_blockOfBytes _ hblock, List.take_append_drop]

/-- The transform of a data unit is undone by that of the decrypting cipher (42_xts.md R184). -/
theorem finalTransform_decrypting {r : Regs} (hdir : r.dir = .enc) (plain : List Byte)
    (h : plain.length = 0 ∨ 16 ≤ plain.length) :
    (finalTransform (finalTransform plain r).2 (decrypting r)).2 = plain := by
  have hlen := finalTransform_length plain r h
  have hsplit := finalTransform_split (finBlocks plain.length) plain r le_rfl
  have hend := length_after_finBlocks plain.length h
  generalize hf : finBlocks plain.length = f at hsplit hend
  have hle : 16 * f ≤ plain.length := mul_le_of_le_finBlocks f _ hf.ge
  rw [finalTransform_split f _ (decrypting r) (by rw [hlen, hf]), iterate_decrypting, hsplit,
    List.drop_left' (xtsBlocks_length f plain r), xtsBlocks_decrypting hdir f plain _ hle,
    finalTransform_decrypting_end ((iterate_dir f r).trans hdir) _ (by rwa [List.length_drop]), List.take_append_drop]

/-! ## One XTS_FIN in place of a run of commands (20_memory.md R62; 42_xts.md R184) -/

theorem emits_proc_clearUnit {s s' : State} {cap : U32} {data out : List Byte}
    (h : Emits (.xtsProc cap data) 0x21 s out s') :
    ∃ k, out.length = 16 * k ∧ clearUnit s'.regs = clearUnit (iterAdvance^[k] s.regs) := by
  obtain ⟨-, rfl, rfl⟩ := emits_proc_inv _ _ _ _ _ h
  exact ⟨_, by rw [procEffect_length]; exact Nat.mul_comm _ _, clearUnit_procEffect data s.regs⟩

/-- A run of XTS_PROC changes no more, beside the accounting of the unit, than advancing the iterator once per block it
emits (42_xts.md R163). -/
theorem procRun_clearUnit {chunks : List (U32 × List Byte)} {s s1 : State} {out : List Byte}
    (h : ProcRun chunks s out s1) : ∃ k, out.length = 16 * k ∧ clearUnit s1.regs = clearUnit (iterAdvance^[k] s.regs) := by
  induction chunks generalizing s out with
  | nil =>
    obtain ⟨rfl, rfl⟩ := h
    exact ⟨0, rfl, rfl⟩
  | cons chunk rest ih =>
    obtain ⟨out1, sMid, out2, hfirst, hrest, rfl⟩ := h
    obtain ⟨k1, hlen1, hregs1⟩ := emits_proc_clearUnit hfirst
    obtain ⟨k2, hlen2, hregs2⟩ := ih hrest
    refine ⟨k2 + k1, by rw [List.length_append]; omega, ?_⟩
    rw [hregs2, ← iterate_clearUnit, hregs1, iterate_clearUnit, ← Function.iterate_add_apply]

/-- Neither advances nor the accounting of the unit touch the configuration the checks read. -/
theorem config_of_clearUnit {r r' : Regs} {k : Nat} (h : clearUnit r' = clearUnit (iterAdvance^[k] r)) :
    r'.ctx = r.ctx ∧ r'.mode = r.mode ∧ r'.secsz = r.secsz :=
  ⟨(congrArg Regs.ctx h).trans (iterate_frame Regs.ctx iterAdvance_ctx k r),
    (congrArg Regs.mode h).trans (iterate_frame Regs.mode iterAdvance_mode k r),
    (congrArg Regs.secsz h).trans (iterate_frame Regs.secsz iterAdvance_secsz k r)⟩

/-- In Independent mode a run of XTS_PROC adds all its input to SBYTES (42_xts.md R174). -/
theorem procRun_sbytes {chunks : List (U32 × List Byte)} {s s1 : State} {out : List Byte}
    (h : ProcRun chunks s out s1) (hmode : s.regs.mode = .independent) :
    s1.regs.sbytes.toNat = s.regs.sbytes.toNat + (inputOf chunks).length := by
  induction chunks generalizing s out with
  | nil =>
    obtain ⟨rfl, rfl⟩ := h
    rfl
  | cons chunk rest ih =>
    obtain ⟨out1, sMid, out2, hfirst, hrest, rfl⟩ := h
    obtain ⟨k, -, hregs⟩ := emits_proc_clearUnit hfirst
    obtain ⟨-, hmid, -⟩ := config_of_clearUnit hregs
    rw [ih hrest (hmid.trans hmode), emits_proc_sbytes hfirst, if_pos hmode, Nat.add_assoc, ← List.length_append]
    rfl

/-- A run from a point with nothing pending emits one block less than its input holds, and keeps the rest pending
(42_xts.md R162). -/
theorem procRun_position {chunks : List (U32 × List Byte)} {s s1 : State} {out : List Byte}
    (h : ProcRun chunks s out s1) (hplen : s.regs.plen = 0) {n k : Nat} (hn : (inputOf chunks).length = n)
    (hk : n / 16 - 1 = k) :
    s1.regs.plen.toNat = n - 16 * k ∧ clearUnit s1.regs = clearUnit (iterAdvance^[k] s.regs) := by
  obtain ⟨hout, hpend⟩ := procRun_holdsBack h
  obtain ⟨k', hlen, hregs⟩ := procRun_clearUnit h
  rw [pending_eq_nil s.regs hplen, List.nil_append, hn] at hout hpend
  have hcount : nproc n = 16 * k := by rw [← hk]; exact Nat.mul_comm _ _
  obtain rfl : k' = k := by omega
  refine ⟨?_, hregs⟩
  rw [← pending_length, hpend, List.length_drop, hn, hcount]

/-- A data unit given in fragments that succeed is accepted as one XTS_FIN, where its length fits (20_memory.md R62):
SBYTES counts the unit, and the blocks emitted and the blocks to come meet at the same pair. -/
theorem finCheck_of_run {chunks : List (U32 × List Byte)} {s s1 s2 : State} {cap cap' : U32} {last out1 out2 : List Byte}
    (hplen : s.regs.plen = 0) (hpos : 0 < s.regs.bps) (hstart : atBlock s.regs s.regs.blk.toNat = s.regs)
    (hrun : ProcRun chunks s out1 s1) (hclose : Emits (.xtsFin cap last) 0x22 s1 out2 s2)
    (hlimit : (inputOf chunks ++ last).length ≤ 2 ^ 31 - 1) (hcap : (inputOf chunks ++ last).length ≤ cap'.toNat) :
    finCheck s.regs (inputOf chunks ++ last).length cap' = none := by
  obtain ⟨hcheck, -, -⟩ := emits_fin_inv _ _ _ _ _ hclose
  obtain ⟨hctx, -, hbudget, hunit, hstraddle, -⟩ := (finCheck_eq_none _ _ _).mp hcheck
  generalize hn : (inputOf chunks).length = n
  generalize hk : n / 16 - 1 = k
  obtain ⟨hheld, hregs⟩ := procRun_position hrun hplen hn hk
  obtain ⟨hctx', hmode, hsecsz⟩ := config_of_clearUnit hregs
  have hsum : s.regs.plen.toNat + (inputOf chunks ++ last).length = n + last.length := by
    rw [hplen, List.length_append, hn]
    exact Nat.zero_add _
  rw [List.length_append, hn] at hlimit hcap
  have hblocks : k ≤ finBlocks (n + last.length) := hk ▸ div_sub_one_le_finBlocks n last.length
  have hrest : s1.regs.plen.toNat + last.length = n + last.length - 16 * k := by omega
  have hmod : (n + last.length - 16 * k) % 16 = (n + last.length) % 16 :=
    Nat.sub_mul_mod (mul_le_of_le_finBlocks k _ hblocks)
  have hblk : s1.regs.blk.toNat = (s.regs.blk.toNat + k) % s.regs.bps := by
    have hwalked := congrArg Regs.blk hregs
    change s1.regs.blk = (iterAdvance^[k] s.regs).blk at hwalked
    rw [hwalked, ← atBlock_blk_toNat _ _ hpos, ← iterate_atBlock _ _ _ hpos, hstart]
  rw [hrest] at hunit hstraddle
  rw [finCheck_eq_none, hsum]
  refine ⟨hctx'.symm.trans hctx, hlimit, fun hind => ?_, by omega, fun hcont hne => ?_, hcap⟩
  · have hsbytes := procRun_sbytes hrun hind
    have hfits := hbudget (hmode.trans hind)
    rw [List.length_append, ← hsecsz]
    omega
  · have hpair := hstraddle (hmode.trans hcont) (hmod ▸ hne)
    rw [finBlocks_sub k _ hblocks, hblk, bps_eq s1.regs, hsecsz, ← bps_eq, Nat.mod_add_mod] at hpair
    rwa [Nat.add_assoc, Nat.add_sub_cancel' hblocks] at hpair

/-- A run of XTS_PROC and the closing XTS_FIN emit the final transform of all their input (42_xts.md R170). -/
theorem run_emits_finalTransform {chunks : List (U32 × List Byte)} {s s1 s2 : State} {cap : U32}
    {last out1 out2 : List Byte} (hplen : s.regs.plen = 0) (hrun : ProcRun chunks s out1 s1)
    (hclose : Emits (.xtsFin cap last) 0x22 s1 out2 s2) :
    out1 ++ out2 = (finalTransform (inputOf chunks ++ last) s.regs).2 := by
  obtain ⟨-, rfl, -⟩ := emits_fin_inv _ _ _ _ _ hclose
  rw [(procRun_finEffect hrun last).1, finEffect_snd, pending_eq_nil _ hplen, List.nil_append]

/-- A data unit that XTS_FIN accepts at its end is empty or has a whole block (42_xts.md R171). -/
theorem unit_of_run {chunks : List (U32 × List Byte)} {s s1 s2 : State} {cap : U32} {last out1 out2 : List Byte}
    (hplen : s.regs.plen = 0) (hrun : ProcRun chunks s out1 s1) (hclose : Emits (.xtsFin cap last) 0x22 s1 out2 s2) :
    (inputOf chunks ++ last).length = 0 ∨ 16 ≤ (inputOf chunks ++ last).length := by
  obtain ⟨hcheck, -, -⟩ := emits_fin_inv _ _ _ _ _ hclose
  obtain ⟨-, -, -, hunit, -, -⟩ := (finCheck_eq_none _ _ _).mp hcheck
  obtain ⟨hheld, -⟩ := procRun_position hrun hplen rfl rfl
  rw [List.length_append]
  omega

/-! ## A cipher at its start (42_xts.md R150) -/

theorem regs_of_xtsInit {s0 s : State} {dir : Dir} {mode : Mode} {k1 k2 : AesKey} {secsz sec : U64}
    (hsecsz : 16 ≤ secsz.toNat) (h : exec (.xtsInit dir mode k1 k2 secsz sec) s0 = .next s) :
    s.regs = initCipher dir mode k1 k2 secsz sec := by
  rw [exec, execXtsInit, (secszCheck_eq_none secsz).mpr hsecsz, reply_none] at h
  rw [← Host.Outcome.next.inj h]

/-- Every register of a new cipher: its iterator is at the start of its sector, under its own tweak key. -/
theorem initCipher_eq (dir : Dir) (mode : Mode) (k1 k2 : AesKey) (secsz sec : U64) :
    initCipher dir mode k1 k2 secsz sec =
      { Regs.zero with
        ctx := .cipher, k1 := keySlot k1, ks1 := keySize k1, k2 := keySlot k2, ks2 := keySize k2, dir := dir, mode := mode,
        secsz := secsz, startSec := sec, sec := sec, twk := tweakStart k2 sec } := by
  rw [initCipher, iterLoad, tweakAt_zero, Regs.tweakKey, slotKey_keySlot]
  rfl

theorem initCipher_dec (mode : Mode) (k1 k2 : AesKey) (secsz sec : U64) :
    initCipher .dec mode k1 k2 secsz sec = decrypting (initCipher .enc mode k1 k2 secsz sec) := by
  rw [initCipher_eq, initCipher_eq]
  rfl

theorem atBlock_initCipher (dir : Dir) (mode : Mode) (k1 k2 : AesKey) (secsz sec : U64) :
    atBlock (initCipher dir mode k1 k2 secsz sec) 0 = initCipher dir mode k1 k2 secsz sec := by
  simp [initCipher_eq, atBlock, Regs.tweakKey, Regs.zero]

/-- Settles O50: the decrypting cipher's final transform undoes the encrypting one's, however both inputs are cut, and
its checks are those that the encrypting run has passed. -/
theorem roundTrip : Obligations.RoundTrip := by
  intro s0 d0 s d s1 s2 mode k1 k2 secsz sec chunks cap last out1 out2 hsecsz hinit hinit' hrun hclose plain cipher
  have hs := regs_of_xtsInit hsecsz hinit
  have hd : d.regs = decrypting s.regs := by rw [hs, ← initCipher_dec, regs_of_xtsInit hsecsz hinit']
  have hdir : s.regs.dir = .enc := by rw [hs]; rfl
  have hplen : s.regs.plen = 0 := by rw [hs]; rfl
  have hplen' : d.regs.plen = 0 := by rw [hd]; exact hplen
  have hcipher : cipher = (finalTransform plain s.regs).2 := run_emits_finalTransform hplen hrun hclose
  have hundone : (finalTransform cipher d.regs).2 = plain := by
    rw [hcipher, hd, finalTransform_decrypting hdir plain (unit_of_run hplen hrun hclose)]
  refine ⟨fun pieces cap' tail o1 o2 d1 d2 hrun' hclose' hinput => ?_, fun hlimit cap' hcap => ?_⟩
  · rw [run_emits_finalTransform hplen' hrun' hclose', hinput, hundone]
  · have hlen : cipher.length = plain.length :=
      List.length_append.trans (lengthPreservation s s1 s2 chunks cap last out1 out2 hplen hrun hclose)
    have hpos : 0 < s.regs.bps := by
      rw [hs, bps_eq]
      change 0 < (secsz.toNat + 15) / 16
      omega
    have hstart : atBlock s.regs s.regs.blk.toNat = s.regs := by rw [hs]; exact atBlock_initCipher _ _ _ _ _ _
    have hwhole : finCheck s.regs plain.length cap' = none :=
      finCheck_of_run hplen hpos hstart hrun hclose hlimit hcap
    have hcheck : finCheck d.regs cipher.length cap' = none := by rw [hd, hlen]; exact hwhole
    have hout : (finEffect cipher d.regs).2 = plain := by
      rw [finEffect_snd, pending_eq_nil _ hplen', List.nil_append, hundone]
    exact ⟨_, hout ▸ emits_fin d cap' cipher hcheck⟩

end Sys2Proof.Proofs

/-! # Proofs of the family 60_exceptions.md: a failed command changes nothing (R203), the order of the checks (R204) -/

namespace Sys2Proof.Proofs

open Machine

/-! ## Every command is one check and one reply -/

/-- The checks of a command as one: the first that fails (60_exceptions.md R204). -/
def commandCheck (r : Regs) : Instr → Option Cause
  | .twkInit _ secsz _ blk => iterCheck secsz blk
  | .twkReset secsz _ blk => firstCause [iterWriteCheck r, iterCheck secsz blk]
  | .twkAdv | .twkTake => iterWriteCheck r
  | .twkCur | .twkPos | .twkComp _ _ | .twkComp128 _ _ => iterReadCheck r
  | .xtsInit _ _ _ _ secsz _ => secszCheck secsz
  | .xtsProc cap data => procCheck r data.length cap
  | .xtsFin cap data => finCheck r data.length cap
  | .xtsPupd w n | .xtsPfin w n => predictCheck r w n.toNat
  | .xtsReset => cipherCheck r
  | .gfDbl _ | .gfMul _ _ | .gfPow _ | .gfMulpow _ _ | .xtsDisp | .info => none

/-- Every command makes its checks and replies, all in one step (20_memory.md R59). -/
theorem exec_eq_reply (i : Instr) (s : State) :
    ∃ r fields, exec i s = .next (s.reply i.opcode (commandCheck s.regs i) r fields) := by
  cases i
  case gfDbl | gfMul | gfPow | gfMulpow | info => exact ⟨s.regs, _, rfl⟩
  all_goals exact ⟨_, _, rfl⟩

/-! ## A failed command changes nothing (60_exceptions.md R203) -/

/-- ERR is the low byte of the status word (30_encoding.md R72). -/
theorem statusWord_err (err detail opc : Byte) : (statusWord err detail opc).extractLsb' 0 8 = err := by
  apply BitVec.eq_of_toNat_eq
  rw [statusWord, BitVec.extractLsb'_toNat, BitVec.toNat_ofNat, Nat.shiftRight_zero]
  omega

theorem okStatus_err (opc : Byte) : (okStatus opc).extractLsb' 0 8 = 0 := statusWord_err 0 0 opc

/-- No error kind has the code of success (60_exceptions.md R200). -/
theorem errStatus_err_ne_zero (c : Cause) (opc : Byte) : (errStatus c opc).extractLsb' 0 8 ≠ 0 := by
  rw [errStatus, statusWord_err]
  cases c <;> decide

/-- A reply with an error is the one of a failed check. -/
theorem reply_of_err_ne_zero {s : State} {op : Opcode} {check : Option Cause} {r : Regs} {own fields : List Word} {status : Word}
    (hresp : (s.reply op check r own).respOut = s.respOut ++ status :: fields) (herr : status.extractLsb' 0 8 ≠ 0) :
    fields = [] ∧ s.reply op check r own = { s with respOut := s.respOut ++ [status] } := by
  rcases reply_cases s op check r own with ⟨c, -, hfail⟩ | ⟨-, hok⟩
  · rw [hfail] at hresp ⊢
    obtain ⟨rfl, rfl⟩ := List.cons.inj (List.append_cancel_left hresp)
    exact ⟨rfl, rfl⟩
  · rw [hok] at hresp
    obtain ⟨rfl, -⟩ := List.cons.inj (List.append_cancel_left hresp)
    exact absurd (okStatus_err op.code) herr

/-- With the inputs at rest, a step at an illegal header rejects it (30_encoding.md R84). -/
theorem step_of_decode_illegal {s : State} {c : Cause} {o : Byte} (hrst : s.rst = false) (hfull : s.respFull = false)
    (hdec : decode s.cmdIn = .illegal c o) : step s = .next (s.rejectHeader c o) := by
  rw [step, hrst, hfull, hdec]
  rfl

/-- Settles O15: a command's reply with a nonzero ERR is that of a failed check, and so is a rejected header's. -/
theorem failedCommandsChangeNothing : Obligations.FailedCommandsChangeNothing := by
  refine ⟨fun i s s' status fields hexec hresp herr => ?_, fun s s' c o hrst hfull hdec hstep => ?_⟩
  · obtain ⟨r, own, hreply⟩ := exec_eq_reply i s
    obtain rfl := Host.Outcome.next.inj (hreply.symm.trans hexec)
    exact reply_of_err_ne_zero hresp herr
  · obtain rfl := Host.Outcome.next.inj ((step_of_decode_illegal hrst hfull hdec).symm.trans hstep)
    exact ⟨State.rejectHeader_regs s c o, errStatus c o, State.rejectHeader_respOut s c o, errStatus_err_ne_zero c o⟩

/-! ## The model's checks against a list in the spec's numbers (60_exceptions.md R204) -/

/-- ERR and DETAIL of a cause (60_exceptions.md R200, R201). -/
def report (c : Cause) : Nat × Nat := (c.kind.code.toNat, c.detail.toNat)

/-- The list in the spec's numbers reports what the check does. -/
def Agrees (checks : List (Bool × Nat × Nat)) (check : Option Cause) : Prop :=
  firstReported checks = check.map report

theorem firstReported_append (checks more : List (Bool × Nat × Nat)) :
    firstReported (checks ++ more) = (firstReported checks).or (firstReported more) := by
  induction checks with
  | nil => rfl
  | cons entry rest ih =>
    obtain ⟨applies, e⟩ := entry
    cases applies with
    | true => rfl
    | false => exact ih

theorem firstCause_cons (check : Option Cause) (rest : List (Option Cause)) :
    firstCause (check :: rest) = check.or (firstCause rest) := by
  cases check <;> rfl

theorem agrees_nil : Agrees [] (firstCause []) := rfl

/-- Lists that agree with two checks agree, one after the other, with the two in this order. -/
theorem Agrees.or {checks more : List (Bool × Nat × Nat)} {check later : Option Cause} (hfirst : Agrees checks check)
    (hlater : Agrees more later) : Agrees (checks ++ more) (check.or later) := by
  rw [Agrees, firstReported_append, hfirst, hlater, Option.map_or]

theorem Agrees.cons {checks more : List (Bool × Nat × Nat)} {check : Option Cause} {rest : List (Option Cause)}
    (hfirst : Agrees checks check) (hrest : Agrees more (firstCause rest)) :
    Agrees (checks ++ more) (firstCause (check :: rest)) := by
  rw [firstCause_cons]
  exact hfirst.or hrest

/-- A check with one cause agrees with the condition under which it fails. -/
theorem agrees_of_eq_some_iff {check : Option Cause} {cause : Cause} {p : Prop} [Decidable p]
    (h : ∀ c, check = some c ↔ c = cause ∧ p) : Agrees [(decide p, report cause)] check := by
  by_cases hp : p
  · rw [Agrees, firstReported_of_applies hp, (h cause).mpr ⟨rfl, hp⟩, Option.map_some]
  · have hnone : check = none := Option.eq_none_iff_forall_ne_some.mpr fun c hc => hp ((h c).mp hc).2
    rw [Agrees, firstReported_of_not hp, hnone]
    rfl

/-- A command reports the first failure of any list that agrees with its checks. -/
theorem reportsFirst_of_agrees {i : Instr} {s : State} {checks : List (Bool × Nat × Nat)}
    (h : Agrees checks (commandCheck s.regs i)) : ReportsFirst i s i.opcode.code.toNat checks := by
  obtain ⟨r, fields, hreply⟩ := exec_eq_reply i s
  rw [ReportsFirst, h, hreply]
  cases commandCheck s.regs i with
  | none => exact ⟨r, fields, congrArg _ (reply_none_eq_answered s i.opcode r fields)⟩
  | some c =>
    refine congrArg Host.Outcome.next ?_
    rw [reply_some, State.raise, errStatus, statusWord_eq_statusNumber]
    rfl

/-! ## The checks one by one -/

/-- The context check of the commands that write a standalone iterator (41_tweak.md R127). -/
theorem iterWriteCheck_agrees (r : Regs) :
    Agrees [(decide (r.ctx = .disposed), 3, 0x30), (decide (r.ctx = .none), 3, 0x31), (decide (r.ctx = .cipher), 3, 0x35)]
      (iterWriteCheck r) := by
  rw [iterWriteCheck]
  cases r.ctx <;> rfl

/-- The context check of the commands that read an iterator (41_tweak.md R127). -/
theorem iterReadCheck_agrees (r : Regs) :
    Agrees [(decide (r.ctx = .disposed), 3, 0x30), (decide (r.ctx = .none), 3, 0x31)] (iterReadCheck r) := by
  rw [iterReadCheck]
  cases r.ctx <;> rfl

/-- The context check of the cipher commands (42_xts.md R151). -/
theorem cipherCheck_agrees (r : Regs) :
    Agrees [(decide (r.ctx = .disposed), 3, 0x30), (decide (r.ctx = .none ∨ r.ctx = .iter), 3, 0x31)] (cipherCheck r) := by
  rw [cipherCheck]
  cases r.ctx <;> rfl

theorem secszCheck_agrees (secsz : U64) : Agrees [(decide (secsz.toNat < 16), 1, 0x10)] (secszCheck secsz) :=
  agrees_of_eq_some_iff (cause := .secszLt16) fun c => by simp [secszCheck, and_comm, @eq_comm _ c]

theorem startBlkCheck_eq_some_iff (secsz blk : U64) (c : Cause) :
    startBlkCheck secsz blk = some c ↔ c = .startBlk ∧ blocksPerSector secsz ≤ blk.toNat := by
  simp [startBlkCheck, and_comm, @eq_comm _ c]

theorem startBlkCheck_agrees (secsz blk : U64) :
    Agrees [(decide ((secsz.toNat + 15) / 16 ≤ blk.toNat), 2, 0x20)] (startBlkCheck secsz blk) :=
  agrees_of_eq_some_iff (startBlkCheck_eq_some_iff secsz blk)

theorem iterCheck_agrees (secsz blk : U64) :
    Agrees [(decide (secsz.toNat < 16), 1, 0x10), (decide ((secsz.toNat + 15) / 16 ≤ blk.toNat), 2, 0x20)]
      (iterCheck secsz blk) :=
  (secszCheck_agrees secsz).cons ((startBlkCheck_agrees secsz blk).cons agrees_nil)

theorem ovfCheck_w32_agrees (t : Nat) : Agrees [(decide (2 ^ 31 - 1 < t), 3, 0x33)] (ovfCheck .w32 t) :=
  agrees_of_eq_some_iff (cause := .ovf32) fun c => by simp [ovfCheck, and_comm, @eq_comm _ c]

theorem ovfCheck_w64_agrees (t : Nat) : Agrees [(decide (2 ^ 63 - 1 < t), 3, 0x34)] (ovfCheck .w64 t) :=
  agrees_of_eq_some_iff (cause := .ovf64) fun c => by simp [ovfCheck, and_comm, @eq_comm _ c]

theorem budgetCheck_agrees (r : Regs) (n : Nat) :
    Agrees [(decide (r.mode = .independent ∧ r.secsz.toNat < r.sbytes.toNat + n), 3, 0x32)] (budgetCheck r n) :=
  agrees_of_eq_some_iff (budgetCheck_eq_some_iff r n)

theorem unitCheck_agrees (t : Nat) : Agrees [(decide (0 < t ∧ t < 16), 1, 0x12)] (unitCheck t) :=
  agrees_of_eq_some_iff (unitCheck_eq_some_iff t)

/-- Where the check looks, the unit is not aligned, so the pair begins behind `t / 16 - 1` blocks (42_xts.md R170, R172). -/
theorem straddleCheck_agrees (r : Regs) (t : Nat) :
    Agrees [(decide (r.mode = .continuous ∧ t % 16 ≠ 0 ∧
      (r.blk.toNat + (t / 16 - 1)) % ((r.secsz.toNat + 15) / 16) = (r.secsz.toNat + 15) / 16 - 1), 1, 0x13)]
      (straddleCheck r t) := by
  refine agrees_of_eq_some_iff (cause := .ctsStraddle) fun c => (straddleCheck_eq_some_iff r t c).trans ?_
  refine and_congr_right' (and_congr_right' (and_congr_right fun hunaligned => ?_))
  have hblocks : finBlocks t = t / 16 - 1 := if_neg hunaligned
  rw [hblocks]
  rfl

theorem capCheck_agrees (emitted : Nat) (cap : U32) : Agrees [(decide (cap.toNat < emitted), 1, 0x11)] (capCheck emitted cap) :=
  agrees_of_eq_some_iff (capCheck_eq_some_iff emitted cap)

/-- The checks of both predict commands agree, whatever their width's bound is (42_xts.md R176 to R178). -/
theorem predictCheck_agrees (r : Regs) (w : PredictWidth) (n : Nat) {ovf : Bool × Nat × Nat}
    (hovf : Agrees [ovf] (ovfCheck w (r.plen.toNat + n))) :
    Agrees [(decide (r.ctx = .disposed), 3, 0x30), (decide (r.ctx = .none ∨ r.ctx = .iter), 3, 0x31), ovf,
      (decide (r.mode = .independent ∧ r.secsz.toNat < r.sbytes.toNat + n), 3, 0x32)] (predictCheck r w n) :=
  (cipherCheck_agrees r).cons (hovf.cons ((budgetCheck_agrees r n).cons agrees_nil))

/-- XTS_PROC makes the checks of its prediction, and then looks at the output capacity (42_xts.md R163). -/
theorem procCheck_agrees {r : Regs} {n : Nat} {checks : List (Bool × Nat × Nat)} (cap : U32)
    (hpredict : Agrees checks (predictCheck r .w32 n)) :
    Agrees (checks ++ [(decide (cap.toNat < nproc (r.plen.toNat + n)), 1, 0x11)]) (procCheck r n cap) := by
  rw [procCheck_eq_or]
  exact hpredict.or ((capCheck_agrees _ cap).cons agrees_nil)

/-- XTS_FIN makes the checks of its prediction, and then those of the unit, the pair and the output capacity
(42_xts.md R170). -/
theorem finCheck_agrees {r : Regs} {n t : Nat} {checks : List (Bool × Nat × Nat)} (cap : U32) (ht : t = r.plen.toNat + n)
    (hpredict : Agrees checks (predictCheck r .w32 n)) :
    Agrees (checks ++ [(decide (0 < t ∧ t < 16), 1, 0x12),
      (decide (r.mode = .continuous ∧ t % 16 ≠ 0 ∧
        (r.blk.toNat + (t / 16 - 1)) % ((r.secsz.toNat + 15) / 16) = (r.secsz.toNat + 15) / 16 - 1), 1, 0x13),
      (decide (cap.toNat < t), 1, 0x11)]) (finCheck r n cap) := by
  rw [finCheck_eq_or, ← ht]
  exact hpredict.or ((unitCheck_agrees t).cons ((straddleCheck_agrees r t).cons ((capCheck_agrees t cap).cons agrees_nil)))

/-! ## The checks of a header -/

/-- The assigned OPC numbers are those outside the gaps of the opcode map (30_encoding.md R80, R82). -/
theorem opc_not_assigned_iff (opc : Nat) :
    opc ∉ [0x01, 0x02, 0x03, 0x04, 0x10, 0x11, 0x12, 0x13, 0x14, 0x15, 0x16, 0x17, 0x20, 0x21, 0x22, 0x23, 0x24, 0x25, 0x26,
      0x30] ↔
    opc = 0 ∨ (0x05 ≤ opc ∧ opc ≤ 0x0F) ∨ (0x18 ≤ opc ∧ opc ≤ 0x1F) ∨ (0x27 ≤ opc ∧ opc ≤ 0x2F) ∨ 0x31 ≤ opc := by
  simp only [List.mem_cons, List.not_mem_nil, or_false]
  omega

/-- The defined flags by OPC number, 0 where none are (30_encoding.md R81). -/
def flagsByOpc : Nat → Nat
  | 0x10 => 1
  | 0x20 => 15
  | 0x23 => 1
  | 0x24 => 1
  | _ => 0

theorem flagsByOpc_eq_ite (opc : Nat) :
    flagsByOpc opc = if opc = 0x10 ∨ opc = 0x23 ∨ opc = 0x24 then 1 else if opc = 0x20 then 15 else 0 := by
  unfold flagsByOpc
  split
  case h_5 h10 h20 h23 h24 => rw [if_neg (by tauto), if_neg h20]
  all_goals rfl

/-- An illegal header in the words of R204: the checks of R82 and R83 with the assigned numbers listed. -/
theorem headerPrecedence {s : State} {h : Word} {rest : List Word} {err detail : Nat} (hrst : s.rst = false)
    (hfull : s.respFull = false) (hcmd : s.cmdIn = h :: rest)
    (hfirst : firstReported
      [(decide (h.toNat % 256 ∉ [0x01, 0x02, 0x03, 0x04, 0x10, 0x11, 0x12, 0x13, 0x14, 0x15, 0x16, 0x17, 0x20, 0x21, 0x22,
          0x23, 0x24, 0x25, 0x26, 0x30]), 4, 0x01),
        (decide (h.toNat / 65536 ≠ 0), 4, 0x02),
        (decide (flagsByOpc (h.toNat % 256) < h.toNat / 256 % 256), 4, 0x03)] = some (err, detail)) :
    step s = .next (State.failed { s with cmdIn := rest } (h.toNat % 256) err detail) := by
  apply illegalHeadersRejected s h rest err detail hrst hfull hcmd
  rw [← hfirst, flagsByOpc_eq_ite]
  simp only [opc_not_assigned_iff]

/-! ## The order of the checks (60_exceptions.md R204) -/

/-- Settles O17: each command's list is its own checks in the spec's numbers, one after the other. -/
theorem errorPrecedence : Obligations.ErrorPrecedence := by
  intro s
  have hread := iterReadCheck_agrees s.regs
  have hwrite := iterWriteCheck_agrees s.regs
  have hovf32 (n : Nat) := ovfCheck_w32_agrees (s.regs.plen.toNat + n)
  have hovf64 (n : Nat) := ovfCheck_w64_agrees (s.regs.plen.toNat + n)
  refine ⟨fun _ _ _ _ hrst hfull hcmd hfirst => headerPrecedence hrst hfull hcmd hfirst,
    fun k2 z sec b => reportsFirst_of_agrees (i := .twkInit k2 z sec b) (iterCheck_agrees z b),
    fun z sec b => reportsFirst_of_agrees (i := .twkReset z sec b) (hwrite.cons ((iterCheck_agrees z b).cons agrees_nil)),
    reportsFirst_of_agrees (i := .twkCur) hread, reportsFirst_of_agrees (i := .twkPos) hread,
    reportsFirst_of_agrees (i := .twkAdv) hwrite, reportsFirst_of_agrees (i := .twkTake) hwrite,
    fun sec j => reportsFirst_of_agrees (i := .twkComp sec j) hread,
    fun a n => reportsFirst_of_agrees (i := .twkComp128 a n) hread,
    fun dir mode k1 k2 z sec => reportsFirst_of_agrees (i := .xtsInit dir mode k1 k2 z sec) (secszCheck_agrees z),
    fun cap data => ?_, fun n => ?_, reportsFirst_of_agrees (i := .xtsReset) (cipherCheck_agrees s.regs)⟩
  · have hpredict := predictCheck_agrees s.regs .w32 data.length (hovf32 data.length)
    exact ⟨reportsFirst_of_agrees (i := .xtsProc cap data) (procCheck_agrees cap hpredict),
      reportsFirst_of_agrees (i := .xtsFin cap data) (finCheck_agrees cap rfl hpredict)⟩
  · have h32 := predictCheck_agrees s.regs .w32 n.toNat (hovf32 n.toNat)
    have h64 := predictCheck_agrees s.regs .w64 n.toNat (hovf64 n.toNat)
    exact ⟨reportsFirst_of_agrees (i := .xtsPupd .w32 n) h32, reportsFirst_of_agrees (i := .xtsPupd .w64 n) h64,
      reportsFirst_of_agrees (i := .xtsPfin .w32 n) h32, reportsFirst_of_agrees (i := .xtsPfin .w64 n) h64⟩

end Sys2Proof.Proofs

/-! # Proofs of the family 70_reset_and_hazards.md: what a hardware reset leaves (R230) -/

namespace Sys2Proof.Proofs

open Machine

/-! ## A command reads only its own words (30_encoding.md R79) -/

theorem wordsAt_take (p : List Word) {k n m : Nat} (h : k + n ≤ m) : wordsAt (p.take m) k n = wordsAt p k n := by
  rw [wordsAt, wordsAt, List.drop_take, List.take_take, Nat.min_eq_left (by omega)]

theorem u32At_take (p : List Word) {k m : Nat} (h : k < m) : u32At (p.take m) k = u32At p k := by
  simp [u32At, List.getD_eq_getElem?_getD, h]

theorem u64At_take (p : List Word) {k m : Nat} (h : k + 2 ≤ m) : u64At (p.take m) k = u64At p k := by
  rw [u64At, wordsAt_take p h, u64At]

theorem blkAt_take (p : List Word) {k m : Nat} (h : k + 4 ≤ m) : blkAt (p.take m) k = blkAt p k := by
  rw [blkAt, wordsAt_take p h, blkAt]

theorem keyAt_take (ks : KeySize) (p : List Word) {k m : Nat} (h : k + keyWords ks ≤ m) :
    keyAt ks (p.take m) k = keyAt ks p k := by
  cases ks
  case k128 => exact congrArg (fun ws => AesKey.k128 (BitVec.ofNat 128 (leNatOfWords ws))) (wordsAt_take p h)
  case k256 => exact congrArg (fun ws => AesKey.k256 (BitVec.ofNat 256 (leNatOfWords ws))) (wordsAt_take p h)

theorem dataAt_take (l : Nat) (p : List Word) {k m : Nat} (h : k + dataWords l ≤ m) :
    dataAt l (p.take m) k = dataAt l p k := by
  rw [dataAt, wordsAt_take p h, dataAt]

/-- The words of a format are counted from the opcode and the flags, and in F_DATA from L, which is one of them. -/
theorem payloadWords_congr {op : Opcode} {flg : Byte} {p p' : List Word} {m : Nat} (h : payloadWords op flg p ≤ m)
    (hsame : p'.take m = p.take m) : payloadWords op flg p' = payloadWords op flg p := by
  cases op
  case xtsProc | xtsFin =>
    have hpos : 0 < m := by simp only [payloadWords] at h; omega
    simp only [payloadWords]
    rw [← u32At_take p' hpos, hsame, u32At_take p hpos]
  all_goals rfl

/-- A command's operands are read from its own payload words. -/
theorem assemble_take (op : Opcode) (flg : Byte) (p : List Word) {m : Nat} (h : payloadWords op flg p ≤ m) :
    assemble op flg (p.take m) = assemble op flg p := by
  cases op <;> simp only [payloadWords] at h <;> simp only [assemble]
  case gfDbl => rw [blkAt_take p (by omega)]
  case gfMul => rw [blkAt_take p (by omega), blkAt_take p (by omega)]
  case gfPow | xtsPupd | xtsPfin => rw [u64At_take p (by omega)]
  case gfMulpow | twkComp128 => rw [blkAt_take p (by omega), u64At_take p (by omega)]
  case twkInit =>
    rw [keyAt_take _ p (by omega), u64At_take p (by omega), u64At_take p (by omega), u64At_take p (by omega)]
  case twkReset => rw [u64At_take p (by omega), u64At_take p (by omega), u64At_take p (by omega)]
  case twkComp => rw [u64At_take p (by omega), u64At_take p (by omega)]
  case xtsInit =>
    rw [keyAt_take _ p (by omega), keyAt_take _ p (by omega), u64At_take p (by omega), u64At_take p (by omega)]
  case xtsProc | xtsFin => rw [u32At_take p (by omega), u32At_take p (by omega), dataAt_take _ p (by omega)]

theorem assemble_congr {op : Opcode} {flg : Byte} {p p' : List Word} {m : Nat} (h : payloadWords op flg p ≤ m)
    (hsame : p'.take m = p.take m) : assemble op flg p' = assemble op flg p := by
  rw [← assemble_take op flg p' ((payloadWords_congr h hsame).trans_le h), hsame, assemble_take op flg p h]

/-- A stream that begins with the words of a command begins with that command. -/
theorem decode_command_congr {ws ws' : List Word} {i : Instr} {n : Nat} (h : decode ws = .command i n)
    (hsame : ws'.take n = ws.take n) : decode ws' = .command i n := by
  obtain ⟨hpos, hlen⟩ := decode_command_length ws i n h
  have hlen' : n ≤ ws'.length := by
    have := congrArg List.length hsame
    simp only [List.length_take] at this
    omega
  match ws, ws' with
  | [], _ | _, [] => simp only [List.length_nil] at *; omega
  | w :: p, w' :: p' =>
    rcases decode_cases w p with ⟨c, -, e⟩ | ⟨op, -, -, e⟩ | ⟨op, hop, -, e⟩ <;> rw [e] at h <;> cases h
    rw [Nat.add_comm, List.take_succ_cons, List.take_succ_cons, List.cons.injEq] at hsame
    obtain ⟨rfl, hpay⟩ := hsame
    have hwords := payloadWords_congr le_rfl hpay
    rw [List.length_cons] at hlen'
    rw [decode_command w' p' op hop (by omega), hwords, assemble_congr le_rfl hpay]

/-- An illegal header decodes from its one word, whatever follows it (30_encoding.md R84). -/
theorem decode_illegal_congr {ws : List Word} {c : Cause} {o : Byte} (h : decode ws = .illegal c o) (rest : List Word) :
    decode (ws.take 1 ++ rest) = .illegal c o := by
  match ws with
  | [] => cases h
  | w :: p =>
    rcases decode_cases w p with ⟨c', hc, e⟩ | ⟨op, -, -, e⟩ | ⟨op, -, -, e⟩ <;> rw [e] at h <;> cases h
    exact decode_illegal w rest c hc

/-! ## Streams that end where a command ends -/

theorem framed_iff_drop_of_command {ws : List Word} {i : Instr} {n : Nat} (h : decode ws = .command i n) :
    Framed ws ↔ Framed (ws.drop n) := by
  refine ⟨fun hframed => ?_, Framed.command ws i n h⟩
  cases hframed with
  | nil => cases h
  | command _ _ _ h' hrest => cases h.symm.trans h'; exact hrest
  | illegal _ _ _ h' _ => cases h.symm.trans h'

theorem framed_iff_drop_of_illegal {ws : List Word} {c : Cause} {o : Byte} (h : decode ws = .illegal c o) :
    Framed ws ↔ Framed (ws.drop 1) := by
  refine ⟨fun hframed => ?_, Framed.illegal ws c o h⟩
  cases hframed with
  | nil => cases h
  | command _ _ _ h' _ => cases h.symm.trans h'
  | illegal _ _ _ _ hrest => exact hrest

/-- The words behind a whole command are framed as they are by themselves. -/
theorem framed_command_append {ws : List Word} {i : Instr} {n : Nat} (h : decode ws = .command i n) (rest : List Word) :
    Framed (ws.take n ++ rest) ↔ Framed rest := by
  obtain ⟨-, hlen⟩ := decode_command_length ws i n h
  have hn : (ws.take n).length = n := List.length_take_of_le hlen
  rw [framed_iff_drop_of_command (decode_command_congr h (List.take_left' hn)), List.drop_left' hn]

/-- The words behind an illegal header are framed as they are by themselves. -/
theorem framed_illegal_append {ws : List Word} {c : Cause} {o : Byte} (h : decode ws = .illegal c o) (rest : List Word) :
    Framed (ws.take 1 ++ rest) ↔ Framed rest := by
  rw [framed_iff_drop_of_illegal (decode_illegal_congr h rest)]
  cases ws with
  | nil => cases h
  | cons w p => rfl

/-! ## What a hardware reset leaves of the stream (70_reset_and_hazards.md R230) -/

theorem framed_wholeCommands_append (k : Nat) (ws more : List Word) :
    Framed (wholeCommands k ws ++ more) ↔ Framed more := by
  induction k generalizing ws with
  | zero => rfl
  | succ k ih =>
    rcases wholeCommands_cases k ws with ⟨-, e⟩ | ⟨i, n, h, e⟩ | ⟨c, o, h, e⟩ <;> rw [e]
    · rfl
    · rw [List.append_assoc, framed_command_append h, ih]
    · rw [List.append_assoc, framed_illegal_append h, ih]

theorem framed_resetStream_append (ws more : List Word) : Framed (resetStream ws ++ more) ↔ Framed more :=
  framed_wholeCommands_append ws.length ws more

theorem framed_resetStream (ws : List Word) : Framed (resetStream ws) := by
  rw [← List.append_nil (resetStream ws), framed_resetStream_append]
  exact .nil

theorem resetStream_of_incomplete {ws : List Word} (h : decode ws = .incomplete) : resetStream ws = [] := by
  cases ws with
  | nil => rfl
  | cons w p =>
    rcases wholeCommands_cases p.length (w :: p) with ⟨-, e⟩ | ⟨i, n, h', -⟩ | ⟨c, o, h', -⟩
    · exact e
    all_goals cases h.symm.trans h'

theorem step_of_rst {s : State} (hrst : s.rst = true) : step s = .next s.hardwareReset := if_pos hrst

/-- Settles O12: the registers are the constants of reset, and the stream left is whole commands and illegal headers. -/
theorem hardwareResetClears : Obligations.HardwareResetClears := fun s hrst =>
  ⟨s.hardwareReset, step_of_rst hrst, rfl, rfl, rfl, rfl, rfl, rfl, rfl, rfl, rfl, rfl, rfl, rfl, rfl, rfl, rfl, rfl,
    framed_resetStream s.cmdIn, resetStream_of_incomplete, framed_resetStream_append s.cmdIn⟩

end Sys2Proof.Proofs

/-! # Proofs of the statements across families: encoding and decoding (30_encoding.md sections 2 to 5; 20_memory.md R57) -/

namespace Sys2Proof.Proofs

open Machine

/-! ## A field that was written is read back -/

/-- A bit string of `n` words is the integer of the words it is written as (30_encoding.md R73). -/
theorem ofNat_leNatOfWords_leWords {w n : Nat} (hw : 2 ^ w = (2 ^ 32) ^ n) (x : BitVec w) :
    BitVec.ofNat w (leNatOfWords (leWords n x.toNat)) = x := by
  rw [leNatOfWords_leWords, ← hw, Nat.mod_eq_of_lt x.isLt, BitVec.ofNat_toNat, BitVec.setWidth_eq]

theorem u64At_of_field {p : List Word} {k : Nat} {v : U64} (h : wordsAt p k 2 = u64Field v) : u64At p k = v := by
  rw [u64At, h]
  exact ofNat_leNatOfWords_leWords rfl v

theorem blkAt_of_field {p : List Word} {k : Nat} {x : Block} (h : wordsAt p k 4 = blkField x) : blkAt p k = x := by
  rw [blkAt, h]
  exact ofNat_leNatOfWords_leWords rfl x

theorem keyAt_of_field {p : List Word} {k : Nat} {key : AesKey}
    (h : wordsAt p k (keyWords (keySize key)) = keyField key) : keyAt (keySize key) p k = key := by
  cases key with
  | k128 key => exact congrArg AesKey.k128 (blkAt_of_field h)
  | k256 key =>
    refine congrArg AesKey.k256 ((congrArg (fun ws => BitVec.ofNat 256 (leNatOfWords ws)) h).trans ?_)
    exact ofNat_leNatOfWords_leWords rfl key

theorem bytesOfWords_take (ws : List Word) (n : Nat) : bytesOfWords (ws.take n) = (bytesOfWords ws).take (4 * n) := by
  induction n generalizing ws with
  | zero => rfl
  | succ n ih =>
    cases ws with
    | nil => rfl
    | cons w ws =>
      rw [List.take_succ_cons, bytesOfWords_cons, bytesOfWords_cons, ih, Nat.mul_succ, Nat.add_comm,
        ← wordBytes_length w, List.take_length_add_append]

/-- The bytes of a DATA field are the first ones from its word offset on (20_memory.md R56, R57). -/
theorem dataAt_eq_take (l : Nat) (p : List Word) (k : Nat) : dataAt l p k = (bytesOfWords (p.drop k)).take l := by
  have hfits : l ≤ 4 * dataWords l := by rw [dataWords]; omega
  rw [dataAt, wordsAt, bytesOfWords_take, List.take_take, Nat.min_eq_left hfits]

/-- L, CAP and the bytes of format F_DATA are read back (30_encoding.md R75, R78). -/
theorem dataAt_of_field {cap : U32} {data : List Byte} (h : dataFits data = true) :
    let p := u32Field (BitVec.ofNat 32 data.length) ++ u32Field cap ++ dataField data
    dataAt (u32At p 0).toNat p 2 = data := by
  intro p
  have hL : (u32At p 0).toNat = data.length := Nat.mod_eq_of_lt (by simpa [dataFits] using h)
  rw [dataAt_eq_take, hL]
  exact bytesOfWords_dataField_take data

/-! ## Decoding what was encoded -/

/-- The header law of every constructor at once. -/
theorem headerDecodes (i : Instr) : Laws.HeaderDecodes.Statement i := by
  cases i
  exacts [Laws.HeaderDecodes.gfDbl _, Laws.HeaderDecodes.gfMul _ _, Laws.HeaderDecodes.gfPow _,
    Laws.HeaderDecodes.gfMulpow _ _, Laws.HeaderDecodes.twkInit _ _ _ _, Laws.HeaderDecodes.twkReset _ _ _,
    Laws.HeaderDecodes.twkCur, Laws.HeaderDecodes.twkPos, Laws.HeaderDecodes.twkAdv, Laws.HeaderDecodes.twkTake,
    Laws.HeaderDecodes.twkComp _ _, Laws.HeaderDecodes.twkComp128 _ _, Laws.HeaderDecodes.xtsInit _ _ _ _ _ _,
    Laws.HeaderDecodes.xtsProc _ _, Laws.HeaderDecodes.xtsFin _ _, Laws.HeaderDecodes.xtsPupd _ _,
    Laws.HeaderDecodes.xtsPfin _ _, Laws.HeaderDecodes.xtsReset, Laws.HeaderDecodes.xtsDisp, Laws.HeaderDecodes.info]

/-- The length law of every constructor at once. -/
theorem payloadLength (i : Instr) : Laws.PayloadLength.Statement i := by
  cases i
  exacts [Laws.PayloadLength.gfDbl _, Laws.PayloadLength.gfMul _ _, Laws.PayloadLength.gfPow _,
    Laws.PayloadLength.gfMulpow _ _, Laws.PayloadLength.twkInit _ _ _ _, Laws.PayloadLength.twkReset _ _ _,
    Laws.PayloadLength.twkCur, Laws.PayloadLength.twkPos, Laws.PayloadLength.twkAdv, Laws.PayloadLength.twkTake,
    Laws.PayloadLength.twkComp _ _, Laws.PayloadLength.twkComp128 _ _, Laws.PayloadLength.xtsInit _ _ _ _ _ _,
    Laws.PayloadLength.xtsProc _ _, Laws.PayloadLength.xtsFin _ _, Laws.PayloadLength.xtsPupd _ _,
    Laws.PayloadLength.xtsPfin _ _, Laws.PayloadLength.xtsReset, Laws.PayloadLength.xtsDisp, Laws.PayloadLength.info]

/-- A key-size flag by itself tells the size (30_encoding.md R81). -/
theorem keySizeOf_bit (ks : KeySize) : keySizeOf ((BitVec.ofNat 8 ks.bit).getLsbD 0) = ks := by
  cases ks <;> decide

/-- The W64 flag tells the width of a predict command (30_encoding.md R81). -/
theorem widthOf_bit (w : PredictWidth) : widthOf ((BitVec.ofNat 8 w.bit).getLsbD 0) = w := by
  cases w <;> decide

/-- The FLG byte of XTS_INIT (30_encoding.md R81). -/
def initFlg (dir : Dir) (mode : Mode) (ks1 ks2 : KeySize) : Byte :=
  BitVec.ofNat 8 (dir.bit + 2 * mode.bit + 4 * ks1.bit + 8 * ks2.bit)

theorem xtsInit_flg (dir : Dir) (mode : Mode) (k1 k2 : AesKey) (secsz sec : U64) :
    (Instr.xtsInit dir mode k1 k2 secsz sec).flg = initFlg dir mode (keySize k1) (keySize k2) := rfl

/-- It tells the direction, the mode and the sizes of both keys (30_encoding.md R81). -/
theorem initFlg_bits (dir : Dir) (mode : Mode) (ks1 ks2 : KeySize) :
    dirOf ((initFlg dir mode ks1 ks2).getLsbD 0) = dir ∧ modeOf ((initFlg dir mode ks1 ks2).getLsbD 1) = mode ∧
      keySizeOf ((initFlg dir mode ks1 ks2).getLsbD 2) = ks1 ∧ keySizeOf ((initFlg dir mode ks1 ks2).getLsbD 3) = ks2 := by
  cases dir <;> cases mode <;> cases ks1 <;> cases ks2 <;> decide

/-- The operands of a well-formed command are read back from its payload (30_encoding.md R78). -/
theorem assemble_payload (i : Instr) (h : i.wellFormed = true) : assemble i.opcode i.flg i.payload = i := by
  cases i
  case gfDbl a => exact congrArg Instr.gfDbl (blkAt_of_field rfl)
  case gfMul a b => exact congrArg₂ Instr.gfMul (blkAt_of_field rfl) (blkAt_of_field rfl)
  case gfPow n => exact congrArg Instr.gfPow (u64At_of_field rfl)
  case gfMulpow a n => exact congrArg₂ Instr.gfMulpow (blkAt_of_field rfl) (u64At_of_field rfl)
  case twkInit k2 secsz sec blk =>
    simp only [assemble, Instr.opcode, Instr.flg, keySizeOf_bit, Instr.payload, Instr.twkInit.injEq]
    cases k2 <;>
      exact ⟨keyAt_of_field rfl, u64At_of_field rfl, u64At_of_field rfl, u64At_of_field rfl⟩
  case twkReset secsz sec blk =>
    simp only [assemble, Instr.opcode, Instr.payload, Instr.twkReset.injEq]
    exact ⟨u64At_of_field rfl, u64At_of_field rfl, u64At_of_field rfl⟩
  case twkComp sec j => exact congrArg₂ Instr.twkComp (u64At_of_field rfl) (u64At_of_field rfl)
  case twkComp128 a n => exact congrArg₂ Instr.twkComp128 (blkAt_of_field rfl) (u64At_of_field rfl)
  case xtsInit dir mode k1 k2 secsz sec =>
    obtain ⟨hdir, hmode, hks1, hks2⟩ := initFlg_bits dir mode (keySize k1) (keySize k2)
    simp only [assemble, Instr.opcode, xtsInit_flg, hdir, hmode, hks1, hks2, Instr.payload, Instr.xtsInit.injEq, true_and]
    cases k1 <;> cases k2 <;>
      exact ⟨keyAt_of_field rfl, keyAt_of_field rfl, u64At_of_field rfl, u64At_of_field rfl⟩
  case xtsProc cap data => exact congrArg (Instr.xtsProc cap) (dataAt_of_field h)
  case xtsFin cap data => exact congrArg (Instr.xtsFin cap) (dataAt_of_field h)
  case xtsPupd w n => exact congrArg₂ Instr.xtsPupd (widthOf_bit w) (u64At_of_field rfl)
  case xtsPfin w n => exact congrArg₂ Instr.xtsPfin (widthOf_bit w) (u64At_of_field rfl)
  all_goals rfl

theorem decode_encode (i : Instr) (h : i.wellFormed = true) : decode (encode i) = .command i (encode i).length := by
  obtain ⟨hop, hflg, -⟩ := headerDecodes i
  have hlen := payloadLength i h
  rw [encode, decode_command _ _ _ hop (by rw [hflg, hlen]), hflg, assemble_payload i h, ← hlen, List.length_cons, Nat.add_comm]

/-- Settles O1: the encoding alone decodes to the command, and a command is decoded from its own words. -/
theorem decodeOfEncode : Obligations.DecodeOfEncode := by
  intro i rest h
  refine decode_command_congr (decode_encode i h) ?_
  rw [List.take_left, List.take_length]

/-- Settles O9: each stream is the encoding of its command. -/
theorem sampleWordsDecode : Obligations.SampleWordsDecode :=
  ⟨decodeOfEncode (.xtsProc 0xFFFFFFFF [0x41]) [] rfl, decodeOfEncode (.xtsPupd .w64 0x80000000) [] rfl,
    decodeOfEncode .twkAdv [] rfl, decodeOfEncode (.gfDbl (0x80 <<< 120)) [] rfl⟩

/-- Settles O3: a command is decoded from its own words, and an illegal header from its one word. -/
theorem decodeReadsOnlyItsOwnWords : Obligations.DecodeReadsOnlyItsOwnWords :=
  ⟨fun _ _ _ _ hdec hsame => decode_command_congr hdec hsame, fun _ _ p' _ _ hdec => decode_illegal_congr hdec p'⟩

/-! ## The header of what was decoded -/

theorem ofByte_eq_some_iff (b : Byte) (op : Opcode) : Opcode.ofByte b = some op ↔ b = op.code := by
  refine ⟨fun h => (code_of_ofByte h).symm, ?_⟩
  rintro rfl
  cases op <;> rfl

/-- A header decodes to an opcode where all three checks of R204 pass (30_encoding.md R82, R83). -/
theorem decodeHeader_eq_ok_iff (h : Word) (op : Opcode) :
    decodeHeader h = .ok op ↔ headerOpc h = op.code ∧ headerFlg h &&& ~~~op.flags = 0 ∧ headerRsv h = 0 := by
  rw [← ofByte_eq_some_iff]
  cases hop : Opcode.ofByte (headerOpc h) with
  | none => simp [decodeHeader_badOpc hop]
  | some op' =>
    simp only [decodeHeader, hop, Option.some.injEq]
    constructor
    · intro hdec
      split at hdec
      · cases hdec
      · next hrsv =>
        split at hdec
        · cases hdec
        · next hflg =>
          cases hdec
          exact ⟨rfl, not_not.mp hflg, not_not.mp hrsv⟩
    · rintro ⟨rfl, hflg, hrsv⟩
      rw [if_neg (not_not.mpr hrsv), if_neg (not_not.mpr hflg)]

/-- Two words are the same where their header fields are (30_encoding.md R71). -/
theorem word_eq_iff (h h' : Word) :
    h = h' ↔ headerOpc h = headerOpc h' ∧ headerFlg h = headerFlg h' ∧ headerRsv h = headerRsv h' := by
  refine ⟨fun e => by rw [e]; exact ⟨rfl, rfl, rfl⟩, fun ⟨hopc, hflg, hrsv⟩ => ?_⟩
  have h0 := congrArg BitVec.toNat hopc
  have h1 := congrArg BitVec.toNat hflg
  have h2 := congrArg BitVec.toNat hrsv
  rw [headerOpc_toNat, headerOpc_toNat] at h0
  rw [headerFlg_toNat, headerFlg_toNat] at h1
  simp only [headerRsv, BitVec.extractLsb'_toNat, Nat.shiftRight_eq_div_pow] at h2
  bv_omega

/-- A row of the opcode table holds OPC and RSV whole, and those flag bits that the opcode does not define
(30_encoding.md R80, R81). -/
theorem opcodeRows_fields : ∀ row ∈ opcodeRows,
    (headerOpc row.2.2 = BitVec.allOnes 8 ∧ headerFlg row.2.2 = ~~~row.1.flags ∧ headerRsv row.2.2 = BitVec.allOnes 16) ∧
      headerOpc row.2.1 = row.1.code ∧ headerFlg row.2.1 = 0 ∧ headerRsv row.2.1 = 0 := by
  decide

theorem exists_opcodeRow (op : Opcode) : ∃ row ∈ opcodeRows, row.1 = op := by
  cases op <;> decide

/-- Matching a row of the table is passing the three checks of a header. -/
theorem decodeHeader_eq_ok_iff_row (h : Word) {row : Opcode × Word × Word} (hrow : row ∈ opcodeRows) :
    decodeHeader h = .ok row.1 ↔ h &&& row.2.2 = row.2.1 := by
  obtain ⟨⟨hopc, hflg, hrsv⟩, hopc', hflg', hrsv'⟩ := opcodeRows_fields row hrow
  have hand (x y : Word) : headerOpc (x &&& y) = headerOpc x &&& headerOpc y ∧
      headerFlg (x &&& y) = headerFlg x &&& headerFlg y ∧ headerRsv (x &&& y) = headerRsv x &&& headerRsv y :=
    ⟨BitVec.extractLsb'_and, BitVec.extractLsb'_and, BitVec.extractLsb'_and⟩
  obtain ⟨eopc, eflg, ersv⟩ := hand h row.2.2
  rw [decodeHeader_eq_ok_iff, word_eq_iff, eopc, eflg, ersv, hopc, hflg, hrsv, hopc', hflg', hrsv', BitVec.and_allOnes,
    BitVec.and_allOnes]

/-- Settles O6: each opcode has one row, and the row's mask keeps what the header checks look at. -/
theorem headerDecodesByOpcodeTable : Obligations.HeaderDecodesByOpcodeTable := by
  intro h op
  constructor
  · intro hdec
    obtain ⟨row, hrow, rfl⟩ := exists_opcodeRow op
    exact ⟨row, hrow, rfl, (decodeHeader_eq_ok_iff_row h hrow).mp hdec⟩
  · rintro ⟨row, hrow, rfl, hmatch⟩
    exact (decodeHeader_eq_ok_iff_row h hrow).mpr hmatch

theorem assemble_opcode (op : Opcode) (flg : Byte) (p : List Word) : (assemble op flg p).opcode = op := by
  cases op <;> rfl

theorem keySize_keyAt (ks : KeySize) (p : List Word) (k : Nat) : keySize (keyAt ks p k) = ks := by
  cases ks <;> rfl

/-- The FLG byte of XTS_INIT holds its four flags and nothing else (30_encoding.md R81). -/
theorem initFlg_of_bits : ∀ flg : Byte, flg.toNat ≤ 15 →
    initFlg (dirOf (flg.getLsbD 0)) (modeOf (flg.getLsbD 1)) (keySizeOf (flg.getLsbD 2)) (keySizeOf (flg.getLsbD 3)) = flg := by
  decide

theorem keySize_bit_of_flg : ∀ flg : Byte, flg.toNat ≤ 1 → BitVec.ofNat 8 (keySizeOf (flg.getLsbD 0)).bit = flg := by
  decide

theorem width_bit_of_flg : ∀ flg : Byte, flg.toNat ≤ 1 → BitVec.ofNat 8 (widthOf (flg.getLsbD 0)).bit = flg := by
  decide

/-- A decoded command keeps all its flags (30_encoding.md R81, R83). -/
theorem assemble_flg {op : Opcode} {flg : Byte} (p : List Word) (h : flg &&& ~~~op.flags = 0) :
    (assemble op flg p).flg = flg := by
  have hle : flg.toNat ≤ op.flags.toNat := Nat.not_lt.mp ((undefined_flag_iff op flg).not.mp (not_not.mpr h))
  have hnone (hzero : flg.toNat ≤ 0) : 0 = flg := by bv_omega
  cases op
  case twkInit =>
    simp only [assemble, Instr.flg, keySize_keyAt]
    exact keySize_bit_of_flg flg hle
  case xtsInit =>
    simp only [assemble, xtsInit_flg, keySize_keyAt]
    exact initFlg_of_bits flg hle
  case xtsPupd | xtsPfin => exact width_bit_of_flg flg hle
  all_goals exact hnone hle

/-- A decoded command has the header it was decoded from. -/
theorem header_assemble {h : Word} {op : Opcode} (hop : decodeHeader h = .ok op) (p : List Word) :
    (assemble op (headerFlg h) p).header = h := by
  obtain ⟨hopc, hflg, hrsv⟩ := (decodeHeader_eq_ok_iff h op).mp hop
  have hopc' := congrArg BitVec.toNat hopc
  rw [headerOpc_toNat] at hopc'
  rw [headerRsv_eq_zero_iff] at hrsv
  apply BitVec.eq_of_toNat_eq
  rw [Instr.header, assemble_opcode, assemble_flg p hflg, BitVec.toNat_ofNat, headerFlg_toNat, ← hopc']
  omega

/-! ## Encoding what was decoded -/

/-- Words are the words of the bit string they are read as (30_encoding.md R73). -/
theorem leWords_ofNat_wordsAt {p : List Word} {k n w : Nat} (hw : 2 ^ w = (2 ^ 32) ^ n) (h : k + n ≤ p.length) :
    leWords n (BitVec.ofNat w (leNatOfWords (wordsAt p k n))).toNat = wordsAt p k n := by
  have hlen := wordsAt_length p k n h
  have hlt := leNatOfWords_lt (wordsAt p k n)
  have hwords := leWords_leNatOfWords (wordsAt p k n)
  rw [hlen] at hlt hwords
  rw [BitVec.toNat_ofNat, hw, Nat.mod_eq_of_lt hlt, hwords]

theorem u64Field_u64At {p : List Word} {k : Nat} (h : k + 2 ≤ p.length) : u64Field (u64At p k) = wordsAt p k 2 :=
  leWords_ofNat_wordsAt rfl h

theorem blkField_blkAt {p : List Word} {k : Nat} (h : k + 4 ≤ p.length) : blkField (blkAt p k) = wordsAt p k 4 :=
  leWords_ofNat_wordsAt rfl h

theorem keyField_keyAt {ks : KeySize} {p : List Word} {k : Nat} (h : k + keyWords ks ≤ p.length) :
    keyField (keyAt ks p k) = wordsAt p k (keyWords ks) := by
  cases ks
  case k128 => exact leWords_ofNat_wordsAt rfl h
  case k256 => exact leWords_ofNat_wordsAt rfl h

theorem wordsAt_zero (p : List Word) (n : Nat) : wordsAt p 0 n = p.take n := rfl

theorem take_append_wordsAt (p : List Word) (k n : Nat) : p.take k ++ wordsAt p k n = p.take (k + n) :=
  List.take_add.symm

/-- Outside format F_DATA the payload of a decoded command is the words it was decoded from (30_encoding.md R78). -/
theorem payload_assemble {op : Opcode} {flg : Byte} {p : List Word} (hproc : op ≠ .xtsProc) (hfin : op ≠ .xtsFin)
    (h : payloadWords op flg p ≤ p.length) : (assemble op flg p).payload = p.take (payloadWords op flg p) := by
  cases op <;> simp only [payloadWords] at h
  case xtsProc => exact absurd rfl hproc
  case xtsFin => exact absurd rfl hfin
  all_goals
    simp (disch := omega) only [assemble, Instr.payload, payloadWords, blkField_blkAt, u64Field_u64At, keyField_keyAt,
      wordsAt_zero, take_append_wordsAt, List.take_zero]

theorem bytesOfWords_append_take (us vs : List Word) (n : Nat) :
    (bytesOfWords (us ++ vs)).take (4 * us.length + n) = bytesOfWords us ++ (bytesOfWords vs).take n := by
  rw [bytesOfWords_append, ← bytesOfWords_length, List.take_length_add_append]

/-- What the statement asks of a decoded command: it is well-formed, and it encodes to `n` words that agree with `ws` in every
byte that carries meaning. -/
def EncodesTo (i : Instr) (ws : List Word) (n : Nat) : Prop :=
  i.wellFormed = true ∧ (encode i).length = n ∧
    (bytesOfWords (encode i)).take (meaningfulBytes i) = (bytesOfWords ws).take (meaningfulBytes i)

/-- A command that encodes to the very words it was decoded from. -/
theorem encodesTo_of_encode_eq {i : Instr} {ws : List Word} {n : Nat} (hwf : i.wellFormed = true) (hn : n ≤ ws.length)
    (hbytes : meaningfulBytes i = 4 * (encode i).length) (h : encode i = ws.take n) : EncodesTo i ws n := by
  have hlen : (encode i).length = n := by rw [h, List.length_take_of_le hn]
  refine ⟨hwf, hlen, ?_⟩
  rw [hbytes, hlen, h, bytesOfWords_take, List.take_take, Nat.min_self]

/-- Outside format F_DATA every field has a fixed width and every byte carries meaning. -/
theorem fixed_format {i : Instr} (hproc : i.opcode ≠ .xtsProc) (hfin : i.opcode ≠ .xtsFin) :
    i.wellFormed = true ∧ meaningfulBytes i = 4 * (encode i).length := by
  cases i
  case xtsProc => exact absurd rfl hproc
  case xtsFin => exact absurd rfl hfin
  all_goals exact ⟨rfl, rfl⟩

/-- In format F_DATA the header, L, CAP and the first L bytes of DATA are kept, and the pad bytes are not (20_memory.md R57). -/
theorem encodesTo_of_data {i : Instr} {h l cap : Word} {d : List Word} (hd : dataWords l.toNat ≤ d.length)
    (hi : i = .xtsProc cap (dataAt l.toNat (l :: cap :: d) 2) ∨ i = .xtsFin cap (dataAt l.toNat (l :: cap :: d) 2))
    (hheader : i.header = h) : EncodesTo i (h :: l :: cap :: d) (3 + dataWords l.toNat) := by
  have hlen : (dataAt l.toNat (l :: cap :: d) 2).length = l.toNat :=
    dataAt_length _ _ _ (by simp only [List.length_cons]; omega)
  have hbytes : dataAt l.toNat (l :: cap :: d) 2 = (bytesOfWords d).take l.toNat := dataAt_eq_take _ _ 2
  generalize dataAt l.toNat (l :: cap :: d) 2 = data at hlen hbytes hi
  have hfits : dataFits data = true := by
    rw [dataFits, hlen]
    exact decide_eq_true l.isLt
  obtain ⟨hwf, hmeaning, hpayload⟩ : i.wellFormed = dataFits data ∧ meaningfulBytes i = 12 + data.length ∧
      i.payload = BitVec.ofNat 32 data.length :: cap :: dataField data := by
    rcases hi with rfl | rfl <;> exact ⟨rfl, rfl, rfl⟩
  have hencode : encode i = [h, l, cap] ++ dataField data := by
    rw [encode, hheader, hpayload, hlen, BitVec.ofNat_toNat, BitVec.setWidth_eq]
    rfl
  refine ⟨hwf.trans hfits, ?_, ?_⟩
  · rw [hencode, List.length_append, dataField_length, hlen]
    rfl
  · have hown : (bytesOfWords (dataField data)).take data.length = (bytesOfWords d).take data.length := by
      rw [bytesOfWords_dataField_take, hlen, hbytes]
    rw [hencode, hmeaning]
    exact (bytesOfWords_append_take [h, l, cap] _ _).trans
      (hown ▸ (bytesOfWords_append_take [h, l, cap] d data.length).symm)

/-- What the decoder assembles encodes to what it was decoded from (30_encoding.md R78, R79). -/
theorem encodesTo_assemble {h : Word} {op : Opcode} {p : List Word} (hop : decodeHeader h = .ok op)
    (hl : payloadWords op (headerFlg h) p ≤ p.length) :
    EncodesTo (assemble op (headerFlg h) p) (h :: p) (1 + payloadWords op (headerFlg h) p) := by
  have hheader := header_assemble hop p
  by_cases hdata : op = .xtsProc ∨ op = .xtsFin
  · have hwords : payloadWords op (headerFlg h) p = 2 + dataWords (u32At p 0).toNat := by
      rcases hdata with rfl | rfl <;> rfl
    rw [hwords] at hl ⊢
    match p with
    | [] | [_] => simp only [List.length_cons, List.length_nil] at hl; omega
    | l :: cap :: d =>
      have hd : dataWords l.toNat ≤ d.length := by
        simp only [List.length_cons] at hl
        exact Nat.le_of_add_le_add_left (hl.trans (Nat.add_comm d.length 2).le)
      rw [← Nat.add_assoc]
      refine encodesTo_of_data hd ?_ hheader
      rcases hdata with rfl | rfl
      · exact .inl rfl
      · exact .inr rfl
  · obtain ⟨hproc, hfin⟩ := not_or.mp hdata
    obtain ⟨hwf, hbytes⟩ : (assemble op (headerFlg h) p).wellFormed = true ∧ _ :=
      fixed_format (by rwa [assemble_opcode]) (by rwa [assemble_opcode])
    refine encodesTo_of_encode_eq hwf (by rw [List.length_cons]; omega) hbytes ?_
    rw [encode, hheader, payload_assemble hproc hfin hl, Nat.add_comm, List.take_succ_cons]

/-- Settles O2: a header keeps every flag it may set, and every field its words or, in DATA, its bytes. -/
theorem encodeOfDecode : Obligations.EncodeOfDecode := by
  intro ws i n hdec
  obtain ⟨-, hn⟩ := decode_command_length ws i n hdec
  match ws with
  | [] => cases hdec
  | h :: p =>
    rcases decode_cases h p with ⟨c, -, e⟩ | ⟨op, -, -, e⟩ | ⟨op, hop, hl, e⟩ <;> rw [e] at hdec <;> cases hdec
    obtain ⟨hwf, hlen, hbytes⟩ := encodesTo_assemble hop hl
    exact ⟨hwf, hn, hlen, hbytes⟩

/-! ## Pad bytes (20_memory.md R57) -/

/-- A command of format F_DATA is decoded from its header, L, CAP, the bytes of DATA and how many words have arrived. -/
theorem decode_data_congr {h l cap : Word} {op : Opcode} (hop : decodeHeader h = .ok op) (hdata : op = .xtsProc ∨ op = .xtsFin)
    {p q : List Word} (hlen : p.length = q.length)
    (hbytes : (bytesOfWords p).take l.toNat = (bytesOfWords q).take l.toNat) :
    decode (h :: l :: cap :: p) = decode (h :: l :: cap :: q) := by
  have hsame : dataAt l.toNat (l :: cap :: p) 2 = dataAt l.toNat (l :: cap :: q) 2 := by
    rw [dataAt_eq_take, dataAt_eq_take]
    exact hbytes
  have hassemble : assemble op (headerFlg h) (l :: cap :: p) = assemble op (headerFlg h) (l :: cap :: q) := by
    rcases hdata with rfl | rfl
    · exact congrArg (Instr.xtsProc cap) hsame
    · exact congrArg (Instr.xtsFin cap) hsame
  have hwords : payloadWords op (headerFlg h) (l :: cap :: p) = payloadWords op (headerFlg h) (l :: cap :: q) := by
    rcases hdata with rfl | rfl <;> rfl
  simp only [decode, hop, hwords, hassemble, List.length_cons, hlen]

/-- Settles O5: DATA is read no further than its L bytes, and packing pads with zeros up to the next word. -/
theorem padBytesIgnoredAndZero : Obligations.PadBytesIgnoredAndZero := by
  refine ⟨fun h l cap p q hh hlen hbytes => ?_, fun out => ?_⟩
  · rcases hh with rfl | rfl
    · exact decode_data_congr (op := .xtsProc) rfl (.inl rfl) hlen hbytes
    · exact decode_data_congr (op := .xtsFin) rfl (.inr rfl) hlen hbytes
  · exact ⟨4 * dataWords out.length - out.length, by rw [dataWords]; omega, (wordsOfBytes_spec out).2⟩

end Sys2Proof.Proofs

/-! # Proofs of the statements across families: commands and steps (20_memory.md section 4; 30_encoding.md section 3;
60_exceptions.md section 1; 70_reset_and_hazards.md sections 1 and 3) -/

namespace Sys2Proof.Proofs

open Machine

/-! ## A command is its check, the registers it writes and the fields it answers -/

/-- The registers a command leaves where its checks pass. -/
def commandRegs (r : Regs) : Instr → Regs
  | .twkInit k2 secsz sec blk => initIter k2 secsz sec blk
  | .twkReset secsz sec blk => iterLoad secsz sec blk r
  | .twkAdv | .twkTake => iterAdvance r
  | .xtsInit dir mode k1 k2 secsz sec => initCipher dir mode k1 k2 secsz sec
  | .xtsProc _ data => (procEffect data r).1
  | .xtsFin _ data => (finEffect data r).1
  | .xtsReset => autoReset r
  | .xtsDisp => disposeRegs r
  | .gfDbl _ | .gfMul _ _ | .gfPow _ | .gfMulpow _ _ | .info => r
  | .twkCur | .twkPos | .twkComp _ _ | .twkComp128 _ _ | .xtsPupd _ _ | .xtsPfin _ _ => r

/-- The result fields a command answers where its checks pass. -/
def commandFields (r : Regs) : Instr → List Word
  | .gfDbl a => blkField (dbl a)
  | .gfMul a b => blkField (gmul a b)
  | .gfPow n => blkField (alphaPow n)
  | .gfMulpow a n => blkField (mulpow a n)
  | .twkCur | .twkTake => blkField r.twk
  | .twkPos => u64Field r.sec ++ u64Field r.blk
  | .twkComp sec j => blkField (tweakAt r.tweakKey sec j)
  | .twkComp128 a n => blkField (mulpow (tweakStart128 r.tweakKey a) n)
  | .xtsProc _ data => outFields (procEffect data r).2
  | .xtsFin _ data => outFields (finEffect data r).2
  | .xtsPupd _ n => u64Field (BitVec.ofNat 64 (nproc (r.plen.toNat + n.toNat)))
  | .xtsPfin _ n => u64Field (BitVec.ofNat 64 (r.plen.toNat + n.toNat))
  | .info => u32Field (BitVec.ofNat 32 Config.blockBytes)
  | .twkInit _ _ _ _ | .twkReset _ _ _ | .twkAdv | .xtsInit _ _ _ _ _ _ | .xtsReset | .xtsDisp => []

/-- What every command does, in terms of its check, its registers and its fields (20_memory.md R59). -/
theorem exec_eq (i : Instr) (s : State) :
    exec i s = .next (s.reply i.opcode (commandCheck s.regs i) (commandRegs s.regs i) (commandFields s.regs i)) := by
  cases i <;> rfl

/-- A command whose checks pass writes its registers and answers its fields. -/
theorem exec_of_check {i : Instr} {s : State} (h : commandCheck s.regs i = none) :
    exec i s = .next (s.answered i.opcode.code.toNat (commandRegs s.regs i) (commandFields s.regs i)) := by
  rw [exec_eq, h, reply_none_eq_answered]

/-- A command whose checks pass, with its registers and fields given in the statement's form. -/
theorem exec_answers {i : Instr} {s : State} {r : Regs} {fields : List Word} (hcheck : commandCheck s.regs i = none)
    (hregs : commandRegs s.regs i = r) (hfields : commandFields s.regs i = fields) :
    exec i s = .next (s.answered i.opcode.code.toNat r fields) := by
  rw [exec_of_check hcheck, hregs, hfields]

/-- The registers behind a command: as they were where a check fails, and otherwise the ones it writes. -/
theorem exec_regs_cases {i : Instr} {s s' : State} (h : exec i s = .next s') :
    s'.regs = s.regs ∨ (commandCheck s.regs i = none ∧ s'.regs = commandRegs s.regs i) := by
  obtain rfl := Host.Outcome.next.inj ((exec_eq i s).symm.trans h)
  rcases reply_cases s i.opcode (commandCheck s.regs i) (commandRegs s.regs i) (commandFields s.regs i) with
    ⟨c, -, e⟩ | ⟨hcheck, e⟩ <;> rw [e]
  · exact .inl rfl
  · exact .inr ⟨hcheck, rfl⟩

/-! ## What a command leaves of the host interface -/

/-- A reply appends to the response stream, and touches neither the command stream nor the inputs. -/
theorem reply_host (s : State) (op : Opcode) (check : Option Cause) (r : Regs) (fields : List Word) :
    (s.reply op check r fields).cmdIn = s.cmdIn ∧ (s.reply op check r fields).rst = s.rst ∧
      (s.reply op check r fields).respFull = s.respFull ∧
      ∃ status own, (s.reply op check r fields).respOut = s.respOut ++ status :: own := by
  rcases reply_cases s op check r fields with ⟨c, -, e⟩ | ⟨-, e⟩ <;> rw [e] <;> exact ⟨rfl, rfl, rfl, _, _, rfl⟩

/-- Settles O16: every command is one reply. -/
theorem commandsOnlyAppendResponses : Obligations.CommandsOnlyAppendResponses := by
  intro i s s' h
  obtain rfl := Host.Outcome.next.inj ((exec_eq i s).symm.trans h)
  exact reply_host _ _ _ _ _

/-- A reply does not read the command stream. -/
theorem reply_with_cmdIn (s : State) (ws : List Word) (op : Opcode) (check : Option Cause) (r : Regs) (fields : List Word) :
    State.reply { s with cmdIn := ws } op check r fields = { s.reply op check r fields with cmdIn := ws } := by
  cases check <;> rfl

/-- Nor does a command. -/
theorem exec_with_cmdIn {i : Instr} {s s' : State} (h : exec i s = .next s') (ws : List Word) :
    exec i { s with cmdIn := ws } = .next { s' with cmdIn := ws } := by
  obtain rfl := Host.Outcome.next.inj ((exec_eq i s).symm.trans h)
  rw [exec_eq, reply_with_cmdIn]

/-! ## What a step does with the front of the stream -/

/-- Settles O10: neither input holds the step, so it consumes the command's words and executes it. -/
theorem stepRunsDecodedCommand : Obligations.StepRunsDecodedCommand := by
  intro s i n hrst hfull hdec
  rw [step, if_neg (by simp [hrst]), if_neg (by simp [hfull]), hdec]
  rfl

/-- Settles O13: the step looks at back-pressure before it looks at the stream. -/
theorem backPressureHoldsTheCommand : Obligations.BackPressureHoldsTheCommand := by
  intro s hrst hfull
  rw [step, hrst, hfull]
  rfl

/-- Settles O11: a command always replies, and every other step has its next state by definition. -/
theorem stepAlwaysAnswersNext : Obligations.StepAlwaysAnswersNext := by
  refine ⟨fun s => ?_, fun i s => ⟨_, exec_eq i s⟩⟩
  rcases step_cases s with ⟨-, h⟩ | ⟨-, -, h⟩ | ⟨-, -, -, h⟩ | ⟨c, o, -, -, -, h⟩ | ⟨i, n, -, -, -, h⟩
  case inr.inr.inr.inr => exact ⟨_, h.trans (exec_eq i _)⟩
  all_goals exact ⟨_, h⟩

/-! ## Commands in stream order (20_memory.md R61) -/

/-- A step at the words of a command executes it on the words behind them. -/
theorem step_encode {s : State} (hrst : s.rst = false) (hfull : s.respFull = false) {i : Instr} (h : i.wellFormed = true)
    (more : List Word) : step { s with cmdIn := encode i ++ more } = exec i { s with cmdIn := more } := by
  rw [stepRunsDecodedCommand { s with cmdIn := encode i ++ more } i _ hrst hfull (decodeOfEncode i more h)]
  simp only [List.drop_left]

theorem run_succ_of_step {s s' : State} (h : step s = .next s') (k : Nat) :
    Host.Core.run Sys2Proof.core (k + 1) s = Host.Core.run Sys2Proof.core k s' := by
  have hcore : Sys2Proof.core.step s = .next s' := h
  simp only [Host.Core.run, hcore]

theorem runCommands_cons_of_exec {i : Instr} {s s' : State} (h : exec i s = .next s') (is : List Instr) :
    runCommands (i :: is) s = runCommands is s' := by
  simp only [runCommands, h]

/-- Settles O52: each step executes the first command left, which leaves the stream behind its words as it was. -/
theorem encodedCommandsRunInOrder : Obligations.EncodedCommandsRunInOrder := by
  intro commands
  induction commands with
  | nil => intros; rfl
  | cons i is ih =>
    intro s rest hwf hrst hfull
    obtain ⟨hi, his⟩ := List.forall_mem_cons.mp hwf
    have hexec := exec_eq i s
    obtain ⟨-, hrst', hfull', -⟩ := commandsOnlyAppendResponses i s _ hexec
    have hstep : step { s with cmdIn := encode i ++ (is.flatMap encode ++ rest) } = _ :=
      (step_encode hrst hfull hi _).trans (exec_with_cmdIn hexec _)
    rw [List.flatMap_cons, List.append_assoc, List.length_cons, run_succ_of_step hstep,
      ih _ rest his (hrst'.trans hrst) (hfull'.trans hfull), runCommands_cons_of_exec (exec_with_cmdIn hexec rest)]

/-! ## The status word (30_encoding.md R72) -/

theorem statusWord_detail (err detail opc : Byte) : (statusWord err detail opc).extractLsb' 8 8 = detail := by
  apply BitVec.eq_of_toNat_eq
  rw [statusWord, BitVec.extractLsb'_toNat, BitVec.toNat_ofNat, Nat.shiftRight_eq_div_pow]
  omega

theorem statusWord_opc (err detail opc : Byte) : (statusWord err detail opc).extractLsb' 16 8 = opc := by
  apply BitVec.eq_of_toNat_eq
  rw [statusWord, BitVec.extractLsb'_toNat, BitVec.toNat_ofNat, Nat.shiftRight_eq_div_pow]
  omega

theorem statusWord_top (err detail opc : Byte) : (statusWord err detail opc).extractLsb' 24 8 = 0 := by
  apply BitVec.eq_of_toNat_eq
  rw [statusWord, BitVec.extractLsb'_toNat, BitVec.toNat_ofNat, Nat.shiftRight_eq_div_pow]
  change _ = 0
  omega

/-- A response with the OPC byte `opc`: a status word with a pair of the tables, and no result fields beside an error
(30_encoding.md R72, R76). -/
def WellFormedResponse (opc : Byte) (status : Word) (fields : List Word) : Prop :=
  ((status.extractLsb' 0 8).toNat, (status.extractLsb' 8 8).toNat) ∈ statusPairs ∧
    status.extractLsb' 16 8 = opc ∧ status.extractLsb' 24 8 = 0 ∧ (status.extractLsb' 0 8 ≠ 0 → fields = [])

theorem wellFormedResponse_ok (opc : Byte) (fields : List Word) : WellFormedResponse opc (okStatus opc) fields := by
  refine ⟨?_, statusWord_opc _ _ _, statusWord_top _ _ _, fun h => absurd (okStatus_err opc) h⟩
  rw [okStatus, statusWord_err, statusWord_detail]
  decide

theorem wellFormedResponse_err (c : Cause) (opc : Byte) : WellFormedResponse opc (errStatus c opc) [] := by
  refine ⟨?_, statusWord_opc _ _ _, statusWord_top _ _ _, fun _ => rfl⟩
  rw [errStatus, statusWord_err, statusWord_detail]
  cases c <;> decide

/-- Every command answers one such response, with its own OPC byte. -/
theorem exec_wellFormedResponse {i : Instr} {s s' : State} (h : exec i s = .next s') :
    ∃ status fields, s'.respOut = s.respOut ++ status :: fields ∧ WellFormedResponse i.opcode.code status fields := by
  obtain rfl := Host.Outcome.next.inj ((exec_eq i s).symm.trans h)
  rcases reply_cases s i.opcode (commandCheck s.regs i) (commandRegs s.regs i) (commandFields s.regs i) with
    ⟨c, -, e⟩ | ⟨-, e⟩ <;> rw [e]
  · exact ⟨_, _, rfl, wellFormedResponse_err c _⟩
  · exact ⟨_, _, rfl, wellFormedResponse_ok _ _⟩

/-- Settles O14: an illegal header is rejected with its OPC byte, and a command replies with its opcode's, the same byte. -/
theorem oneResponsePerCommand : Obligations.OneResponsePerCommand := by
  intro s s' hrst hfull hdec hstep
  cases hcmd : s.cmdIn with
  | nil => exact absurd (congrArg decode hcmd) hdec
  | cons h p =>
    rcases decode_cases h p with ⟨c, -, e⟩ | ⟨op, -, -, e⟩ | ⟨op, hop, hl, e⟩ <;> rw [← hcmd] at e
    · obtain rfl := Host.Outcome.next.inj ((step_of_decode_illegal hrst hfull e).symm.trans hstep)
      exact ⟨h, p, 1, _, _, rfl, le_rfl, Nat.succ_pos _, by rw [State.rejectHeader_cmdIn, hcmd],
        State.rejectHeader_respOut _ _ _, wellFormedResponse_err c (headerOpc h)⟩
    · exact absurd e hdec
    · have hexec := (stepRunsDecodedCommand s _ _ hrst hfull e).symm.trans hstep
      obtain ⟨hcmdIn, -⟩ := commandsOnlyAppendResponses _ _ _ hexec
      obtain ⟨status, fields, hresp, hwf⟩ := exec_wellFormedResponse hexec
      obtain ⟨hpos, hall⟩ := decode_command_length _ _ _ e
      obtain ⟨hopc, -, -⟩ := (decodeHeader_eq_ok_iff h op).mp hop
      rw [assemble_opcode, ← hopc] at hwf
      rw [← hcmd]
      exact ⟨h, p, _, status, fields, hcmd, hpos, hall, hcmdIn, hresp, hwf⟩

/-! ## What a hardware reset discards (70_reset_and_hazards.md R230) -/

/-- The whole commands of a stream are followed by a command that has not all arrived, or by nothing. -/
theorem wholeCommands_append_incomplete (k : Nat) (ws : List Word) (h : ws.length ≤ k) :
    ∃ tail, ws = wholeCommands k ws ++ tail ∧ decode tail = .incomplete := by
  induction k generalizing ws with
  | zero =>
    obtain rfl := List.length_eq_zero_iff.mp (Nat.le_zero.mp h)
    exact ⟨[], rfl, rfl⟩
  | succ k ih =>
    rcases wholeCommands_cases k ws with ⟨hdec, e⟩ | ⟨i, n, hdec, e⟩ | ⟨c, o, hdec, e⟩ <;> rw [e]
    · exact ⟨ws, rfl, hdec⟩
    · obtain ⟨hpos, -⟩ := decode_command_length ws i n hdec
      obtain ⟨tail, hsplit, htail⟩ := ih (ws.drop n) (by rw [List.length_drop]; omega)
      exact ⟨tail, by rw [List.append_assoc, ← hsplit, List.take_append_drop], htail⟩
    · obtain ⟨tail, hsplit, htail⟩ := ih (ws.drop 1) (by rw [List.length_drop]; omega)
      exact ⟨tail, by rw [List.append_assoc, ← hsplit, List.take_append_drop], htail⟩

/-- Settles O56: the stream is its whole commands and then what the reset discards. -/
theorem hardwareResetKeepsWholeCommands : Obligations.HardwareResetKeepsWholeCommands := by
  intro s hrst
  obtain ⟨tail, hsplit, htail⟩ := wholeCommands_append_incomplete s.cmdIn.length s.cmdIn le_rfl
  exact ⟨s.hardwareReset, tail, step_of_rst hrst, hsplit, framed_resetStream s.cmdIn, htail⟩

end Sys2Proof.Proofs

/-! # Proofs of the statements across families: products and the GF commands (40_gf128.md sections 1 to 3) -/

namespace Sys2Proof.Proofs

open Machine

/-! ## The product as a sum of doublings (40_gf128.md R102) -/

/-- One term of the product: the k-th doubling of the one factor, where bit k of the other is set. -/
def addDoubling (a b : Block) (acc : Block) (k : Nat) : Block := if b.getLsbD k then acc ^^^ dbl^[k] a else acc

theorem gmulLoop_eq_foldl (k : Nat) (a b : Block) : gmulLoop k b.toNat 0 a = (List.range k).foldl (addDoubling a b) 0 := by
  induction k with
  | zero => rfl
  | succ k ih =>
    rw [gmulLoop_succ_last, ih, List.range_succ, List.foldl_append, List.foldl_cons, List.foldl_nil, addDoubling,
      BitVec.testBit_toNat]
    split
    · rfl
    · exact BitVec.xor_zero

theorem gmul_eq_foldl (a b : Block) : gmul a b = (List.range 128).foldl (addDoubling a b) 0 :=
  gmulLoop_eq_foldl 128 a b

/-- Settles O19: each pass of the loop adds the doubling of its bit, and 1 is the identity. -/
theorem gfProductIsSumOfDoublings : Obligations.GfProductIsSumOfDoublings :=
  fun a b => ⟨gmul_eq_foldl a b, gmul_one a⟩

/-! ## The laws of the field (40_gf128.md R109) -/

/-- The product is linear in its second factor as well. -/
theorem gmul_xor_right (a b c : Block) : gmul a (b ^^^ c) = gmul a b ^^^ gmul a c := by
  induction a using block_induction with
  | one => rw [one_gmul, one_gmul, one_gmul]
  | xor x y hx hy =>
    rw [gmul_xor_left, gmul_xor_left, gmul_xor_left, hx, hy]
    ac_rfl
  | dbl x hx => rw [gmul_dbl_left, gmul_dbl_left, gmul_dbl_left, hx, dbl_xor]

theorem gmul_comm (a b : Block) : gmul a b = gmul b a := by
  induction a using block_induction with
  | one => rw [one_gmul, gmul_one]
  | xor x y hx hy => rw [gmul_xor_left, gmul_xor_right, hx, hy]
  | dbl x hx => rw [gmul_dbl_left, gmul_dbl_right, hx]

theorem gmul_assoc (a b c : Block) : gmul (gmul a b) c = gmul a (gmul b c) := by
  induction a using block_induction with
  | one => rw [one_gmul, one_gmul]
  | xor x y hx hy => rw [gmul_xor_left, gmul_xor_left, gmul_xor_left, hx, hy]
  | dbl x hx => rw [gmul_dbl_left, gmul_dbl_left, gmul_dbl_left, hx]

theorem gmul_zero (a : Block) : gmul a 0 = 0 := by
  have h := gmul_xor_right a 0 0
  rw [BitVec.xor_self, BitVec.xor_self] at h
  exact h

/-- α is the doubling of 1 (40_gf128.md R100). -/
theorem gmul_two (a : Block) : gmul a 2 = dbl a := by
  have halpha : (2 : Block) = dbl 1 := by decide
  rw [halpha, gmul_dbl_right, gmul_one]

/-- Settles O22: both factors are linear, and every block is a sum of doublings of 1. -/
theorem gfFieldLaws : Obligations.GfFieldLaws := fun a b c =>
  ⟨gmul_comm a b, gmul_assoc a b c, gmul_xor_right a b c, gmul_one a, gmul_zero a, gmul_two a⟩

/-! ## The GF commands (40_gf128.md section 2) -/

/-- Settles O23: the four commands have no check, and their values are doublings. -/
theorem gfCommandsAnswer : Obligations.GfCommandsAnswer := by
  intro s a b n
  have hmul : exec (.gfMul a b) s = .next (s.answered 0x02 s.regs (blkField (gmul a b))) :=
    exec_of_check (i := .gfMul a b) rfl
  have hpow : exec (.gfPow n) s = .next (s.answered 0x03 s.regs (blkField (alphaPow n))) :=
    exec_of_check (i := .gfPow n) rfl
  have hmulpow : exec (.gfMulpow a n) s = .next (s.answered 0x04 s.regs (blkField (mulpow a n))) :=
    exec_of_check (i := .gfMulpow a n) rfl
  rw [gmul_eq_foldl] at hmul
  rw [alphaPow_eq] at hpow
  rw [mulpow_eq] at hmulpow
  exact ⟨exec_of_check (i := .gfDbl a) rfl, hmul, hpow, hmulpow⟩

end Sys2Proof.Proofs

/-! # Proofs of the statements across families: the tweak commands (41_tweak.md section 2) -/

namespace Sys2Proof.Proofs

open Machine

/-- The tweak of block j is j doublings of the sector-start tweak (41_tweak.md R121). -/
theorem tweakAt_eq (k : AesKey) (sec j : U64) : tweakAt k sec j = dbl^[j.toNat] (aesE k (sec.setWidth 128)) :=
  mulpow_eq _ j

/-- Settles O25: with an iterator both commands pass their check, and answer J doublings under the registers' K2. -/
theorem statelessTweakCommandsAnswer : Obligations.StatelessTweakCommandsAnswer := by
  intro s sec j a hiter
  have hcheck := (iterReadCheck_eq_none s.regs).mpr hiter
  exact ⟨exec_answers (i := .twkComp sec j) hcheck rfl (congrArg blkField (tweakAt_eq _ sec j)),
    exec_answers (i := .twkComp128 a j) hcheck rfl (congrArg blkField (mulpow_eq _ j))⟩

/-- Settles O26: with an iterator both commands pass their check and write the registers back. -/
theorem tweakReadsAnswer : Obligations.TweakReadsAnswer := by
  intro s hiter
  exact ⟨exec_twkCur hiter, exec_answers (i := .twkPos) ((iterReadCheck_eq_none s.regs).mpr hiter) rfl rfl⟩

/-- Settles O27: in ITER both commands pass their check and write one advance. -/
theorem tweakAdvanceAnswers : Obligations.TweakAdvanceAnswers := by
  intro s hctx r r'
  have hcheck := (iterWriteCheck_eq_none s.regs).mpr hctx
  have hadv : iterAdvance s.regs = r' := rfl
  exact ⟨exec_answers (i := .twkAdv) hcheck hadv rfl, exec_answers (i := .twkTake) hcheck hadv rfl⟩

/-- Every register of a new iterator: it is at the given position, under its own tweak key (41_tweak.md R125). -/
theorem initIter_eq (k2 : AesKey) (secsz sec blk : U64) :
    initIter k2 secsz sec blk =
      { Regs.zero with
        ctx := .iter, k2 := keySlot k2, ks2 := keySize k2, secsz := secsz, sec := sec, blk := blk,
        twk := dbl^[blk.toNat] (aesE k2 (sec.setWidth 128)) } := by
  rw [initIter, iterLoad, tweakAt_eq, Regs.tweakKey, slotKey_keySlot]

/-- Settles O31: TWK_INIT has no context check, and takes its registers from its operands. -/
theorem twkInitBuildsIterator : Obligations.TwkInitBuildsIterator := fun _ k2 secsz sec blk hsecsz hblk =>
  exec_answers (i := .twkInit k2 secsz sec blk) ((iterCheck_eq_none secsz blk).mpr ⟨hsecsz, hblk⟩)
    (initIter_eq k2 secsz sec blk) rfl

theorem twkResetCheck_eq_none (r : Regs) (secsz sec blk : U64) :
    commandCheck r (.twkReset secsz sec blk) = none ↔ r.ctx = .iter ∧ iterCheck secsz blk = none := by
  simp only [commandCheck, firstCause_eq_none, List.forall_mem_cons, iterWriteCheck_eq_none, List.not_mem_nil, false_implies,
    implies_true, and_true]

/-- Settles O32: TWK_RESET loads its operands under the K2 that the registers hold. -/
theorem twkResetReloadsIterator : Obligations.TwkResetReloadsIterator := by
  intro s secsz sec blk hctx hsecsz hblk
  have hcheck := (twkResetCheck_eq_none s.regs secsz sec blk).mpr ⟨hctx, (iterCheck_eq_none secsz blk).mpr ⟨hsecsz, hblk⟩⟩
  refine exec_answers (i := .twkReset secsz sec blk) hcheck ?_ rfl
  rw [commandRegs, iterLoad, tweakAt_eq]

end Sys2Proof.Proofs

/-! # Proofs of the statements across families: the cipher commands and INFO (42_xts.md sections 1 to 5) -/

namespace Sys2Proof.Proofs

open Machine

/-! ## Constructing, resetting and disposing -/

/-- Settles O33: XTS_INIT has no context check, and takes its registers from its operands. -/
theorem xtsInitBuildsCipher : Obligations.XtsInitBuildsCipher := fun _ dir mode k1 k2 secsz sec hsecsz =>
  exec_answers (i := .xtsInit dir mode k1 k2 secsz sec) ((secszCheck_eq_none secsz).mpr hsecsz)
    (initCipher_eq dir mode k1 k2 secsz sec) rfl

/-- Settles O43: XTS_RESET is the auto-reset, which leads to the configured start. -/
theorem xtsResetReturnsToStart : Obligations.XtsResetReturnsToStart := fun s hctx =>
  exec_answers (i := .xtsReset) ((cipherCheck_eq_none s.regs).mpr hctx) (autoReset_eq_atStart s.regs) rfl

/-- Settles O46: INFO has no check, and its field is the block size. -/
theorem infoAnswersBlockSize : Obligations.InfoAnswersBlockSize := fun _ => exec_of_check (i := .info) rfl

/-- A command whose checks fail answers its status word alone (60_exceptions.md R203). -/
theorem exec_fails {i : Instr} {s : State} {c : Cause} (h : commandCheck s.regs i = some c) :
    exec i s = .next (s.failed i.opcode.code.toNat c.kind.code.toNat c.detail.toNat) := by
  rw [exec_eq, h, reply_some, State.raise, errStatus, statusWord_eq_statusNumber]
  rfl

/-- The commands that need an object (41_tweak.md R127; 42_xts.md R151) begin with a check that fails in DISPOSED. -/
theorem commandCheck_disposed {r : Regs} (hctx : r.ctx = .disposed) {i : Instr}
    (hi : i.opcode ∈ [Opcode.twkReset, .twkCur, .twkPos, .twkAdv, .twkTake, .twkComp, .twkComp128, .xtsProc, .xtsFin,
      .xtsPupd, .xtsPfin, .xtsReset]) : commandCheck r i = some .disposed := by
  have hread : iterReadCheck r = some .disposed := by rw [iterReadCheck, hctx]
  have hwrite : iterWriteCheck r = some .disposed := by rw [iterWriteCheck, hctx]
  have hcipher : cipherCheck r = some .disposed := by rw [cipherCheck, hctx]
  cases i
  case twkReset => rw [commandCheck, hwrite, firstCause_some]
  case twkAdv | twkTake => exact hwrite
  case twkCur | twkPos | twkComp | twkComp128 => exact hread
  case xtsProc => rw [commandCheck, procCheck, hcipher, firstCause_some]
  case xtsFin => rw [commandCheck, finCheck, hcipher, firstCause_some]
  case xtsPupd | xtsPfin => rw [commandCheck, predictCheck, hcipher, firstCause_some]
  case xtsReset => exact hcipher
  all_goals simp [Instr.opcode] at hi

/-- Settles O45: XTS_DISP has no check and zeroizes an object, and in DISPOSED the first check of the others fails. -/
theorem disposeZeroizes : Obligations.DisposeZeroizes := by
  intro s
  have hdisp : exec .xtsDisp s = .next (s.answered 0x26 (disposeRegs s.regs) []) := exec_of_check (i := .xtsDisp) rfl
  refine ⟨fun hiter => ?_, fun hnone => ?_, fun hctx i hi => exec_fails (commandCheck_disposed hctx hi)⟩
  · rw [hdisp]
    rcases disposeRegs_cases s.regs with ⟨-, e⟩ | ⟨hnot, -⟩
    · rw [e]
    · exact absurd hiter hnot
  · rw [hdisp]
    rcases disposeRegs_cases s.regs with ⟨hiter, -⟩ | ⟨-, e⟩
    · rcases hnone with h | h <;> simp [Regs.HasIterator, h] at hiter
    · rw [e]

/-- Settles O39: within the limit of the width and the budget both predictions pass their checks. -/
theorem predictCommandsAnswer : Obligations.PredictCommandsAnswer := by
  intro s w n hctx t hlimit hbudget
  have hovf : ovfCheck w t = none := by
    cases w
    case w32 => exact (ovfCheck_w32_eq_none t).mpr hlimit
    case w64 => exact (ovfCheck_w64_eq_none t).mpr hlimit
  have hcheck := (predictCheck_eq_none s.regs w n.toNat).mpr ⟨hctx, hovf, hbudget⟩
  exact ⟨exec_xtsPupd_of_check hcheck, exec_xtsPfin_of_check hcheck⟩

/-! ## XTS_PROC (42_xts.md section 2) -/

theorem pending_append_length (r : Regs) (data : List Byte) :
    (r.pending ++ data).length = r.plen.toNat + data.length := by
  rw [List.length_append, pending_length]

/-- Beside the accounting of the unit, registers are what they are without it. -/
theorem eq_of_clearUnit {r r' : Regs} (h : clearUnit r = clearUnit r') :
    r = { r' with pend := r.pend, plen := r.plen, sbytes := r.sbytes } :=
  congrArg (fun q : Regs => { q with pend := r.pend, plen := r.plen, sbytes := r.sbytes }) h

/-- The accounting of the unit after an accepted XTS_PROC (42_xts.md R163, R174). -/
theorem procEffect_unit (data : List Byte) (r : Regs) :
    (procEffect data r).1.pend = padTo31 ((r.pending ++ data).drop (nproc (r.plen.toNat + data.length))) ∧
      (procEffect data r).1.plen =
        BitVec.ofNat 5 (r.plen.toNat + data.length - nproc (r.plen.toNat + data.length)) ∧
      (procEffect data r).1.sbytes =
        if r.mode = .independent then r.sbytes + BitVec.ofNat 64 data.length else r.sbytes := by
  rw [procEffect_fst]
  refine ⟨rfl, ?_, ?_⟩
  · rw [setPending_plen, List.length_drop, pending_append_length]
  · rw [setPending_sbytes, iterate_frame Regs.sbytes iterAdvance_sbytes, budgetCommit_sbytes, BitVec.ofNat_add,
      BitVec.ofNat_toNat, BitVec.setWidth_eq]

/-- Settles O34: the iterator and the accounting of the unit are all that an accepted XTS_PROC writes. -/
theorem xtsProcTransformsBlocks : Obligations.XtsProcTransformsBlocks := by
  intro s cap data ⟨hctx, hlimit, hbudget⟩ r stream t n hcap
  have hn : nproc t = 16 * n := Nat.mul_comm _ _
  have hstream : stream.length = t := pending_append_length r data
  have hrest : (stream.drop (16 * n)).length = t - 16 * n := by rw [List.length_drop, hstream]
  have hcheck : procCheck r data.length cap = none :=
    (procCheck_eq_none _ _ _).mpr ⟨hctx, hlimit, hbudget, hn.trans_le hcap⟩
  obtain ⟨hpend, hplen, hsbytes⟩ := procEffect_unit data r
  refine ⟨padTo31 (stream.drop (16 * n)), ?_, exec_answers (i := .xtsProc cap data) hcheck ?_ ?_⟩
  · have hle := sub_nproc_le t
    rw [padTo31_toList _ (by omega), hrest]
  · refine (eq_of_clearUnit (clearUnit_procEffect data r)).trans ?_
    rw [hpend, hplen, hsbytes, show nproc (r.plen.toNat + data.length) = 16 * n from hn]
    rfl
  · have hout : (procEffect data r).2 = transformedBlocks r n stream := by rw [procEffect_snd, xtsBlocks_snd]; rfl
    have hlen : (procEffect data r).2.length = 16 * n := (procEffect_length data r).trans hn
    rw [commandFields, outFields, hlen, hout]
    rfl

/-! ## XTS_FIN (42_xts.md section 3) -/

/-- An accepted XTS_FIN emits the final transform of its stream and leaves the cipher at its start (42_xts.md R170, R182). -/
theorem exec_xtsFin_of_check {s : State} {cap : U32} {data : List Byte} (h : finCheck s.regs data.length cap = none) :
    exec (.xtsFin cap data) s = .next (s.answered 0x22 s.regs.atStart
      (BitVec.ofNat 32 (s.regs.plen.toNat + data.length) ::
        dataField (finalTransform (s.regs.pending ++ data) s.regs).2)) := by
  obtain ⟨-, -, -, hunit, -, -⟩ := (finCheck_eq_none _ _ _).mp h
  refine exec_answers (i := .xtsFin cap data) h ((finEffect_fst _ _).trans (autoReset_eq_atStart _)) ?_
  rw [commandFields, outFields, finEffect_length _ _ hunit, finEffect_snd]
  rfl

/-- Settles O35: an aligned unit has no pair, so no check of one, and all its blocks are leading blocks. -/
theorem xtsFinTransformsAlignedUnit : Obligations.XtsFinTransformsAlignedUnit := by
  intro s cap data ⟨hctx, hlimit, hbudget⟩ r stream t haligned hcap
  have hcheck : finCheck r data.length cap = none :=
    (finCheck_eq_none _ _ _).mpr ⟨hctx, hlimit, hbudget, by omega, fun _ hne => absurd haligned hne, hcap⟩
  have hstream : stream.length = t := pending_append_length r data
  have hblocks : finBlocks t = t / 16 := if_pos haligned
  have hout : (finalTransform stream r).2 = transformedBlocks r (t / 16) stream := by
    rw [finalTransform_snd, hstream, hblocks, if_pos haligned, List.append_nil]
  rw [← hout]
  exact exec_xtsFin_of_check hcheck

/-- An unaligned unit with a whole block ends in a stolen pair (42_xts.md R170 to R173, R175). -/
theorem exec_xtsFin_unaligned {s : State} {cap : U32} {data : List Byte} (hacc : s.regs.accepts data.length) {t f : Nat}
    (ht : s.regs.plen.toNat + data.length = t) (hf : t / 16 - 1 = f) (hne : t % 16 ≠ 0) (hmin : 16 ≤ t) (hcap : t ≤ cap.toNat)
    (hstraddle : s.regs.mode = .continuous → (s.regs.blk.toNat + f) % s.regs.bps ≠ s.regs.bps - 1) :
    let stream := s.regs.pending ++ data
    exec (.xtsFin cap data) s = .next (s.answered 0x22 s.regs.atStart (BitVec.ofNat 32 t :: dataField
      (transformedBlocks s.regs f stream ++ (ctsPair (blockOfBytes ((stream.drop (16 * f)).take 16))
        (stream.drop (16 * f + 16)) (iterAdvance^[f] s.regs)).2))) := by
  intro stream
  obtain ⟨hctx, hlimit, hbudget⟩ := hacc
  have hblocks : finBlocks t = f := hf ▸ if_neg hne
  have hcheck : finCheck s.regs data.length cap = none := by
    rw [finCheck_eq_none, ht, hblocks]
    exact ⟨hctx, ht ▸ hlimit, hbudget, .inr hmin, fun hmode _ => hstraddle hmode, hcap⟩
  have hstream : stream.length = t := (pending_append_length s.regs data).trans ht
  rw [exec_xtsFin_of_check hcheck, ht, finalTransform_snd, hstream, hblocks, if_neg hne]

/-- The tail of the pair is what is left of the stream behind its last whole block. -/
theorem pair_tail_length {stream : List Byte} {t : Nat} (hlen : stream.length = t) (hmin : 16 ≤ t) :
    (stream.drop (16 * (t / 16 - 1) + 16)).length = t % 16 := by
  rw [List.length_drop, hlen]
  omega

theorem iterate_dataKey (n : Nat) (r : Regs) : (iterAdvance^[n] r).dataKey = r.dataKey :=
  iterate_frame Regs.dataKey iterAdvance_dataKey n r

/-- The pair behind `f` blocks, encrypting: T(n-1) is used first (42_xts.md R173). -/
theorem ctsPair_iterate_enc {r : Regs} (hdir : r.dir = .enc) (f : Nat) (a : Block) (tail : List Byte) :
    let tn1 := (iterAdvance^[f] r).twk
    let tn := (iterAdvance^[f + 1] r).twk
    let cc := blockBytes (aesE r.dataKey (a ^^^ tn1) ^^^ tn1)
    (ctsPair a tail (iterAdvance^[f] r)).2 =
      blockBytes (aesE r.dataKey (blockOfBytes (tail ++ cc.drop tail.length) ^^^ tn) ^^^ tn) ++ cc.take tail.length := by
  rw [ctsPair_of_enc ((iterate_dir f r).trans hdir)]
  simp only [stealPair, xexCrypt, iterate_dir, hdir, iterate_dataKey, ← Function.iterate_succ_apply']

/-- The pair behind `f` blocks, decrypting: T(n) is used first (42_xts.md R175). -/
theorem ctsPair_iterate_dec {r : Regs} (hdir : r.dir = .dec) (f : Nat) (a : Block) (tail : List Byte) :
    let tn1 := (iterAdvance^[f] r).twk
    let tn := (iterAdvance^[f + 1] r).twk
    let pp := blockBytes (aesD r.dataKey (a ^^^ tn) ^^^ tn)
    (ctsPair a tail (iterAdvance^[f] r)).2 =
      blockBytes (aesD r.dataKey (blockOfBytes (tail ++ pp.drop tail.length) ^^^ tn1) ^^^ tn1) ++ pp.take tail.length := by
  rw [ctsPair_of_dec ((iterate_dir f r).trans hdir)]
  simp only [stealPair, xexCrypt, iterate_dir, hdir, iterate_dataKey, ← Function.iterate_succ_apply']

/-- Settles O36: the leading blocks are followed by the pair of an encrypting cipher. -/
theorem xtsFinStealsEncrypting : Obligations.XtsFinStealsEncrypting := by
  intro s cap data hacc hdir r stream t m f bps hne hmin hcap hstraddle tn1 tn pn1 pn cc stolen
  have hstream : stream.length = t := pending_append_length r data
  have hpair := ctsPair_iterate_enc hdir f pn1 pn
  rw [show pn.length = m from pair_tail_length hstream hmin] at hpair
  rw [List.append_assoc, ← hpair]
  exact exec_xtsFin_unaligned hacc rfl rfl hne hmin hcap hstraddle

/-- Settles O37: the leading blocks are followed by the pair of a decrypting cipher. -/
theorem xtsFinStealsDecrypting : Obligations.XtsFinStealsDecrypting := by
  intro s cap data hacc hdir r stream t m f bps hne hmin hcap hstraddle tn1 tn cn1 cn pp rebuilt
  have hstream : stream.length = t := pending_append_length r data
  have hpair := ctsPair_iterate_dec hdir f cn1 cn
  rw [show cn.length = m from pair_tail_length hstream hmin] at hpair
  rw [List.append_assoc, ← hpair]
  exact exec_xtsFin_unaligned hacc rfl rfl hne hmin hcap hstraddle

/-! ## Who writes the configuration (10_state.md section 2) -/

/-- The registers that only a constructor or XTS_DISP writes. -/
def configuration (r : Regs) : Ctx × KeySize × BitVec 256 × KeySize × BitVec 256 × Dir × Mode × U64 :=
  (r.ctx, r.ks1, r.k1, r.ks2, r.k2, r.dir, r.mode, r.startSec)

theorem configuration_iterAdvance (r : Regs) : configuration (iterAdvance r) = configuration r := by
  simp [configuration]

/-- The accounting of the unit is no part of the configuration. -/
theorem configuration_procEffect (data : List Byte) (r : Regs) : configuration (procEffect data r).1 = configuration r :=
  (congrArg configuration (clearUnit_procEffect data r)).trans (iterate_frame configuration configuration_iterAdvance _ r)

theorem configuration_finEffect (data : List Byte) (r : Regs) : configuration (finEffect data r).1 = configuration r := by
  rw [finEffect_fst]
  rfl

theorem secsz_procEffect (data : List Byte) (r : Regs) : (procEffect data r).1.secsz = r.secsz :=
  (congrArg Regs.secsz (clearUnit_procEffect data r)).trans (iterate_frame Regs.secsz iterAdvance_secsz _ r)

theorem secsz_finEffect (data : List Byte) (r : Regs) : (finEffect data r).1.secsz = r.secsz := by
  rw [finEffect_fst]
  rfl

theorem commandRegs_configuration (r : Regs) {i : Instr} (h : i.opcode ∉ [Opcode.twkInit, .xtsInit, .xtsDisp]) :
    configuration (commandRegs r i) = configuration r ∧ (i.opcode ≠ .twkReset → (commandRegs r i).secsz = r.secsz) := by
  cases i
  case twkInit | xtsInit | xtsDisp => simp [Instr.opcode] at h
  case twkReset => exact ⟨rfl, fun hne => absurd rfl hne⟩
  case twkAdv | twkTake => exact ⟨configuration_iterAdvance r, fun _ => iterAdvance_secsz r⟩
  case xtsProc cap data => exact ⟨configuration_procEffect data r, fun _ => secsz_procEffect data r⟩
  case xtsFin cap data => exact ⟨configuration_finEffect data r, fun _ => secsz_finEffect data r⟩
  all_goals exact ⟨rfl, fun _ => rfl⟩

/-- Settles O47: a command keeps its registers, or writes some that are no part of the configuration. -/
theorem onlyConstructorsWriteConfiguration : Obligations.OnlyConstructorsWriteConfiguration := by
  intro i s s' hexec hop
  have hkept : configuration s'.regs = configuration s.regs ∧ (i.opcode ≠ .twkReset → s'.regs.secsz = s.regs.secsz) := by
    rcases exec_regs_cases hexec with e | ⟨-, e⟩ <;> rw [e]
    · exact ⟨rfl, fun _ => rfl⟩
    · exact commandRegs_configuration s.regs hop
  obtain ⟨hconfig, hsecsz⟩ := hkept
  simp only [configuration, Prod.mk.injEq] at hconfig
  obtain ⟨hctx, hks1, hk1, hks2, hk2, hdir, hmode, hstart⟩ := hconfig
  exact ⟨hctx, hks1, hk1, hks2, hk2, hdir, hmode, hstart, hsecsz⟩

end Sys2Proof.Proofs

/-! # Proofs of the statements across families: the register invariants (10_state.md sections 2 and 3; 42_xts.md R165) -/

namespace Sys2Proof.Proofs

open Machine

/-! ## Key slots -/

/-- A slot is laid out as its size bit says: a 16-byte key leaves the upper half zero (10_state.md R23). -/
def SlotFits (ks : KeySize) (k : BitVec 256) : Prop := ks = .k128 → k.toNat < 2 ^ 128

theorem slotFits_zero (ks : KeySize) : SlotFits ks 0 := fun _ => by decide

/-- A KEY field of either size loads a slot that fits (30_encoding.md R74). -/
theorem slotFits_keySlot (k : AesKey) : SlotFits (keySize k) (keySlot k) := by
  intro hks
  cases k with
  | k128 k =>
    rw [keySlot, BitVec.toNat_setWidth_of_le (by decide)]
    exact k.isLt
  | k256 k => cases hks

/-! ## Where no object exists -/

/-- Zeroized registers satisfy the invariants in a context without an iterator (10_state.md R38). -/
theorem inv_zeroized {ctx : Ctx} (hctx : ctx = .none ∨ ctx = .disposed) : Regs.Inv { Regs.zero with ctx := ctx } := by
  have hnone : ¬ Regs.HasIterator { Regs.zero with ctx := ctx } := by
    rcases hctx with rfl | rfl <;> simp [Regs.HasIterator]
  exact
    { invalidZero := by rcases hctx with rfl | rfl <;> exact rfl
      sectorSize := fun h => absurd h hnone
      blockRange := fun h => absurd h hnone
      tweak := fun h => absurd h hnone
      pendTail := fun i _ => Vector.getElem_replicate i.isLt
      budget := fun h => absurd (.inr h) hnone
      noBudget := fun _ => rfl
      dataKeyTop := slotFits_zero _
      tweakKeyTop := slotFits_zero _ }

/-- Outside CIPHER in Independent mode there is no data unit to lay out. -/
theorem layout_of_ctx_ne {r : Regs} (h : r.ctx ≠ .cipher) : r.IndependentLayout := fun hctx => absurd hctx h

/-- Settles O53: after reset every register is zero and there is no object. -/
theorem regsInvAtReset : Obligations.RegsInvAtReset :=
  ⟨inv_zeroized (.inl rfl), layout_of_ctx_ne (by decide)⟩

/-! ## Loading the iterator (41_tweak.md R123) -/

/-- Registers with no byte of a unit counted or pending satisfy the invariants once checked coordinates are loaded. -/
theorem inv_iterLoad {r : Regs} {secsz sec blk : U64} (hcheck : iterCheck secsz blk = none) (hiter : r.HasIterator)
    (hzero : r.InvalidZero) (hk1 : SlotFits r.ks1 r.k1) (hk2 : SlotFits r.ks2 r.k2)
    (hpend : r.pend = Vector.replicate 31 0) (hsbytes : r.sbytes = 0) :
    (iterLoad secsz sec blk r).Inv := by
  obtain ⟨hsecsz, hblk⟩ := (iterCheck_eq_none secsz blk).mp hcheck
  exact
    { invalidZero := by
        rcases hiter with h | h <;> simp only [Regs.InvalidZero, iterLoad_ctx, h] at hzero ⊢
        exact hzero
      sectorSize := fun _ => hsecsz
      blockRange := fun _ => hblk
      tweak := fun _ => tweakAt_eq r.tweakKey sec blk
      pendTail := fun i _ => by
        change r.pend[i] = 0
        rw [hpend]
        exact Vector.getElem_replicate i.isLt
      budget := fun _ _ => by
        rw [iterLoad_sbytes, hsbytes]
        exact Nat.zero_le _
      noBudget := fun _ => hsbytes
      dataKeyTop := hk1
      tweakKeyTop := hk2 }

theorem iterCheck_start {secsz : U64} (h : 16 ≤ secsz.toNat) : iterCheck secsz 0 = none := by
  rw [iterCheck_eq_none]
  refine ⟨h, ?_⟩
  change 0 < (secsz.toNat + 15) / 16
  omega

theorem inv_initIter (k2 : AesKey) {secsz sec blk : U64} (hcheck : iterCheck secsz blk = none) :
    (initIter k2 secsz sec blk).Inv := by
  have hload : initIter k2 secsz sec blk =
      iterLoad secsz sec blk { Regs.zero with ctx := .iter, k2 := keySlot k2, ks2 := keySize k2 } := by
    simp only [initIter, iterLoad, Regs.tweakKey]
  rw [hload]
  exact inv_iterLoad hcheck (.inl rfl) ⟨rfl, rfl, rfl, rfl, rfl, rfl, rfl, rfl⟩ (slotFits_zero _)
    (slotFits_keySlot k2) rfl rfl

theorem inv_initCipher (dir : Dir) (mode : Mode) (k1 k2 : AesKey) {secsz sec : U64} (hsecsz : 16 ≤ secsz.toNat) :
    (initCipher dir mode k1 k2 secsz sec).Inv := by
  have hload : initCipher dir mode k1 k2 secsz sec =
      iterLoad secsz sec 0
        { Regs.zero with
          ctx := .cipher, k1 := keySlot k1, ks1 := keySize k1, k2 := keySlot k2, ks2 := keySize k2, dir := dir, mode := mode,
          startSec := sec } := by
    simp only [initCipher, iterLoad, Regs.tweakKey]
  rw [hload]
  exact inv_iterLoad (iterCheck_start hsecsz) (.inr rfl) trivial (slotFits_keySlot k1) (slotFits_keySlot k2)
    rfl rfl

theorem inv_twkReset {r : Regs} {secsz sec blk : U64} (hinv : r.Inv) (hctx : r.ctx = .iter)
    (hcheck : iterCheck secsz blk = none) : (iterLoad secsz sec blk r).Inv := by
  have hzero := hinv.invalidZero
  obtain ⟨-, -, -, -, -, hpend, -, hsbytes⟩ : r.k1 = 0 ∧ _ := by simpa only [Regs.InvalidZero, hctx] using hzero
  exact inv_iterLoad hcheck (.inl hctx) hzero hinv.dataKeyTop hinv.tweakKeyTop hpend hsbytes

theorem inv_autoReset {r : Regs} (hinv : r.Inv) (hctx : r.ctx = .cipher) : (autoReset r).Inv := by
  have hzero : Regs.InvalidZero { r with pend := padTo31 [], plen := 0, sbytes := 0 } := by
    simp only [Regs.InvalidZero, hctx]
  exact inv_iterLoad (iterCheck_start (hinv.sectorSize (.inr hctx))) (.inr hctx) hzero hinv.dataKeyTop hinv.tweakKeyTop
    rfl rfl

/-! ## Advancing the iterator (41_tweak.md R122) -/

/-- Wherever the iterator walks, its registers are those of the block it has come to (41_tweak.md R135). -/
theorem iterate_eq_atBlock {r : Regs} (hinv : r.Inv) (hiter : r.HasIterator) (n : Nat) :
    iterAdvance^[n] r = atBlock r (r.blk.toNat + n) := by
  have hpos : 0 < r.bps := Nat.zero_lt_of_lt (inv_blk_lt_bps hinv hiter)
  rw [← iterate_atBlock r _ n hpos, atBlock_self hinv hiter]

/-- At any block TWK is the tweak of SEC and BLK (10_state.md R31). -/
theorem inv_atBlock {r : Regs} (hinv : r.Inv) (hiter : r.HasIterator) (n : Nat) : (atBlock r n).Inv := by
  have hpos : 0 < r.bps := Nat.zero_lt_of_lt (inv_blk_lt_bps hinv hiter)
  have hblk := atBlock_blk_toNat r n hpos
  have hzero := hinv.invalidZero
  exact
    { invalidZero := by
        have hctx : (atBlock r n).ctx = r.ctx := rfl
        rcases hiter with h | h <;> simp only [Regs.InvalidZero, hctx, h] at hzero ⊢
        exact hzero
      sectorSize := hinv.sectorSize
      blockRange := fun _ => hblk.trans_lt (Nat.mod_lt n hpos)
      tweak := fun _ => by rw [hblk]; rfl
      pendTail := hinv.pendTail
      budget := hinv.budget
      noBudget := hinv.noBudget
      dataKeyTop := hinv.dataKeyTop
      tweakKeyTop := hinv.tweakKeyTop }

theorem inv_iterate {r : Regs} (hinv : r.Inv) (hiter : r.HasIterator) (n : Nat) : (iterAdvance^[n] r).Inv := by
  rw [iterate_eq_atBlock hinv hiter]
  exact inv_atBlock hinv hiter _

/-! ## Accounting for a data unit (42_xts.md R163, R174) -/

/-- What is written to the pending buffer is followed by zeros (10_state.md R32). -/
theorem padTo31_tail {bs : List Byte} (h : bs.length ≤ 31) (i : Fin 31) (hi : bs.length ≤ i.val) : (padTo31 bs)[i] = 0 := by
  have hlist := padTo31_toList bs h
  have hget : (padTo31 bs)[i] = (padTo31 bs).toList[i.val]'(by simp) := (Vector.getElem_toList _).symm
  simp only [hget, hlist, List.getElem_append_right hi, List.getElem_replicate]

/-- The accounting of a data unit may change under its own invariants, and the rest of the registers stays as it is. -/
theorem inv_of_clearUnit {r r' : Regs} (hinv : r.Inv) (hctx : r.ctx = .cipher) (h : clearUnit r' = clearUnit r)
    (htail : ∀ i : Fin 31, r'.plen.toNat ≤ i.val → r'.pend[i] = 0)
    (hbudget : r.mode = .independent → r'.sbytes.toNat ≤ r.secsz.toNat) (hnone : r.mode = .continuous → r'.sbytes = 0) :
    r'.Inv := by
  rw [eq_of_clearUnit h]
  exact
    { invalidZero := by simp only [Regs.InvalidZero, hctx]
      sectorSize := hinv.sectorSize
      blockRange := hinv.blockRange
      tweak := hinv.tweak
      pendTail := htail
      budget := fun _ => hbudget
      noBudget := hnone
      dataKeyTop := hinv.dataKeyTop
      tweakKeyTop := hinv.tweakKeyTop }

/-- Neither sum of an accepted XTS_PROC wraps: what is held back fits PLEN, and the budget keeps SBYTES within SECSZ. -/
theorem procEffect_unit_toNat {r : Regs} {data : List Byte} {n : Nat} (hn : (r.plen.toNat + data.length) / 16 - 1 = n)
    (hbudget : r.mode = .independent → r.sbytes.toNat + data.length ≤ r.secsz.toNat) :
    (procEffect data r).1.plen.toNat = r.plen.toNat + data.length - 16 * n ∧
      (r.mode = .independent → (procEffect data r).1.sbytes.toNat = r.sbytes.toNat + data.length) := by
  obtain ⟨-, hplen, hsbytes⟩ := procEffect_unit data r
  have hheld := sub_nproc_le (r.plen.toNat + data.length)
  have hcount : nproc (r.plen.toNat + data.length) = 16 * n := hn ▸ Nat.mul_comm _ _
  rw [hcount] at hplen hheld
  refine ⟨?_, fun hmode => ?_⟩
  · rw [hplen]
    exact Nat.mod_eq_of_lt (by omega)
  · have hfits := hbudget hmode
    have hsecsz := r.secsz.isLt
    rw [hsbytes, if_pos hmode, BitVec.toNat_add, BitVec.toNat_ofNat]
    omega

/-- Behind the bytes an XTS_PROC keeps the buffer is zero (10_state.md R32). -/
theorem procEffect_tail (data : List Byte) (r : Regs) (i : Fin 31) (hi : (procEffect data r).1.plen.toNat ≤ i.val) :
    (procEffect data r).1.pend[i] = 0 := by
  obtain ⟨hpend, -, -⟩ := procEffect_unit data r
  have hkept := procEffect_pending data r
  rw [← pending_length, hkept] at hi
  simp only [hpend]
  exact padTo31_tail (hkept ▸ (pending_length _).trans_le (Nat.le_of_lt_succ (procEffect data r).1.plen.isLt)) i hi

theorem inv_procEffect {r : Regs} {data : List Byte} (hinv : r.Inv) (hctx : r.ctx = .cipher)
    (hbudget : r.mode = .independent → r.sbytes.toNat + data.length ≤ r.secsz.toNat) : (procEffect data r).1.Inv := by
  obtain ⟨-, -, hsbytes⟩ := procEffect_unit data r
  obtain ⟨-, hsbytesNat⟩ := procEffect_unit_toNat (data := data) rfl hbudget
  have hunit := clearUnit_procEffect data r
  generalize (r.plen.toNat + data.length) / 16 - 1 = n at hunit
  have hwalked := inv_iterate hinv (.inr hctx) n
  have hmode := iterate_frame Regs.mode iterAdvance_mode n r
  have hctx' := (iterate_frame Regs.ctx iterAdvance_ctx n r).trans hctx
  refine inv_of_clearUnit hwalked hctx' hunit (procEffect_tail data r) (fun hind => ?_) (fun hcont => ?_)
  · have hind' : r.mode = .independent := hmode.symm.trans hind
    rw [iterate_frame Regs.secsz iterAdvance_secsz, hsbytesNat hind']
    exact hbudget hind'
  · have hcont' : r.mode = .continuous := hmode.symm.trans hcont
    rw [hsbytes, hcont']
    exact hinv.noBudget hcont'

/-! ## The invariants over a step -/

theorem inv_disposeRegs {r : Regs} (hinv : r.Inv) : (disposeRegs r).Inv := by
  rcases disposeRegs_cases r with ⟨-, e⟩ | ⟨-, e⟩ <;> rw [e]
  · exact inv_zeroized (.inr rfl)
  · exact hinv

/-- The registers a command writes where its checks pass satisfy the invariants. -/
theorem inv_commandRegs {r : Regs} (hinv : r.Inv) {i : Instr} (hcheck : commandCheck r i = none) : (commandRegs r i).Inv := by
  cases i
  case twkInit k2 secsz sec blk => exact inv_initIter k2 hcheck
  case twkReset secsz sec blk =>
    obtain ⟨hctx, hload⟩ := (twkResetCheck_eq_none r secsz sec blk).mp hcheck
    exact inv_twkReset hinv hctx hload
  case twkAdv | twkTake => exact inv_iterate hinv (.inl ((iterWriteCheck_eq_none r).mp hcheck)) 1
  case xtsInit dir mode k1 k2 secsz sec => exact inv_initCipher dir mode k1 k2 ((secszCheck_eq_none secsz).mp hcheck)
  case xtsProc cap data =>
    obtain ⟨hctx, -, hbudget, -⟩ := (procCheck_eq_none _ _ _).mp hcheck
    exact inv_procEffect hinv hctx hbudget
  case xtsFin cap data =>
    obtain ⟨hctx, -⟩ := (finCheck_eq_none _ _ _).mp hcheck
    rw [commandRegs, finEffect_fst]
    exact inv_autoReset hinv hctx
  case xtsReset => exact inv_autoReset hinv ((cipherCheck_eq_none r).mp hcheck)
  case xtsDisp => exact inv_disposeRegs hinv
  all_goals exact hinv

/-- What zeroized registers satisfy and every accepted command keeps, every step keeps. -/
theorem step_keeps {P : Regs → Prop} {s s' : State} (h : P s.regs) (hreset : P Regs.zero)
    (hcommand : ∀ i, commandCheck s.regs i = none → P (commandRegs s.regs i)) (hstep : step s = .next s') : P s'.regs := by
  rcases step_cases s with ⟨-, e⟩ | ⟨-, -, e⟩ | ⟨-, -, -, e⟩ | ⟨c, o, -, -, -, e⟩ | ⟨i, n, -, -, -, e⟩
  case inr.inr.inr.inr =>
    rcases exec_regs_cases (e.symm.trans hstep) with e' | ⟨hcheck, e'⟩ <;> rw [e']
    · exact h
    · exact hcommand i hcheck
  all_goals obtain rfl := Host.Outcome.next.inj (e.symm.trans hstep)
  · exact hreset
  · exact h
  · exact h
  · exact h

/-- Settles O54: each operation on the registers keeps the invariants under the checks its commands make. -/
theorem stepKeepsRegsInv : Obligations.StepKeepsRegsInv := fun _ _ hinv hstep =>
  step_keeps hinv (inv_zeroized (.inl rfl)) (fun _ hcheck => inv_commandRegs hinv hcheck) hstep

/-! ## A data unit in Independent mode (42_xts.md R165) -/

/-- At its configured start a cipher has taken in nothing. -/
theorem layout_autoReset (r : Regs) : (autoReset r).IndependentLayout := fun _ _ =>
  ⟨rfl, rfl, fun _ => rfl, fun h => absurd h (Nat.not_lt_zero 31)⟩

theorem layout_initCipher (dir : Dir) (mode : Mode) (k1 k2 : AesKey) (secsz sec : U64) :
    (initCipher dir mode k1 k2 secsz sec).IndependentLayout := fun _ _ =>
  ⟨rfl, rfl, fun _ => rfl, fun h => absurd h (Nat.not_lt_zero 31)⟩

/-- A unit of `s` bytes, `b` blocks of them emitted and `p` bytes pending, that takes in `d` more: the block reached still lies
in the sector, because at least one whole block of the budget is held back behind it. -/
theorem layout_arithmetic {b p s d secsz n : Nat} (hblk : b < (secsz + 15) / 16) (hsum : 16 * b + p = s)
    (hsmall : s ≤ 31 → b = 0) (hlarge : 31 < s → 16 ≤ p) (hbudget : s + d ≤ secsz) (hn : (p + d) / 16 - 1 = n) :
    b + n < (secsz + 15) / 16 ∧ 16 * (b + n) + (p + d - 16 * n) = s + d ∧ (s + d ≤ 31 → b + n = 0) ∧
      (31 < s + d → 16 ≤ p + d - 16 * n) := by
  omega

/-- XTS_PROC walks the iterator to the block behind those it emits (42_xts.md R163). -/
theorem procEffect_position {r : Regs} {data : List Byte} {n : Nat} (hinv : r.Inv) (hctx : r.ctx = .cipher)
    (hn : (r.plen.toNat + data.length) / 16 - 1 = n) (hin : r.blk.toNat + n < r.bps) :
    (procEffect data r).1.sec = r.sec ∧ (procEffect data r).1.blk.toNat = r.blk.toNat + n := by
  have hunit := clearUnit_procEffect data r
  rw [hn, iterate_eq_atBlock hinv (.inr hctx)] at hunit
  have hsec : (procEffect data r).1.sec = (atBlock r (r.blk.toNat + n)).sec := (congrArg Regs.sec hunit :)
  have hblk : (procEffect data r).1.blk = (atBlock r (r.blk.toNat + n)).blk := (congrArg Regs.blk hunit :)
  rw [hsec, hblk, atBlock_blk_toNat _ _ (Nat.zero_lt_of_lt hin), Nat.mod_eq_of_lt hin]
  refine ⟨?_, rfl⟩
  simp [atBlock, Nat.div_eq_of_lt hin]

theorem layout_procEffect {r : Regs} {data : List Byte} (hinv : r.Inv) (hlayout : r.IndependentLayout)
    (hctx : r.ctx = .cipher) (hbudget : r.mode = .independent → r.sbytes.toNat + data.length ≤ r.secsz.toNat) :
    (procEffect data r).1.IndependentLayout := by
  intro _ hmode'
  have hconfig := configuration_procEffect data r
  simp only [configuration, Prod.mk.injEq] at hconfig
  obtain ⟨-, -, -, -, -, -, hmode, hstart⟩ := hconfig
  have hind : r.mode = .independent := hmode.symm.trans hmode'
  obtain ⟨hsec, hsum, hsmall, hlarge⟩ := hlayout hctx hind
  generalize hn : (r.plen.toNat + data.length) / 16 - 1 = n
  obtain ⟨hplen, hsbytes⟩ := procEffect_unit_toNat hn hbudget
  obtain ⟨hin, hsum', hsmall', hlarge'⟩ := layout_arithmetic (inv_blk_lt_bps hinv (.inr hctx)) hsum
    (fun h => congrArg BitVec.toNat (hsmall h)) hlarge (hbudget hind) hn
  obtain ⟨hsec', hblk⟩ := procEffect_position hinv hctx hn hin
  rw [hsec', hstart, hblk, hplen, hsbytes hind]
  exact ⟨hsec, hsum', fun h => BitVec.eq_of_toNat_eq (hblk.trans (hsmall' h)), hlarge'⟩

theorem layout_commandRegs {r : Regs} (hinv : r.Inv) (hlayout : r.IndependentLayout) {i : Instr}
    (hcheck : commandCheck r i = none) : (commandRegs r i).IndependentLayout := by
  cases i
  case twkInit => exact layout_of_ctx_ne (by simp [commandRegs, initIter])
  case twkReset secsz sec blk =>
    obtain ⟨hctx, -⟩ := (twkResetCheck_eq_none r secsz sec blk).mp hcheck
    exact layout_of_ctx_ne (by simp [commandRegs, hctx])
  case twkAdv | twkTake => exact layout_of_ctx_ne (by simp [commandRegs, (iterWriteCheck_eq_none r).mp hcheck])
  case xtsInit => exact layout_initCipher _ _ _ _ _ _
  case xtsProc cap data =>
    obtain ⟨hctx, -, hbudget, -⟩ := (procCheck_eq_none _ _ _).mp hcheck
    exact layout_procEffect hinv hlayout hctx hbudget
  case xtsFin cap data =>
    rw [commandRegs, finEffect_fst]
    exact layout_autoReset r
  case xtsReset => exact layout_autoReset r
  case xtsDisp =>
    rw [commandRegs]
    rcases disposeRegs_cases r with ⟨-, e⟩ | ⟨-, e⟩ <;> rw [e]
    · exact layout_of_ctx_ne (by decide)
    · exact hlayout
  all_goals exact hlayout

/-- Settles O55: a new or restarted unit is empty, and XTS_PROC moves the iterator and the accounting together. -/
theorem stepKeepsIndependentLayout : Obligations.StepKeepsIndependentLayout := fun _ _ hinv hlayout hstep =>
  step_keeps hlayout (layout_of_ctx_ne (by decide)) (fun _ hcheck => layout_commandRegs hinv hlayout hcheck) hstep

end Sys2Proof.Proofs
